-- ==== Sys2Proof/Word.lean ====
section
/-!
DEFINITION. The three operand widths of the machine (spec/00_scope.md rule R5): Byte, Word and Long,
and the number of bits and bytes each size letter stands for.
-/

namespace Sys2Proof

/-- A Byte: 8 bits, bit 0 the least significant (rule R5). -/
abbrev Byte := BitVec 8

/-- A Word: 16 bits (rule R5); also one instruction word (rule R80). -/
abbrev Word := BitVec 16

/-- A Long: 32 bits (rule R5); the width of a data register, an address register, the program counter
and an address (rule R4). -/
abbrev Long := BitVec 32

/-- The operand size an instruction's suffix names: `.B`, `.W` or `.L` (rules R5, R83). -/
inductive Size where
  | byte
  | word
  | long
  deriving DecidableEq, Repr

/-- `size_bytes` of rule R5. -/
abbrev Size.bytes : Size → Nat
  | .byte => 1
  | .word => 2
  | .long => 4

/-- `n`, the operand size in bits (rule R5). -/
abbrev Size.bits : Size → Nat
  | .byte => 8
  | .word => 16
  | .long => 32

end Sys2Proof
end

