-- ==== Sys2Proof/Config.lean ====
section
/-!
DEFINITION. What the source leaves open and the model does not fix: the FREE VALUES, opaque constants
without a body.  The other open parameters of the spec (MemMap, ProgramText, EntryAddr, EndAddr, the
launch state) are plain data in State, so that every theorem quantifies over them.
-/

namespace Sys2Proof

/-- The parameter `DivOvfNZ` (spec/43_divide.md rule R163, spec/93 U1): the flags N and Z, in that order,
after a DIVS (`signed`) or DIVU that overflows.  `draw` is the state's count of free values used so far,
so that nothing relates two uses.  FREE VALUE, assumption log entry 6. -/
opaque Config.divOvfNZ (draw : Nat) (signed : Bool) (dividend : Long) (divisor : Word) : Bool × Bool

/-- The flags N, Z, V, C, in that order, in the terminal state of `Trap(ZeroDivide)`
(spec/60_exceptions.md rule R230, spec/93 U2: any value).  FREE VALUE, assumption log entry 7. -/
opaque Config.trapNZVC (draw : Nat) : Bool × Bool × Bool × Bool

end Sys2Proof
end

