-- ==== Sys2Proof/Syntax.lean ====
section
/-!
DEFINITION. The instructions as syntax: the twelve addressing modes (spec/00_scope.md rule R13,
spec/20_memory.md rules R51 to R61) and one constructor for each of the 70 rows of
spec/opcode_table.json.  Operands stand in assembler order, source first (spec/30_encoding.md rule R110).
-/

namespace Sys2Proof

/-- The number 0 to 7 of a data or address register (rules R20, R22). -/
abbrev Reg := Fin 8

/-- Which register file an index register Ri belongs to (rule R57; bit 15 of the index word, R91). -/
inductive RegFile where
  | data
  | address
  deriving DecidableEq, Repr

/-- How much of the index register is used (rule R57; bit 11 of the index word, R91). -/
inductive IndexSize where
  | word
  | long
  deriving DecidableEq, Repr

/-- The index register Ri of the two "with Index" modes, with its size (rules R57, R91). -/
structure Index where
  file : RegFile
  reg  : Reg
  size : IndexSize
  deriving DecidableEq, Repr

/-- An effective address `<ea>`: the twelve modes of rule R13, in AF's order, each with what its
extension words hold (rules R51 to R61). -/
inductive Ea where
  /-- 1. Data Register Direct `Dn`. -/
  | dn (r : Reg)
  /-- 2. Address Register Direct `An`. -/
  | an (r : Reg)
  /-- 3. Address Register Indirect `(An)`. -/
  | ind (r : Reg)
  /-- 4. Postincrement Register Indirect `(An)+`. -/
  | postInc (r : Reg)
  /-- 5. Predecrement Register Indirect `-(An)`. -/
  | preDec (r : Reg)
  /-- 6. Register Indirect with Offset `d16(An)`. -/
  | disp (d16 : Word) (r : Reg)
  /-- 7. Register Indirect with Index `d8(An,Ri)`. -/
  | index (d8 : Byte) (r : Reg) (ix : Index)
  /-- 8. Absolute Short. -/
  | absShort (w : Word)
  /-- 9. Absolute Long. -/
  | absLong (addr : Long)
  /-- 10. P.C. Relative with Offset `d16(PC)`. -/
  | pcDisp (d16 : Word)
  /-- 11. P.C. Relative with Index `d8(PC,Ri)`. -/
  | pcIndex (d8 : Byte) (ix : Index)
  /-- 12. Immediate `#<data>`: the operand's bits, zero above the operation size. -/
  | imm (v : Long)
  deriving DecidableEq, Repr

/-- The instructions: one constructor per row of spec/opcode_table.json, in the table's order.  A last
letter B, W or L is the row's size. -/
inductive Instr where
  -- ADD `<ea>,Dn` (rule R120)
  | addEaDnB (src : Ea) (dst : Reg)
  | addEaDnW (src : Ea) (dst : Reg)
  | addEaDnL (src : Ea) (dst : Reg)
  -- ADD `Dn,<ea>` (rule R121)
  | addDnEaB (src : Reg) (dst : Ea)
  | addDnEaW (src : Reg) (dst : Ea)
  | addDnEaL (src : Reg) (dst : Ea)
  -- SUB `<ea>,Dn` (rule R195)
  | subEaDnB (src : Ea) (dst : Reg)
  | subEaDnW (src : Ea) (dst : Reg)
  | subEaDnL (src : Ea) (dst : Reg)
  -- SUB `Dn,<ea>` (rule R196)
  | subDnEaB (src : Reg) (dst : Ea)
  | subDnEaW (src : Reg) (dst : Ea)
  | subDnEaL (src : Reg) (dst : Ea)
  -- ADDA, SUBA, CMPA `<ea>,An` (rules R122, R197, R147)
  | addaW (src : Ea) (dst : Reg)
  | addaL (src : Ea) (dst : Reg)
  | subaW (src : Ea) (dst : Reg)
  | subaL (src : Ea) (dst : Reg)
  | cmpaW (src : Ea) (dst : Reg)
  | cmpaL (src : Ea) (dst : Reg)
  -- CMP `<ea>,Dn` (rule R145)
  | cmpB (src : Ea) (dst : Reg)
  | cmpW (src : Ea) (dst : Reg)
  | cmpL (src : Ea) (dst : Reg)
  -- ADDI, SUBI, CMPI `#<data>,<ea>` (rules R124, R199, R149)
  | addiB (imm : Byte) (dst : Ea)
  | addiW (imm : Word) (dst : Ea)
  | addiL (imm : Long) (dst : Ea)
  | subiB (imm : Byte) (dst : Ea)
  | subiW (imm : Word) (dst : Ea)
  | subiL (imm : Long) (dst : Ea)
  | cmpiB (imm : Byte) (dst : Ea)
  | cmpiW (imm : Word) (dst : Ea)
  | cmpiL (imm : Long) (dst : Ea)
  -- ADDQ, SUBQ `#<data>,<ea>`, the data an integer 1 to 8 (rules R126, R201)
  | addqB (q : Nat) (dst : Ea)
  | addqW (q : Nat) (dst : Ea)
  | addqL (q : Nat) (dst : Ea)
  | subqB (q : Nat) (dst : Ea)
  | subqW (q : Nat) (dst : Ea)
  | subqL (q : Nat) (dst : Ea)
  -- ADDX `Dy,Dx` and `-(Ay),-(Ax)`: `src` is y, `dst` is x (rules R128, R129)
  | addxRegB (src dst : Reg)
  | addxRegW (src dst : Reg)
  | addxRegL (src dst : Reg)
  | addxMemB (src dst : Reg)
  | addxMemW (src dst : Reg)
  | addxMemL (src dst : Reg)
  -- SUBX `Dy,Dx` and `-(Ay),-(Ax)` (rules R203, R204)
  | subxRegB (src dst : Reg)
  | subxRegW (src dst : Reg)
  | subxRegL (src dst : Reg)
  | subxMemB (src dst : Reg)
  | subxMemW (src dst : Reg)
  | subxMemL (src dst : Reg)
  -- CMPM `(Ay)+,(Ax)+` (rule R151)
  | cmpmB (src dst : Reg)
  | cmpmW (src dst : Reg)
  | cmpmL (src dst : Reg)
  -- DIVS, DIVU, MULS, MULU `<ea>,Dn`, Word only (rules R160, R161, R175, R176)
  | divs (src : Ea) (dst : Reg)
  | divu (src : Ea) (dst : Reg)
  | muls (src : Ea) (dst : Reg)
  | mulu (src : Ea) (dst : Reg)
  -- EXT `Dn` (rule R170)
  | extW (dst : Reg)
  | extL (dst : Reg)
  -- NEG, NEGX, CLR, TST, TAS `<ea>` (rules R185, R186, R140, R217, R216)
  | negB (dst : Ea)
  | negW (dst : Ea)
  | negL (dst : Ea)
  | negxB (dst : Ea)
  | negxW (dst : Ea)
  | negxL (dst : Ea)
  | clrB (dst : Ea)
  | clrW (dst : Ea)
  | clrL (dst : Ea)
  | tstB (dst : Ea)
  | tstW (dst : Ea)
  | tstL (dst : Ea)
  | tas (dst : Ea)
  deriving DecidableEq, Repr

end Sys2Proof
end

