-- ==== Sys2Proof/WellFormed.lean ====
section
/-!
DEFINITION. Which instructions are well formed: the operand categories of spec/00_scope.md rule R13, the
exclusion of an address register with Byte size (spec/10_state.md rule R22), the range of the quick
data (spec/30_encoding.md rule R87) and the width of an immediate (rule R92).
-/

namespace Sys2Proof

/-- The twelve addressing modes without their operands, in AF's order (rule R13). -/
inductive Mode where
  | dn
  | an
  | ind
  | postInc
  | preDec
  | disp
  | index
  | absShort
  | absLong
  | pcDisp
  | pcIndex
  | imm
  deriving DecidableEq, Repr

/-- The mode of an effective address. -/
def Ea.mode : Ea → Mode
  | .dn _ => .dn
  | .an _ => .an
  | .ind _ => .ind
  | .postInc _ => .postInc
  | .preDec _ => .preDec
  | .disp _ _ => .disp
  | .index _ _ _ => .index
  | .absShort _ => .absShort
  | .absLong _ => .absLong
  | .pcDisp _ => .pcDisp
  | .pcIndex _ _ => .pcIndex
  | .imm _ => .imm

/-- AF's categories of effective addresses (rule R13). -/
inductive Category where
  | all
  | data
  | alterable
  | dataAlterable
  | alterableMemory
  deriving DecidableEq, Repr

/-- The modes of a category, the second table of rule R13. -/
def Category.modes : Category → List Mode
  | .all =>
    [.dn, .an, .ind, .postInc, .preDec, .disp, .index, .absShort, .absLong, .pcDisp, .pcIndex, .imm]
  | .data =>
    [.dn, .ind, .postInc, .preDec, .disp, .index, .absShort, .absLong, .pcDisp, .pcIndex, .imm]
  | .alterable => [.dn, .an, .ind, .postInc, .preDec, .disp, .index, .absShort, .absLong]
  | .dataAlterable => [.dn, .ind, .postInc, .preDec, .disp, .index, .absShort, .absLong]
  | .alterableMemory => [.ind, .postInc, .preDec, .disp, .index, .absShort, .absLong]

/-- May an operand of this category and size have this mode?  Address Register Direct never goes with
Byte size (rules R22, R51; the column `ea_allowed` of spec/opcode_table.json). -/
def Category.allows (cat : Category) (sz : Size) (m : Mode) : Bool :=
  cat.modes.contains m && !(sz == .byte && m == .an)

/-- An immediate operand has no bits above the operation size (rule R92). -/
def Ea.immFits (sz : Size) : Ea → Bool
  | .imm v => v.toNat < 2 ^ sz.bits
  | _ => true

/-- What an instruction carries, as its row of spec/opcode_table.json and its encoding (rule R82) see it. -/
structure OperandInfo where
  /-- The operation size. -/
  size   : Size
  /-- Does an immediate of that size follow the operation word (format IM)? -/
  hasImm : Bool := false
  /-- The quick data (format QK). -/
  quick  : Option Nat := none
  /-- The `<ea>` operand with the category the row's `ea_allowed` column shows. -/
  ea     : Option (Category × Ea) := none
  deriving DecidableEq, Repr

/-- Size, immediate, quick data and `<ea>` operand of every instruction: the columns `size`, `format`,
`ea_operand` and `ea_allowed` of spec/opcode_table.json. -/
def Instr.info : Instr → OperandInfo
  | .addEaDnB src _ => { size := .byte, ea := some (.all, src) }
  | .addEaDnW src _ => { size := .word, ea := some (.all, src) }
  | .addEaDnL src _ => { size := .long, ea := some (.all, src) }
  | .addDnEaB _ dst => { size := .byte, ea := some (.alterableMemory, dst) }
  | .addDnEaW _ dst => { size := .word, ea := some (.alterableMemory, dst) }
  | .addDnEaL _ dst => { size := .long, ea := some (.alterableMemory, dst) }
  | .subEaDnB src _ => { size := .byte, ea := some (.all, src) }
  | .subEaDnW src _ => { size := .word, ea := some (.all, src) }
  | .subEaDnL src _ => { size := .long, ea := some (.all, src) }
  | .subDnEaB _ dst => { size := .byte, ea := some (.alterableMemory, dst) }
  | .subDnEaW _ dst => { size := .word, ea := some (.alterableMemory, dst) }
  | .subDnEaL _ dst => { size := .long, ea := some (.alterableMemory, dst) }
  | .addaW src _ => { size := .word, ea := some (.all, src) }
  | .addaL src _ => { size := .long, ea := some (.all, src) }
  | .subaW src _ => { size := .word, ea := some (.all, src) }
  | .subaL src _ => { size := .long, ea := some (.all, src) }
  | .cmpaW src _ => { size := .word, ea := some (.all, src) }
  | .cmpaL src _ => { size := .long, ea := some (.all, src) }
  | .cmpB src _ => { size := .byte, ea := some (.all, src) }
  | .cmpW src _ => { size := .word, ea := some (.all, src) }
  | .cmpL src _ => { size := .long, ea := some (.all, src) }
  | .addiB _ dst => { size := .byte, hasImm := true, ea := some (.dataAlterable, dst) }
  | .addiW _ dst => { size := .word, hasImm := true, ea := some (.dataAlterable, dst) }
  | .addiL _ dst => { size := .long, hasImm := true, ea := some (.dataAlterable, dst) }
  | .subiB _ dst => { size := .byte, hasImm := true, ea := some (.dataAlterable, dst) }
  | .subiW _ dst => { size := .word, hasImm := true, ea := some (.dataAlterable, dst) }
  | .subiL _ dst => { size := .long, hasImm := true, ea := some (.dataAlterable, dst) }
  | .cmpiB _ dst => { size := .byte, hasImm := true, ea := some (.dataAlterable, dst) }
  | .cmpiW _ dst => { size := .word, hasImm := true, ea := some (.dataAlterable, dst) }
  | .cmpiL _ dst => { size := .long, hasImm := true, ea := some (.dataAlterable, dst) }
  | .addqB q dst => { size := .byte, quick := some q, ea := some (.alterable, dst) }
  | .addqW q dst => { size := .word, quick := some q, ea := some (.alterable, dst) }
  | .addqL q dst => { size := .long, quick := some q, ea := some (.alterable, dst) }
  | .subqB q dst => { size := .byte, quick := some q, ea := some (.alterable, dst) }
  | .subqW q dst => { size := .word, quick := some q, ea := some (.alterable, dst) }
  | .subqL q dst => { size := .long, quick := some q, ea := some (.alterable, dst) }
  | .addxRegB _ _ => { size := .byte }
  | .addxRegW _ _ => { size := .word }
  | .addxRegL _ _ => { size := .long }
  | .addxMemB _ _ => { size := .byte }
  | .addxMemW _ _ => { size := .word }
  | .addxMemL _ _ => { size := .long }
  | .subxRegB _ _ => { size := .byte }
  | .subxRegW _ _ => { size := .word }
  | .subxRegL _ _ => { size := .long }
  | .subxMemB _ _ => { size := .byte }
  | .subxMemW _ _ => { size := .word }
  | .subxMemL _ _ => { size := .long }
  | .cmpmB _ _ => { size := .byte }
  | .cmpmW _ _ => { size := .word }
  | .cmpmL _ _ => { size := .long }
  | .divs src _ => { size := .word, ea := some (.data, src) }
  | .divu src _ => { size := .word, ea := some (.data, src) }
  | .muls src _ => { size := .word, ea := some (.data, src) }
  | .mulu src _ => { size := .word, ea := some (.data, src) }
  | .extW _ => { size := .word }
  | .extL _ => { size := .long }
  | .negB dst => { size := .byte, ea := some (.dataAlterable, dst) }
  | .negW dst => { size := .word, ea := some (.dataAlterable, dst) }
  | .negL dst => { size := .long, ea := some (.dataAlterable, dst) }
  | .negxB dst => { size := .byte, ea := some (.dataAlterable, dst) }
  | .negxW dst => { size := .word, ea := some (.dataAlterable, dst) }
  | .negxL dst => { size := .long, ea := some (.dataAlterable, dst) }
  | .clrB dst => { size := .byte, ea := some (.dataAlterable, dst) }
  | .clrW dst => { size := .word, ea := some (.dataAlterable, dst) }
  | .clrL dst => { size := .long, ea := some (.dataAlterable, dst) }
  | .tstB dst => { size := .byte, ea := some (.dataAlterable, dst) }
  | .tstW dst => { size := .word, ea := some (.dataAlterable, dst) }
  | .tstL dst => { size := .long, ea := some (.dataAlterable, dst) }
  | .tas dst => { size := .byte, ea := some (.dataAlterable, dst) }

/-- The `<ea>` operand is one the instruction allows (rules R97, R98). -/
def OperandInfo.eaOk (o : OperandInfo) : Bool :=
  match o.ea with
  | some (cat, ea) => cat.allows o.size ea.mode && ea.immFits o.size
  | none => true

/-- The quick data is an integer 1 to 8 (rules R87, R126, R201). -/
def OperandInfo.quickOk (o : OperandInfo) : Bool :=
  match o.quick with
  | some q => 1 ≤ q && q ≤ 8
  | none => true

/-- A well-formed instruction: one that has an encoding in spec/30_encoding.md. -/
def Instr.wf (i : Instr) : Bool := i.info.eaOk && i.info.quickOk

end Sys2Proof
end

