-- ==== Sys2Proof/Decode.lean ====
section
/-!
DEFINITION. From instruction words to instructions and back (spec/30_encoding.md): the decoder, total on
any words or bytes and refusing by name, in the order of rule R96; the encoder, written from the formats
of rules R82 to R92; and the length of every instruction, rule R81.
-/

namespace Sys2Proof

/-! ## Instructions by size -/

/-- ADD `<ea>,Dn` of a size. -/
def Instr.addEaDn (sz : Size) (src : Ea) (dst : Reg) : Instr :=
  match sz with
  | .byte => .addEaDnB src dst
  | .word => .addEaDnW src dst
  | .long => .addEaDnL src dst

/-- ADD `Dn,<ea>` of a size. -/
def Instr.addDnEa (sz : Size) (src : Reg) (dst : Ea) : Instr :=
  match sz with
  | .byte => .addDnEaB src dst
  | .word => .addDnEaW src dst
  | .long => .addDnEaL src dst

/-- SUB `<ea>,Dn` of a size. -/
def Instr.subEaDn (sz : Size) (src : Ea) (dst : Reg) : Instr :=
  match sz with
  | .byte => .subEaDnB src dst
  | .word => .subEaDnW src dst
  | .long => .subEaDnL src dst

/-- SUB `Dn,<ea>` of a size. -/
def Instr.subDnEa (sz : Size) (src : Reg) (dst : Ea) : Instr :=
  match sz with
  | .byte => .subDnEaB src dst
  | .word => .subDnEaW src dst
  | .long => .subDnEaL src dst

/-- ADDA: Long when bit 8 is 1, else Word. -/
def Instr.adda (long : Bool) (src : Ea) (dst : Reg) : Instr :=
  if long then .addaL src dst else .addaW src dst

/-- SUBA: Long when bit 8 is 1, else Word. -/
def Instr.suba (long : Bool) (src : Ea) (dst : Reg) : Instr :=
  if long then .subaL src dst else .subaW src dst

/-- CMPA: Long when bit 8 is 1, else Word. -/
def Instr.cmpa (long : Bool) (src : Ea) (dst : Reg) : Instr :=
  if long then .cmpaL src dst else .cmpaW src dst

/-- CMP `<ea>,Dn` of a size. -/
def Instr.cmp (sz : Size) (src : Ea) (dst : Reg) : Instr :=
  match sz with
  | .byte => .cmpB src dst
  | .word => .cmpW src dst
  | .long => .cmpL src dst

/-- ADDI of a size; the immediate is the low bits of `imm`. -/
def Instr.addi (sz : Size) (imm : Long) (dst : Ea) : Instr :=
  match sz with
  | .byte => .addiB (imm.setWidth 8) dst
  | .word => .addiW (imm.setWidth 16) dst
  | .long => .addiL imm dst

/-- SUBI of a size; the immediate is the low bits of `imm`. -/
def Instr.subi (sz : Size) (imm : Long) (dst : Ea) : Instr :=
  match sz with
  | .byte => .subiB (imm.setWidth 8) dst
  | .word => .subiW (imm.setWidth 16) dst
  | .long => .subiL imm dst

/-- CMPI of a size; the immediate is the low bits of `imm`. -/
def Instr.cmpi (sz : Size) (imm : Long) (dst : Ea) : Instr :=
  match sz with
  | .byte => .cmpiB (imm.setWidth 8) dst
  | .word => .cmpiW (imm.setWidth 16) dst
  | .long => .cmpiL imm dst

/-- ADDQ of a size. -/
def Instr.addq (sz : Size) (q : Nat) (dst : Ea) : Instr :=
  match sz with
  | .byte => .addqB q dst
  | .word => .addqW q dst
  | .long => .addqL q dst

/-- SUBQ of a size. -/
def Instr.subq (sz : Size) (q : Nat) (dst : Ea) : Instr :=
  match sz with
  | .byte => .subqB q dst
  | .word => .subqW q dst
  | .long => .subqL q dst

/-- ADDX of a size, form `Dy,Dx`. -/
def Instr.addxReg (sz : Size) (src : Reg) (dst : Reg) : Instr :=
  match sz with
  | .byte => .addxRegB src dst
  | .word => .addxRegW src dst
  | .long => .addxRegL src dst

/-- ADDX of a size, form `-(Ay),-(Ax)`. -/
def Instr.addxMem (sz : Size) (src : Reg) (dst : Reg) : Instr :=
  match sz with
  | .byte => .addxMemB src dst
  | .word => .addxMemW src dst
  | .long => .addxMemL src dst

/-- SUBX of a size, form `Dy,Dx`. -/
def Instr.subxReg (sz : Size) (src : Reg) (dst : Reg) : Instr :=
  match sz with
  | .byte => .subxRegB src dst
  | .word => .subxRegW src dst
  | .long => .subxRegL src dst

/-- SUBX of a size, form `-(Ay),-(Ax)`. -/
def Instr.subxMem (sz : Size) (src : Reg) (dst : Reg) : Instr :=
  match sz with
  | .byte => .subxMemB src dst
  | .word => .subxMemW src dst
  | .long => .subxMemL src dst

/-- CMPM of a size, form `(Ay)+,(Ax)+`. -/
def Instr.cmpm (sz : Size) (src : Reg) (dst : Reg) : Instr :=
  match sz with
  | .byte => .cmpmB src dst
  | .word => .cmpmW src dst
  | .long => .cmpmL src dst

/-- EXT: EXT.L when `long`, else EXT.W. -/
def Instr.ext (long : Bool) (dst : Reg) : Instr :=
  if long then .extL dst else .extW dst

/-- NEG of a size. -/
def Instr.neg (sz : Size) (dst : Ea) : Instr :=
  match sz with
  | .byte => .negB dst
  | .word => .negW dst
  | .long => .negL dst

/-- NEGX of a size. -/
def Instr.negx (sz : Size) (dst : Ea) : Instr :=
  match sz with
  | .byte => .negxB dst
  | .word => .negxW dst
  | .long => .negxL dst

/-- CLR of a size. -/
def Instr.clr (sz : Size) (dst : Ea) : Instr :=
  match sz with
  | .byte => .clrB dst
  | .word => .clrW dst
  | .long => .clrL dst

/-- TST of a size. -/
def Instr.tst (sz : Size) (dst : Ea) : Instr :=
  match sz with
  | .byte => .tstB dst
  | .word => .tstW dst
  | .long => .tstL dst

/-! ## Fields of an instruction word (rule R82: bit 15 is the first byte's top bit) -/

/-- The three-bit register number whose lowest bit is bit `lo` of the word. -/
def regField (w : Word) (lo : Nat) : Reg := (w.extractLsb' lo 3).toFin

/-- The addressing mode that bits 5..3 (`mmm`) and 2..0 (`nnn`) select (rule R85); none for
`111 101`, `111 110` and `111 111`. -/
def decodeMode (mmm : BitVec 3) (nnn : Reg) : Option Mode :=
  match mmm.toNat with
  | 0 => some .dn
  | 1 => some .an
  | 2 => some .ind
  | 3 => some .postInc
  | 4 => some .preDec
  | 5 => some .disp
  | 6 => some .index
  | _ =>
    match nnn.val with
    | 0 => some .absShort
    | 1 => some .absLong
    | 2 => some .pcDisp
    | 3 => some .pcIndex
    | 4 => some .imm
    | _ => none

/-- The size field `ss`, bits 7..6; `11` is not a size (rule R83). -/
def decodeSize (w : Word) : Option Size :=
  match (w.extractLsb' 6 2).toNat with
  | 0 => some .byte
  | 1 => some .word
  | 2 => some .long
  | _ => none

/-- The quick data: the field `qqq`, with `000` standing for 8 (rule R87). -/
def decodeQuick (w : Word) : Nat :=
  match (w.extractLsb' 9 3).toNat with
  | 0 => 8
  | q => q

/-! ## Operation words -/

/-- What an operation word that is in scope selects: the operation size, whether an immediate of that size
follows, the mode and register of the `<ea>` field if there is one, and the instruction they build. -/
structure OpForm where
  size   : Size
  hasImm : Bool
  ea     : Option (Mode × Reg)
  build  : Long → Ea → Instr

/-- An operation word without an `<ea>` field. -/
def noEa (i : Instr) : Option OpForm :=
  some { size := .word, hasImm := false, ea := none, build := fun _ _ => i }

/-- An operation word whose bits 5..0 are an `<ea>` of the category; refused if its mode is not
allowed there (rule R96 point 9). -/
def onEa (w : Word) (cat : Category) (sz : Size) (build : Ea → Instr) : Option OpForm :=
  match decodeMode (w.extractLsb' 3 3) (regField w 0) with
  | some m =>
    if cat.allows sz m then
      some { size := sz, hasImm := false, ea := some (m, regField w 0), build := fun _ ea => build ea }
    else none
  | none => none

/-- An operation word of format IM: an immediate, then a data alterable `<ea>` (rule R96 point 4). -/
def immOnEa (w : Word) (sz : Size) (build : Long → Ea → Instr) : Option OpForm :=
  match onEa w .dataAlterable sz (fun ea => build 0 ea) with
  | some f => some { f with hasImm := true, build := build }
  | none => none

/-- Points 3, 4, 5, 7 and 8 of rule R96 for words whose bits 7..6 are a size. -/
def decodeSized (w : Word) (sz : Size) : Option OpForm :=
  let reg := regField w 9
  if w &&& 0xFF00#16 = 0x4000#16 then onEa w .dataAlterable sz (Instr.negx sz)
  else if w &&& 0xFF00#16 = 0x4200#16 then onEa w .dataAlterable sz (Instr.clr sz)
  else if w &&& 0xFF00#16 = 0x4400#16 then onEa w .dataAlterable sz (Instr.neg sz)
  else if w &&& 0xFF00#16 = 0x4A00#16 then onEa w .dataAlterable sz (Instr.tst sz)
  else if w &&& 0xFF00#16 = 0x0400#16 then immOnEa w sz (Instr.subi sz)
  else if w &&& 0xFF00#16 = 0x0600#16 then immOnEa w sz (Instr.addi sz)
  else if w &&& 0xFF00#16 = 0x0C00#16 then immOnEa w sz (Instr.cmpi sz)
  else if w &&& 0xF000#16 = 0x5000#16 then
    if w.getLsbD 8 then onEa w .alterable sz (Instr.subq sz (decodeQuick w))
    else onEa w .alterable sz (Instr.addq sz (decodeQuick w))
  else if w &&& 0xF000#16 = 0x9000#16 then
    if w.getLsbD 8 then
      if w.extractLsb' 4 2 = 0#2 then
        noEa ((if w.getLsbD 3 then Instr.subxMem else Instr.subxReg) sz (regField w 0) reg)
      else onEa w .alterableMemory sz (Instr.subDnEa sz reg)
    else onEa w .all sz (fun ea => Instr.subEaDn sz ea reg)
  else if w &&& 0xF000#16 = 0xD000#16 then
    if w.getLsbD 8 then
      if w.extractLsb' 4 2 = 0#2 then
        noEa ((if w.getLsbD 3 then Instr.addxMem else Instr.addxReg) sz (regField w 0) reg)
      else onEa w .alterableMemory sz (Instr.addDnEa sz reg)
    else onEa w .all sz (fun ea => Instr.addEaDn sz ea reg)
  else if w &&& 0xF000#16 = 0xB000#16 then
    if w.getLsbD 8 then
      if w.extractLsb' 3 3 = 1#3 then noEa (Instr.cmpm sz (regField w 0) reg) else none
    else onEa w .all sz (fun ea => Instr.cmp sz ea reg)
  else none

/-- Points 6, 7 and 8 of rule R96 for words whose bits 7..6 are `11`: bit 8 selects the signed or the Long
form. -/
def decodeUnsized (w : Word) : Option OpForm :=
  let reg := regField w 9
  let bit8 := w.getLsbD 8
  let sz : Size := if bit8 then .long else .word
  if w &&& 0xF000#16 = 0x8000#16 then
    onEa w .data .word (fun ea => if bit8 then .divs ea reg else .divu ea reg)
  else if w &&& 0xF000#16 = 0xC000#16 then
    onEa w .data .word (fun ea => if bit8 then .muls ea reg else .mulu ea reg)
  else if w &&& 0xF000#16 = 0x9000#16 then onEa w .all sz (fun ea => Instr.suba bit8 ea reg)
  else if w &&& 0xF000#16 = 0xD000#16 then onEa w .all sz (fun ea => Instr.adda bit8 ea reg)
  else if w &&& 0xF000#16 = 0xB000#16 then onEa w .all sz (fun ea => Instr.cmpa bit8 ea reg)
  else none

/-- Decode an operation word in the order of rule R96; `none` is `NotInScope` (rule R97). -/
def decodeOp (w : Word) : Option OpForm :=
  if w &&& 0xFFB8#16 = 0x4880#16 then noEa (Instr.ext (w.getLsbD 6) (regField w 0))
  else if w &&& 0xFFC0#16 = 0x4AC0#16 then onEa w .dataAlterable .byte .tas
  else
    match decodeSize w with
    | some sz => decodeSized w sz
    | none => decodeUnsized w

/-! ## Extension words -/

/-- Why words are not an instruction. -/
inductive DecodeError where
  /-- The operation word is none of the 24 instructions in an allowed form (rules R97, R98). -/
  | notInScope (w : Word)
  /-- An index word with bits 10..8 not zero (rule R91). -/
  | indexWordReserved (w : Word)
  /-- The list ends before the instruction does. -/
  | truncated
  deriving DecidableEq, Repr

/-- What the decoder answers: an instruction with the words after it, or why there is none. -/
inductive DecodeResult where
  | instr (i : Instr) (rest : List Word)
  | error (e : DecodeError)
  deriving DecidableEq, Repr

/-- How many extension words a mode has (rule R85). -/
def Mode.extCount (sz : Size) : Mode → Nat
  | .disp | .index | .absShort | .pcDisp | .pcIndex => 1
  | .absLong => 2
  | .imm => if sz = .long then 2 else 1
  | .dn | .an | .ind | .postInc | .preDec => 0

/-- How many words follow the operation word: a function of the operation word alone (rule R80). -/
def OpForm.extCount (f : OpForm) : Nat :=
  (if f.hasImm then Mode.imm.extCount f.size else 0) +
    match f.ea with
    | some (m, _) => m.extCount f.size
    | none => 0

/-- Assemble an immediate of a size from its words (rule R92): the upper byte of a Byte immediate's word is
ignored, a Long immediate's first word is the high one. -/
def takeImm : Size → List Word → Option (Long × List Word)
  | .byte, w :: rest => some ((w.setWidth 8).setWidth 32, rest)
  | .word, w :: rest => some (w.setWidth 32, rest)
  | .long, hi :: lo :: rest => some (hi ++ lo, rest)
  | _, _ => none

/-- The index register in an index word (rule R91). -/
def decodeIndex (w : Word) : Index :=
  { file := if w.getLsbD 15 then .address else .data
    reg := regField w 12
    size := if w.getLsbD 11 then .long else .word }

/-- The `<ea>` of a mode, a register and the extension words that follow (rules R51 to R61, R85, R91). -/
def takeEa (sz : Size) (m : Mode) (r : Reg) (ws : List Word) : Except DecodeError (Ea × List Word) :=
  match m, ws with
  | .dn, ws => .ok (.dn r, ws)
  | .an, ws => .ok (.an r, ws)
  | .ind, ws => .ok (.ind r, ws)
  | .postInc, ws => .ok (.postInc r, ws)
  | .preDec, ws => .ok (.preDec r, ws)
  | .disp, w :: ws => .ok (.disp w r, ws)
  | .index, w :: ws =>
    if w.extractLsb' 8 3 = 0#3 then .ok (.index (w.setWidth 8) r (decodeIndex w), ws)
    else .error (.indexWordReserved w)
  | .absShort, w :: ws => .ok (.absShort w, ws)
  | .absLong, hi :: lo :: ws => .ok (.absLong (hi ++ lo), ws)
  | .pcDisp, w :: ws => .ok (.pcDisp w, ws)
  | .pcIndex, w :: ws =>
    if w.extractLsb' 8 3 = 0#3 then .ok (.pcIndex (w.setWidth 8) (decodeIndex w), ws)
    else .error (.indexWordReserved w)
  | .imm, ws =>
    match takeImm sz ws with
    | some (v, rest) => .ok (.imm v, rest)
    | none => .error .truncated
  | _, _ => .error .truncated

/-- Read the words after the operation word in the order of rule R90 and build the instruction. -/
def OpForm.finish (f : OpForm) (ws : List Word) : DecodeResult :=
  match (if f.hasImm then takeImm f.size ws else some (0, ws)) with
  | none => .error .truncated
  | some (v, ws) =>
    match f.ea with
    | none => .instr (f.build v (.dn 0)) ws
    | some (m, r) =>
      match takeEa f.size m r ws with
      | .ok (ea, ws) => .instr (f.build v ea) ws
      | .error e => .error e

/-- The decoder on instruction words. -/
def decode : List Word → DecodeResult
  | [] => .error .truncated
  | w :: ws =>
    match decodeOp w with
    | some f => f.finish ws
    | none => .error (.notInScope w)

/-! ## Bytes and the opcode table's numbering -/

/-- Words from bytes, big-endian (spec/20_memory.md rule R41); an odd last byte is left over. -/
def wordsOfBytes : List Byte → List Word
  | hi :: lo :: rest => (hi ++ lo) :: wordsOfBytes rest
  | _ => []

/-- The bytes of words as memory holds them, lowest address first (rule R41). -/
def bytesOfWords : List Word → List Byte
  | [] => []
  | w :: ws => w.extractLsb' 8 8 :: w.extractLsb' 0 8 :: bytesOfWords ws

/-- The decoder on bytes as they lie in memory, lowest address first. -/
def decodeBytes (bs : List Byte) : DecodeResult := decode (wordsOfBytes bs)

/-- The five words, the longest instruction's length (rule R80), of an instruction given as one number in
the opcode table's numbering: bit 0 is the lowest bit of the first word.  Bits from `nbits` up are 0. -/
def tableWords (nbits w : Nat) : List Word :=
  let v := w % 2 ^ nbits
  [BitVec.ofNat 16 v, BitVec.ofNat 16 (v >>> 16), BitVec.ofNat 16 (v >>> 32),
    BitVec.ofNat 16 (v >>> 48), BitVec.ofNat 16 (v >>> 64)]

/-- The instruction the decoder reads from an instruction given in the opcode table's numbering. -/
def decodeTableWord (nbits w : Nat) : Option Instr :=
  match decodeBytes (bytesOfWords (tableWords nbits w)) with
  | .instr i _ => some i
  | .error _ => none

/-! ## The encoder -/

/-- A register number as a three-bit field. -/
def regBits (r : Reg) : BitVec 3 := BitVec.ofFin r

/-- The size field `ss` (rule R83). -/
def sizeCode : Size → BitVec 2
  | .byte => 0b00#2
  | .word => 0b01#2
  | .long => 0b10#2

/-- The field `mmmnnn` of an `<ea>` (rule R85). -/
def Ea.field : Ea → BitVec 6
  | .dn r => 0b000#3 ++ regBits r
  | .an r => 0b001#3 ++ regBits r
  | .ind r => 0b010#3 ++ regBits r
  | .postInc r => 0b011#3 ++ regBits r
  | .preDec r => 0b100#3 ++ regBits r
  | .disp _ r => 0b101#3 ++ regBits r
  | .index _ r _ => 0b110#3 ++ regBits r
  | .absShort _ => 0b111000#6
  | .absLong _ => 0b111001#6
  | .pcDisp _ => 0b111010#6
  | .pcIndex _ _ => 0b111011#6
  | .imm _ => 0b111100#6

/-- The words of an immediate of a size, first the high one (rule R92).  A Byte immediate's upper byte is
written as zero.  DESIGN CHOICE, assumption log entry 14. -/
def immWords (sz : Size) (v : Long) : List Word :=
  match sz with
  | .byte => [(v.setWidth 8).setWidth 16]
  | .word => [v.setWidth 16]
  | .long => [v.extractLsb' 16 16, v.extractLsb' 0 16]

/-- The index word of the two "with Index" modes (rule R91). -/
def indexWord (d8 : Byte) (ix : Index) : Word :=
  (match ix.file with
    | .data => 0#1
    | .address => 1#1) ++ regBits ix.reg ++
  (match ix.size with
    | .word => 0#1
    | .long => 1#1) ++ 0#3 ++ d8

/-- The extension words of an `<ea>` (rules R56 to R61, R85). -/
def Ea.extWords (sz : Size) : Ea → List Word
  | .dn _ | .an _ | .ind _ | .postInc _ | .preDec _ => []
  | .disp d16 _ => [d16]
  | .index d8 _ ix => [indexWord d8 ix]
  | .absShort w => [w]
  | .absLong addr => [addr.extractLsb' 16 16, addr.extractLsb' 0 16]
  | .pcDisp d16 => [d16]
  | .pcIndex d8 ix => [indexWord d8 ix]
  | .imm v => immWords sz v

/-- Format RM, `llll rrr ooo mmm nnn` (rules R82, R84). -/
def opRM (line : BitVec 4) (r : Reg) (ooo : BitVec 3) (ea : Ea) : Word := line ++ regBits r ++ ooo ++ ea.field

/-- Formats IM and UN: eight fixed bits, `ss`, `mmmnnn` (rules R82, R86). -/
def opUN (fixed : BitVec 8) (ss : BitVec 2) (ea : Ea) : Word := fixed ++ ss ++ ea.field

/-- Format QK, `0101 qqq d ss mmm nnn`; 8 is coded as `000` (rules R82, R87). -/
def opQK (q : Nat) (d : BitVec 1) (ss : BitVec 2) (ea : Ea) : Word :=
  0b0101#4 ++ BitVec.ofNat 3 q ++ d ++ ss ++ ea.field

/-- Formats XR and CM, `llll xxx 1 ss ttt yyy`: `xxx` the destination, `yyy` the source (rules R82, R88). -/
def opXR (line : BitVec 4) (x : Reg) (ss : BitVec 2) (ttt : BitVec 3) (y : Reg) : Word :=
  line ++ regBits x ++ 1#1 ++ ss ++ ttt ++ regBits y

/-- The words of an instruction: the operation word with the constants of rule R86, then the words of rule
R90. -/
def encode : Instr → List Word
  | .addEaDnB src dst => opRM 0xD#4 dst (0#1 ++ sizeCode .byte) src :: src.extWords .byte
  | .addEaDnW src dst => opRM 0xD#4 dst (0#1 ++ sizeCode .word) src :: src.extWords .word
  | .addEaDnL src dst => opRM 0xD#4 dst (0#1 ++ sizeCode .long) src :: src.extWords .long
  | .addDnEaB src dst => opRM 0xD#4 src (1#1 ++ sizeCode .byte) dst :: dst.extWords .byte
  | .addDnEaW src dst => opRM 0xD#4 src (1#1 ++ sizeCode .word) dst :: dst.extWords .word
  | .addDnEaL src dst => opRM 0xD#4 src (1#1 ++ sizeCode .long) dst :: dst.extWords .long
  | .subEaDnB src dst => opRM 0x9#4 dst (0#1 ++ sizeCode .byte) src :: src.extWords .byte
  | .subEaDnW src dst => opRM 0x9#4 dst (0#1 ++ sizeCode .word) src :: src.extWords .word
  | .subEaDnL src dst => opRM 0x9#4 dst (0#1 ++ sizeCode .long) src :: src.extWords .long
  | .subDnEaB src dst => opRM 0x9#4 src (1#1 ++ sizeCode .byte) dst :: dst.extWords .byte
  | .subDnEaW src dst => opRM 0x9#4 src (1#1 ++ sizeCode .word) dst :: dst.extWords .word
  | .subDnEaL src dst => opRM 0x9#4 src (1#1 ++ sizeCode .long) dst :: dst.extWords .long
  | .addaW src dst => opRM 0xD#4 dst 0b011#3 src :: src.extWords .word
  | .addaL src dst => opRM 0xD#4 dst 0b111#3 src :: src.extWords .long
  | .subaW src dst => opRM 0x9#4 dst 0b011#3 src :: src.extWords .word
  | .subaL src dst => opRM 0x9#4 dst 0b111#3 src :: src.extWords .long
  | .cmpaW src dst => opRM 0xB#4 dst 0b011#3 src :: src.extWords .word
  | .cmpaL src dst => opRM 0xB#4 dst 0b111#3 src :: src.extWords .long
  | .cmpB src dst => opRM 0xB#4 dst (0#1 ++ sizeCode .byte) src :: src.extWords .byte
  | .cmpW src dst => opRM 0xB#4 dst (0#1 ++ sizeCode .word) src :: src.extWords .word
  | .cmpL src dst => opRM 0xB#4 dst (0#1 ++ sizeCode .long) src :: src.extWords .long
  | .addiB imm dst => opUN 0x06#8 (sizeCode .byte) dst :: immWords .byte (imm.setWidth 32) ++ dst.extWords .byte
  | .addiW imm dst => opUN 0x06#8 (sizeCode .word) dst :: immWords .word (imm.setWidth 32) ++ dst.extWords .word
  | .addiL imm dst => opUN 0x06#8 (sizeCode .long) dst :: immWords .long imm ++ dst.extWords .long
  | .subiB imm dst => opUN 0x04#8 (sizeCode .byte) dst :: immWords .byte (imm.setWidth 32) ++ dst.extWords .byte
  | .subiW imm dst => opUN 0x04#8 (sizeCode .word) dst :: immWords .word (imm.setWidth 32) ++ dst.extWords .word
  | .subiL imm dst => opUN 0x04#8 (sizeCode .long) dst :: immWords .long imm ++ dst.extWords .long
  | .cmpiB imm dst => opUN 0x0C#8 (sizeCode .byte) dst :: immWords .byte (imm.setWidth 32) ++ dst.extWords .byte
  | .cmpiW imm dst => opUN 0x0C#8 (sizeCode .word) dst :: immWords .word (imm.setWidth 32) ++ dst.extWords .word
  | .cmpiL imm dst => opUN 0x0C#8 (sizeCode .long) dst :: immWords .long imm ++ dst.extWords .long
  | .addqB q dst => opQK q 0#1 (sizeCode .byte) dst :: dst.extWords .byte
  | .addqW q dst => opQK q 0#1 (sizeCode .word) dst :: dst.extWords .word
  | .addqL q dst => opQK q 0#1 (sizeCode .long) dst :: dst.extWords .long
  | .subqB q dst => opQK q 1#1 (sizeCode .byte) dst :: dst.extWords .byte
  | .subqW q dst => opQK q 1#1 (sizeCode .word) dst :: dst.extWords .word
  | .subqL q dst => opQK q 1#1 (sizeCode .long) dst :: dst.extWords .long
  | .addxRegB src dst => [opXR 0xD#4 dst (sizeCode .byte) 0b000#3 src]
  | .addxRegW src dst => [opXR 0xD#4 dst (sizeCode .word) 0b000#3 src]
  | .addxRegL src dst => [opXR 0xD#4 dst (sizeCode .long) 0b000#3 src]
  | .addxMemB src dst => [opXR 0xD#4 dst (sizeCode .byte) 0b001#3 src]
  | .addxMemW src dst => [opXR 0xD#4 dst (sizeCode .word) 0b001#3 src]
  | .addxMemL src dst => [opXR 0xD#4 dst (sizeCode .long) 0b001#3 src]
  | .subxRegB src dst => [opXR 0x9#4 dst (sizeCode .byte) 0b000#3 src]
  | .subxRegW src dst => [opXR 0x9#4 dst (sizeCode .word) 0b000#3 src]
  | .subxRegL src dst => [opXR 0x9#4 dst (sizeCode .long) 0b000#3 src]
  | .subxMemB src dst => [opXR 0x9#4 dst (sizeCode .byte) 0b001#3 src]
  | .subxMemW src dst => [opXR 0x9#4 dst (sizeCode .word) 0b001#3 src]
  | .subxMemL src dst => [opXR 0x9#4 dst (sizeCode .long) 0b001#3 src]
  | .cmpmB src dst => [opXR 0xB#4 dst (sizeCode .byte) 0b001#3 src]
  | .cmpmW src dst => [opXR 0xB#4 dst (sizeCode .word) 0b001#3 src]
  | .cmpmL src dst => [opXR 0xB#4 dst (sizeCode .long) 0b001#3 src]
  | .divs src dst => opRM 0x8#4 dst 0b111#3 src :: src.extWords .word
  | .divu src dst => opRM 0x8#4 dst 0b011#3 src :: src.extWords .word
  | .muls src dst => opRM 0xC#4 dst 0b111#3 src :: src.extWords .word
  | .mulu src dst => opRM 0xC#4 dst 0b011#3 src :: src.extWords .word
  | .extW dst => [0b0100100010000#13 ++ regBits dst]
  | .extL dst => [0b0100100011000#13 ++ regBits dst]
  | .negB dst => opUN 0x44#8 (sizeCode .byte) dst :: dst.extWords .byte
  | .negW dst => opUN 0x44#8 (sizeCode .word) dst :: dst.extWords .word
  | .negL dst => opUN 0x44#8 (sizeCode .long) dst :: dst.extWords .long
  | .negxB dst => opUN 0x40#8 (sizeCode .byte) dst :: dst.extWords .byte
  | .negxW dst => opUN 0x40#8 (sizeCode .word) dst :: dst.extWords .word
  | .negxL dst => opUN 0x40#8 (sizeCode .long) dst :: dst.extWords .long
  | .clrB dst => opUN 0x42#8 (sizeCode .byte) dst :: dst.extWords .byte
  | .clrW dst => opUN 0x42#8 (sizeCode .word) dst :: dst.extWords .word
  | .clrL dst => opUN 0x42#8 (sizeCode .long) dst :: dst.extWords .long
  | .tstB dst => opUN 0x4A#8 (sizeCode .byte) dst :: dst.extWords .byte
  | .tstW dst => opUN 0x4A#8 (sizeCode .word) dst :: dst.extWords .word
  | .tstL dst => opUN 0x4A#8 (sizeCode .long) dst :: dst.extWords .long
  | .tas dst => opUN 0x4A#8 0b11#2 dst :: dst.extWords .byte

/-- The bytes of an instruction as memory holds them. -/
def encodeBytes (i : Instr) : List Byte := bytesOfWords (encode i)

/-! ## Lengths -/

/-- `ext` of rule R81: the bytes a mode adds to an instruction. -/
def Ea.extBytes (sz : Size) : Ea → Nat
  | .dn _ | .an _ | .ind _ | .postInc _ | .preDec _ => 0
  | .disp _ _ | .index _ _ _ | .absShort _ | .pcDisp _ | .pcIndex _ _ => 2
  | .absLong _ => 4
  | .imm _ => if sz = .long then 4 else 2

/-- `imm_bytes` of rule R81 for ADDI, SUBI and CMPI. -/
def immBytes (sz : Size) : Nat := if sz = .long then 4 else 2

/-- `len`, the "no. of program bytes" of an instruction (rules R81, R271). -/
def Instr.length (i : Instr) : Nat :=
  2 + (if i.info.hasImm then immBytes i.info.size else 0) +
    match i.info.ea with
    | some (_, ea) => ea.extBytes i.info.size
    | none => 0

end Sys2Proof
end

