-- ==== Sys2Proof/Machine/State.lean ====
section
/-!
DEFINITION. The machine's state as plain data (spec/10_state.md), the launch parameters of a run
(spec/70_reset_and_hazards.md rules R260, R263), the ways a run stops (spec/60_exceptions.md rule R232),
and the state after reset.
-/

namespace Sys2Proof.Machine

/-- The five one-bit flags, AF's "Status Flags" (rule R27); five independent booleans (decision D5). -/
structure Flags where
  n : Bool
  z : Bool
  v : Bool
  c : Bool
  x : Bool
  deriving DecidableEq, Repr

/-- Memory: the bytes that differ from `Memory.unlisted`, by address (rules R31, R40). -/
abbrev Memory := List Host.Cell

/-- What an address that memory does not list reads as.  DESIGN CHOICE (unsafe), assumption log entry 4:
rule R33 gives memory no value at launch. -/
def Memory.unlisted : Byte := 0

/-- Every address of the list is above `lo`, below 2^32 and lower than the next, and no byte listed is the
unlisted one. -/
def Memory.wfFrom (lo : Nat) : Memory → Bool
  | [] => true
  | (a, b) :: rest => lo ≤ a && a < 2 ^ 32 && b != Memory.unlisted && Memory.wfFrom (a + 1) rest

/-- The canonical form of memory: addresses strictly rising and inside the 32-bit space (rule R40), no
entry equal to what an unlisted address reads as. -/
def Memory.wf (m : Memory) : Bool := Memory.wfFrom 0 m

/-- A range of byte addresses, `base` up to `base + size - 1`. -/
structure Region where
  base : Nat
  size : Nat
  deriving DecidableEq, Repr

/-- The open parameters of a run (rule R4); no step changes them. -/
structure Layout where
  /-- `MemMap`, the byte addresses that exist (rule R45). -/
  memMap    : List Region
  /-- `ProgramText` is [`textBase`, `textEnd`) (rule R263). -/
  textBase  : Nat
  textEnd   : Nat
  /-- `EntryAddr`, the pc of the launch state (rules R260, R263). -/
  entryAddr : Nat
  /-- `EndAddr`, where a run has ended (rule R263). -/
  endAddr   : Nat
  deriving DecidableEq, Repr

/-- The machine's state: everything spec/10_state.md gives it, the parameters of the run, and `draws`. -/
structure State where
  /-- D0 to D7 (rule R20). -/
  d      : Vector Long 8
  /-- A0 to A7 (rule R22). -/
  a      : Vector Long 8
  /-- The program counter: during a step, the address of the operation word (rule R25). -/
  pc     : Long
  /-- N, Z, V, C, X (rule R27). -/
  flags  : Flags
  /-- Memory, program and data alike (rule R31). -/
  mem    : Memory
  /-- MemMap, ProgramText, EntryAddr, EndAddr (rules R45, R263). -/
  layout : Layout
  /-- The MODEL's own field: how many free values the run has used (assumption log entry 8). -/
  draws  : Nat
  deriving DecidableEq, Repr

/-- What an access was for (the `Fault` rows of spec/95_test_vectors.md print it). -/
inductive AccessKind where
  | fetch
  | read
  | write
  deriving DecidableEq, Repr

/-- The stops at which the machine itself ends a run.  Each carries the terminal state that
spec/60_exceptions.md gives (rules R230, R233, R234): register side effects made earlier in the step stay,
nothing else is changed. -/
inductive Fault where
  /-- `Trap(ZeroDivide)` (rules R230, R231): raised by DIVS and DIVU whose 16-bit source is zero.  Trap
  entry is terminal in the spec.  Safe: the model stops where the processor would go to a handler. -/
  | zeroDivide (s : State)
  /-- `Fault(AddressError)` (rule R233): raised by a Word or Long operand access and by instruction fetch
  at an odd address; the width is in bytes.  Safe: terminal in the spec. -/
  | addressError (kind : AccessKind) (width : Nat) (addr : Long) (s : State)
  /-- `Fault(AccessFault)` (rule R234): raised by an access with a byte outside MemMap, at `addr`.  Safe:
  terminal in the spec. -/
  | accessFault (addr : Long) (s : State)
  /-- Not an error: the normal end of a run, raised by `step` before any fetch when `pc = EndAddr` (rule
  R263); the state is the program's result.  Safe: no step is defined there. -/
  | endOfRun (s : State)
  deriving DecidableEq, Repr

/-- The stops at which the spec gives the situation no meaning (rule R235), with the terminal state. -/
inductive Refusal where
  /-- An instruction that has no meaning in this model: raised by `exec` only.  Safe. -/
  | notModelled (mnemonic : String)
  /-- `Refuse(NotInScope)` (rules R97, R98): raised by instruction fetch for an operation word that is none
  of the 24 instructions in an allowed form.  Safe. -/
  | notInScope (w : Word) (s : State)
  /-- `Refuse(IndexWordReserved)` (rule R91): raised by instruction fetch for an index word whose bits 10..8
  are not zero.  Safe. -/
  | indexWordReserved (w : Word) (s : State)
  /-- `Refuse(OverlapUnspecified)` (rule R64): raised by ADDA, SUBA and CMPA whose source is `(An)+` or
  `-(An)` on the destination register itself.  Safe. -/
  | overlapUnspecified (s : State)
  /-- `Refuse(FetchOutsideProgram)` (rule R69): raised by instruction fetch of a word outside ProgramText.
  Safe. -/
  | fetchOutsideProgram (addr : Long) (s : State)
  /-- `Refuse(WriteToProgramText)` (rule R70): raised by a store any byte of which lies in ProgramText.
  Safe. -/
  | writeToProgramText (addr : Long) (s : State)
  /-- A result for an address register or an immediate operand, which rule R50 says is never asked of
  `write_loc`: raised only for a term of Instr that is not well formed and that no word decodes to.
  Safe. -/
  | operandNotAllowed (s : State)
  deriving DecidableEq, Repr

/-- The launch parameters of `State.reset`: every address exists (entry 5), and the least ProgramText that
rule R263 admits at the address where the vectors of spec/95_test_vectors.md start, with EndAddr at
EntryAddr because no program is loaded (entry 3).  DESIGN CHOICE. -/
def Layout.reset : Layout :=
  { memMap := [{ base := 0, size := 2 ^ 32 }]
    textBase := 0x1000
    textEnd := 0x1002
    entryAddr := 0x1000
    endAddr := 0x1000 }

/-- The machine right after reset.  The spec leaves every value to the launch (rules R33, R260); the values
here are DESIGN CHOICES: registers (entry 1), flags (entry 2), pc and program (entry 3), memory
(entry 4), MemMap (entry 5), `draws` (entry 8). -/
def State.reset : State :=
  { d := Vector.replicate 8 0
    a := Vector.replicate 8 0
    pc := BitVec.ofNat 32 Layout.reset.entryAddr
    flags := { n := false, z := false, v := false, c := false, x := false }
    mem := []
    layout := Layout.reset
    draws := 0 }

end Sys2Proof.Machine
end

