-- ==== Sys2Proof/Machine/Ops.lean ====
section
/-!
DEFINITION. The named operations over registers, memory and outcomes that every instruction is built from
(spec/00_scope.md rules R8, R12; spec/20_memory.md rules R42, R43, R45, R70; spec/60_exceptions.md rules
R230, R233, R234), the zero-divide trap among them.
-/

namespace Sys2Proof.Machine

/-- What a part of a step answers: a value, or the stop that ends the step (rule R14). -/
abbrev Result (α : Type) := Host.Outcome α Fault Refusal

/-- Go on with what the first part answered; its stop is the step's stop (rules R63, R236: the first event
met is the outcome, nothing later happens). -/
def andThen {α β : Type} (m : Result α) (k : α → Result β) : Result β :=
  match m with
  | .next x => k x
  | .fault f => .fault f
  | .refused r => .refused r

/-! ## Registers -/

/-- `D[i]` (rule R8). -/
def State.dreg (s : State) (r : Reg) : Long := s.d[r]

/-- `A[i]` (rule R8). -/
def State.areg (s : State) (r : Reg) : Long := s.a[r]

/-- `D[i] <- v`, all 32 bits. -/
def State.setDreg (s : State) (r : Reg) (v : Long) : State := { s with d := s.d.set r v }

/-- `A[i] <- v`: an address register is always written whole (rules R12, R23). -/
def State.setAreg (s : State) (r : Reg) (v : Long) : State := { s with a := s.a.set r v }

/-- The flags. -/
def State.setFlags (s : State) (f : Flags) : State := { s with flags := f }

/-- `pc <- (pc + len) mod 2^32` (rule R26). -/
def State.advance (s : State) (len : Nat) : State := { s with pc := s.pc + BitVec.ofNat 32 len }

/-- Bits n-1..0 of a register (rules R12, R21). -/
def lowPart (sz : Size) (v : Long) : BitVec sz.bits := v.setWidth sz.bits

/-- A register whose low n bits are replaced and whose other bits are kept (rule R12). -/
def mergeLow (sz : Size) (old : Long) (v : BitVec sz.bits) : Long :=
  ((old >>> sz.bits) <<< sz.bits) ||| v.setWidth 32

/-- `D[i][n-1:0] <- v` (rules R8, R12). -/
def State.setDlow (s : State) (sz : Size) (r : Reg) (v : BitVec sz.bits) : State :=
  s.setDreg r (mergeLow sz (s.dreg r) v)

/-- `sext_32` (rule R8). -/
def signExtend32 {n : Nat} (v : BitVec n) : Long := v.signExtend 32

/-! ## Memory bytes -/

/-- The byte an address holds. -/
def Memory.read : Memory → Nat → Byte
  | [], _ => Memory.unlisted
  | (k, b) :: rest, a => if k = a then b else Memory.read rest a

/-- Memory without an entry for an address. -/
def Memory.erase : Memory → Nat → Memory
  | [], _ => []
  | (k, b) :: rest, a => if k = a then Memory.erase rest a else (k, b) :: Memory.erase rest a

/-- Memory with an entry put before the first higher address. -/
def Memory.insert : Memory → Nat → Byte → Memory
  | [], a, b => [(a, b)]
  | (k, c) :: rest, a, b => if a < k then (a, b) :: (k, c) :: rest else (k, c) :: Memory.insert rest a b

/-- Store a byte, keeping the canonical form: the unlisted byte is stored by listing nothing. -/
def Memory.write (m : Memory) (a : Nat) (b : Byte) : Memory :=
  if b = Memory.unlisted then Memory.erase m a else Memory.insert (Memory.erase m a) a b

/-- `Mem[addr]` (rule R42). -/
def State.byteAt (s : State) (addr : Long) : Byte := Memory.read s.mem addr.toNat

/-- The number that `k` bytes from `addr` up hold, big-endian; addresses are modulo 2^32 (rules R40 to R42). -/
def readBE (m : Memory) (addr : Long) : Nat → Nat
  | 0 => 0
  | k + 1 => (Memory.read m addr.toNat).toNat * 256 ^ k + readBE m (addr + 1) k

/-- Store the low `k` bytes of a number from `addr` up, big-endian (rules R40 to R42). -/
def writeBE (m : Memory) (addr : Long) (v : Nat) : Nat → Memory
  | 0 => m
  | k + 1 => writeBE (Memory.write m addr.toNat (BitVec.ofNat 8 (v / 256 ^ k))) (addr + 1) v k

/-- Does every one of the `k` byte addresses from `addr` up satisfy `p`? -/
def allBytes (p : Long → Bool) (addr : Long) : Nat → Bool
  | 0 => true
  | k + 1 => p addr && allBytes p (addr + 1) k

/-- Does one of the `k` byte addresses from `addr` up satisfy `p`? -/
def anyByte (p : Long → Bool) (addr : Long) : Nat → Bool
  | 0 => false
  | k + 1 => p addr || anyByte p (addr + 1) k

/-- Is the byte address in `MemMap` (rule R45)? -/
def Layout.admits (l : Layout) (addr : Long) : Bool :=
  l.memMap.any fun r => r.base ≤ addr.toNat && addr.toNat < r.base + r.size

/-- Is the byte address in `ProgramText` (rule R263)? -/
def Layout.inText (l : Layout) (addr : Long) : Bool :=
  l.textBase ≤ addr.toNat && addr.toNat < l.textEnd

/-- A Byte is aligned anywhere, a Word or Long at even addresses (rule R43). -/
def aligned (sz : Size) (addr : Long) : Bool := sz == .byte || addr.toNat % 2 == 0

/-! ## Accesses -/

/-- The n-bit value that memory holds at an address (rule R42). -/
def State.valueAt (s : State) (sz : Size) (addr : Long) : BitVec sz.bits :=
  BitVec.ofNat sz.bits (readBE s.mem addr sz.bytes)

/-- Memory with an n-bit value stored at an address (rule R42). -/
def State.withValue (s : State) (sz : Size) (addr : Long) (v : BitVec sz.bits) : State :=
  { s with mem := writeBE s.mem addr v.toNat sz.bytes }

/-- Alignment, then `MemMap`, the checks every operand access makes first (rules R42, R236). -/
def checkAccess (kind : AccessKind) (sz : Size) (addr : Long) (s : State) : Result Unit :=
  if aligned sz addr then
    if allBytes s.layout.admits addr sz.bytes then .next () else .fault (.accessFault addr s)
  else .fault (.addressError kind sz.bytes addr s)

/-- `MemRead(addr, n/8)` with its checks (rule R42). -/
def memRead (sz : Size) (addr : Long) (s : State) : Result (BitVec sz.bits) :=
  andThen (checkAccess .read sz addr s) fun _ => .next (s.valueAt sz addr)

/-- `MemWrite(addr, n/8, v)` with its checks, the program-text ban last (rules R42, R70). -/
def memWrite (sz : Size) (addr : Long) (v : BitVec sz.bits) (s : State) : Result State :=
  andThen (checkAccess .write sz addr s) fun _ =>
    if anyByte s.layout.inText addr sz.bytes then .refused (.writeToProgramText addr s)
    else .next (s.withValue sz addr v)

/-! ## The trap -/

/-- The terminal state of `Trap(ZeroDivide)` (rule R230): N, Z, V and C hold free values, X and everything
else is as it was when the divisor had been read. -/
def trapState (s : State) : State :=
  let f := Config.trapNZVC s.draws
  { s with
    flags := { n := f.1, z := f.2.1, v := f.2.2.1, c := f.2.2.2, x := s.flags.x }
    draws := s.draws + 1 }

/-- `raise Trap(ZeroDivide)`: trap entry is terminal (rules R230, R231).  The spec has no return from a
trap (rule R239). -/
def raiseZeroDivide {α : Type} (s : State) : Result α := .fault (.zeroDivide (trapState s))

end Sys2Proof.Machine
end

