-- ==== Sys2Proof/Machine/Flags.lean ====
section
/-!
DEFINITION. The arithmetic primitives ADDN, SUBN and NZ (spec/00_scope.md rules R9 to R11) and the ways an
instruction sets the five flags (spec/10_state.md rule R28).
-/

namespace Sys2Proof.Machine

/-- What ADDN and SUBN return: the n-bit result, the carry or borrow, and the overflow. -/
structure Alu (n : Nat) where
  value    : BitVec n
  carry    : Bool
  overflow : Bool
  deriving DecidableEq, Repr

/-- Is a mathematical integer outside the signed n-bit range (rules R9, R10)? -/
def outsideSigned (n : Nat) (i : Int) : Bool := i < -(2 ^ (n - 1) : Int) || (2 ^ (n - 1) : Int) ≤ i

/-- `ADDN(n, d, s, xin)` (rule R9). -/
def addN {n : Nat} (d s : BitVec n) (xin : Bool) : Alu n :=
  { value := BitVec.ofNat n (d.toNat + s.toNat + xin.toNat)
    carry := 2 ^ n ≤ d.toNat + s.toNat + xin.toNat
    overflow := outsideSigned n (d.toInt + s.toInt + (xin.toNat : Int)) }

/-- `SUBN(n, d, s, xin)`, `d - s - xin` (rule R10). -/
def subN {n : Nat} (d s : BitVec n) (xin : Bool) : Alu n :=
  { value := BitVec.ofInt n ((d.toNat : Int) - (s.toNat : Int) - (xin.toNat : Int))
    carry := d.toNat < s.toNat + xin.toNat
    overflow := outsideSigned n (d.toInt - s.toInt - (xin.toNat : Int)) }

/-- `Nout` of rule R11: the top bit. -/
def flagN {n : Nat} (r : BitVec n) : Bool := r.msb

/-- `Zout` of rule R11: all bits zero. -/
def flagZ {n : Nat} (r : BitVec n) : Bool := r == 0#n

/-- ADD, ADDI, ADDQ, SUB, SUBI, SUBQ, NEG: N, Z, V and C computed, X the same as C (rule R28). -/
def Flags.arith {n : Nat} (_f : Flags) (out : Alu n) : Flags :=
  { n := flagN out.value, z := flagZ out.value, v := out.overflow, c := out.carry, x := out.carry }

/-- ADDX, SUBX, NEGX: as `arith`, but Z is only cleared by a non-zero result, never set (rule R28). -/
def Flags.extended {n : Nat} (f : Flags) (out : Alu n) : Flags :=
  { n := flagN out.value, z := if flagZ out.value then f.z else false
    v := out.overflow, c := out.carry, x := out.carry }

/-- CMP, CMPA, CMPI, CMPM: N, Z, V and C computed, X not affected (rule R28). -/
def Flags.compare {n : Nat} (f : Flags) (out : Alu n) : Flags :=
  { n := flagN out.value, z := flagZ out.value, v := out.overflow, c := out.carry, x := f.x }

/-- EXT, MULS, MULU, TST, TAS: N and Z of a value, V and C cleared, X not affected (rule R28). -/
def Flags.test {n : Nat} (f : Flags) (r : BitVec n) : Flags :=
  { n := flagN r, z := flagZ r, v := false, c := false, x := f.x }

/-- CLR: N, V and C cleared, Z set, X not affected (rule R28). -/
def Flags.clear (f : Flags) : Flags := { n := false, z := true, v := false, c := false, x := f.x }

end Sys2Proof.Machine
end

