-- ==== Sys2Proof/Machine/Operands.lean ====
section
/-!
DEFINITION. Operand access (spec/20_memory.md rules R50 to R62): the twelve addressing modes resolved to
locations, and locations read and written.
-/

namespace Sys2Proof.Machine

/-- Where an operand is (rule R50). -/
inductive Loc where
  | dreg (r : Reg)
  | areg (r : Reg)
  | mem (addr : Long)
  | imm (v : Long)
  deriving DecidableEq, Repr

/-- How far `(An)+` and `-(An)` step the register: the operand's bytes, but 2 for a Byte through A7
(rules R53, R55). -/
def stepSize (sz : Size) (r : Reg) : Nat := if sz = .byte ∧ r = 7 then 2 else sz.bytes

/-- The index `idx` of the "with Index" modes (rule R57). -/
def indexValue (ix : Index) (s : State) : Long :=
  let v := match ix.file with
    | .data => s.dreg ix.reg
    | .address => s.areg ix.reg
  match ix.size with
  | .word => signExtend32 (v.setWidth 16)
  | .long => v

/-- `pcx`, the base of the PC-relative modes: the address of the extension word, which is the word after the
operation word in every instruction that allows these modes (rule R60). -/
def pcBase (s : State) : Long := s.pc + 2

/-- `resolve_ea(ea, n)`: the location, and the state after the mode's register side effect, which is made
once and before any access (rules R50 to R61). -/
def resolveEa (sz : Size) (ea : Ea) (s : State) : Loc × State :=
  match ea with
  | .dn r => (.dreg r, s)
  | .an r => (.areg r, s)
  | .ind r => (.mem (s.areg r), s)
  | .postInc r => (.mem (s.areg r), s.setAreg r (s.areg r + BitVec.ofNat 32 (stepSize sz r)))
  | .preDec r =>
    let addr := s.areg r - BitVec.ofNat 32 (stepSize sz r)
    (.mem addr, s.setAreg r addr)
  | .disp d16 r => (.mem (s.areg r + signExtend32 d16), s)
  | .index d8 r ix => (.mem (s.areg r + indexValue ix s + signExtend32 d8), s)
  | .absShort w => (.mem (signExtend32 w), s)
  | .absLong addr => (.mem addr, s)
  | .pcDisp d16 => (.mem (pcBase s + signExtend32 d16), s)
  | .pcIndex d8 ix => (.mem (pcBase s + indexValue ix s + signExtend32 d8), s)
  | .imm v => (.imm v, s)

/-- `read_loc(loc, n)` (rule R50). -/
def readLoc (sz : Size) (loc : Loc) (s : State) : Result (BitVec sz.bits) :=
  match loc with
  | .dreg r => .next (lowPart sz (s.dreg r))
  | .areg r => .next (lowPart sz (s.areg r))
  | .mem addr => memRead sz addr s
  | .imm v => .next (lowPart sz v)

/-- `write_loc(loc, n, v)` (rule R50), never asked for an address register or an immediate. -/
def writeLoc (sz : Size) (loc : Loc) (v : BitVec sz.bits) (s : State) : Result State :=
  match loc with
  | .dreg r => .next (s.setDlow sz r v)
  | .areg _ => .refused (.operandNotAllowed s)
  | .mem addr => memWrite sz addr v s
  | .imm _ => .refused (.operandNotAllowed s)

/-- `read_ea(ea, n)` with the state after its side effect (rule R50). -/
def readEa (sz : Size) (ea : Ea) (s : State) : Result (BitVec sz.bits × State) :=
  let p := resolveEa sz ea s
  andThen (readLoc sz p.1 p.2) fun v => .next (v, p.2)

end Sys2Proof.Machine
end

