-- ==== Sys2Proof/Machine/Shapes.lean ====
section
/-!
DEFINITION. The shapes that instructions of several families share, each the pseudocode of their rules
with the arithmetic and the flag rule as arguments; the order of events is spec/20_memory.md rule R63.
-/

namespace Sys2Proof.Machine

/-- `OP <ea>,Dn`: read the source, compute from Dn and it, write the low part of Dn, set the flags, advance
(rules R120, R195). -/
def sourceToDn (sz : Size) (op : BitVec sz.bits → BitVec sz.bits → Alu sz.bits) (src : Ea) (dst : Reg)
    (s : State) : Result State :=
  andThen (readEa sz src s) fun (v, s1) =>
    let out := op (lowPart sz (s1.dreg dst)) v
    .next (((s1.setDlow sz dst out.value).setFlags (s1.flags.arith out)).advance (2 + src.extBytes sz))

/-- Read, modify and write one `<ea>`, resolved once (rule R62): the memory and Dn destinations of ADD, ADDI,
ADDQ, SUB, SUBI, SUBQ, NEG and NEGX.  `op` is applied to the destination's old value. -/
def modifyEa (sz : Size) (op : BitVec sz.bits → Alu sz.bits) (flags : Flags → Alu sz.bits → Flags)
    (dst : Ea) (len : Nat) (s : State) : Result State :=
  let p := resolveEa sz dst s
  andThen (readLoc sz p.1 p.2) fun d =>
    let out := op d
    andThen (writeLoc sz p.1 out.value p.2) fun s2 =>
      .next ((s2.setFlags (flags s2.flags out)).advance len)

/-- ADDQ and SUBQ on an address register: the whole register, no flag (rules R23, R126, R201). -/
def quickToAn (op : Long → Long → Long) (q : Nat) (dst : Reg) (s : State) : Result State :=
  .next ((s.setAreg dst (op (s.areg dst) (BitVec.ofNat 32 q))).advance 2)

/-- ADDQ and SUBQ: an address register destination by `quickToAn`, any other by `modifyEa` (rules R126,
R201). -/
def quick (sz : Size) (onAn : Long → Long → Long) (op : BitVec sz.bits → BitVec sz.bits → Alu sz.bits)
    (q : Nat) (dst : Ea) (s : State) : Result State :=
  match dst with
  | .an r => quickToAn onAn q r s
  | _ => modifyEa sz (fun d => op d (BitVec.ofNat sz.bits q)) Flags.arith dst (2 + dst.extBytes sz) s

/-- Is the source `(Ar)+` or `-(Ar)` on the destination register itself (rule R64)? -/
def overlaps (src : Ea) (dst : Reg) : Bool :=
  match src with
  | .postInc r => r == dst
  | .preDec r => r == dst
  | _ => false

/-- The 32-bit source of ADDA, SUBA and CMPA, a Word sign-extended, with the state after the source's side
effect; the overlap of rule R64 is refused before anything happens (rules R23, R122, R147, R197). -/
def addressSource (sz : Size) (src : Ea) (dst : Reg) (s : State) : Result (Long × State) :=
  if overlaps src dst then .refused (.overlapUnspecified s)
  else andThen (readEa sz src s) fun (v, s1) => .next (signExtend32 v, s1)

/-- ADDA and SUBA: all of An, no flag (rules R122, R197). -/
def sourceToAn (sz : Size) (op : Long → Long → Long) (src : Ea) (dst : Reg) (s : State) : Result State :=
  andThen (addressSource sz src dst s) fun (v, s1) =>
    .next ((s1.setAreg dst (op (s1.areg dst) v)).advance (2 + src.extBytes sz))

/-- `-(Ay),-(Ax)` and `(Ay)+,(Ax)+`: the source is resolved and read first, then the destination (rules R63,
R129, R151, R204).  Answers both values, the destination's location and the state after both side effects. -/
def readPair (sz : Size) (src dst : Ea) (s : State) :
    Result (BitVec sz.bits × BitVec sz.bits × Loc × State) :=
  andThen (readEa sz src s) fun (v, s1) =>
    let p := resolveEa sz dst s1
    andThen (readLoc sz p.1 p.2) fun d => .next (v, d, p.1, p.2)

/-- ADDX and SUBX, form `Dy,Dx` (rules R128, R203). -/
def extendedDn (sz : Size) (op : BitVec sz.bits → BitVec sz.bits → Bool → Alu sz.bits) (src dst : Reg)
    (s : State) : Result State :=
  let out := op (lowPart sz (s.dreg dst)) (lowPart sz (s.dreg src)) s.flags.x
  .next (((s.setDlow sz dst out.value).setFlags (s.flags.extended out)).advance 2)

/-- ADDX and SUBX, form `-(Ay),-(Ax)` (rules R129, R204). -/
def extendedMem (sz : Size) (op : BitVec sz.bits → BitVec sz.bits → Bool → Alu sz.bits) (src dst : Reg)
    (s : State) : Result State :=
  andThen (readPair sz (.preDec src) (.preDec dst) s) fun (v, d, loc, s1) =>
    let out := op d v s1.flags.x
    andThen (writeLoc sz loc out.value s1) fun s2 =>
      .next ((s2.setFlags (s2.flags.extended out)).advance 2)

/-- TST's shape: read one operand and set flags from it (rule R217). -/
def testEa (sz : Size) (dst : Ea) (s : State) : Result State :=
  andThen (readEa sz dst s) fun (v, s1) =>
    .next ((s1.setFlags (s1.flags.test v)).advance (2 + dst.extBytes sz))

/-- The end of an instruction that replaces all of Dn by a 32-bit result and sets flags from a value. -/
def finishDn {n : Nat} (dst : Reg) (result : Long) (tested : BitVec n) (len : Nat) (s : State) : State :=
  ((s.setDreg dst result).setFlags (s.flags.test tested)).advance len

end Sys2Proof.Machine
end

