-- ==== Sys2Proof/Machine/Add.lean ====
section
/-!
DEFINITION. The Add family: ADD, ADDA, ADDI, ADDQ, ADDX (spec/40_add.md rules R120 to R129).
-/

namespace Sys2Proof.Machine

/-- The operation of ADD, ADDI and ADDQ: addN with no carry in. -/
def addOp {n : Nat} (d v : BitVec n) : Alu n := addN d v false

/-- ADD `Dn,<ea>`: the source is Dr's low part, the destination memory (rule R121). -/
def addDnEa (sz : Size) (src : Reg) (dst : Ea) (s : State) : Result State :=
  modifyEa sz (fun d => addOp d (lowPart sz (s.dreg src))) Flags.arith dst (2 + dst.extBytes sz) s

/-- ADDI `#<data>,<ea>` (rule R124). -/
def addImm (sz : Size) (imm : BitVec sz.bits) (dst : Ea) (s : State) : Result State :=
  modifyEa sz (fun d => addOp d imm) Flags.arith dst (2 + immBytes sz + dst.extBytes sz) s

/-- ADD.B `<ea>,Dn` (rule R120). -/
def execAddEaDnB (src : Ea) (dst : Reg) (s : State) : Result State :=
  sourceToDn .byte addOp src dst s

/-- ADD.W `<ea>,Dn` (rule R120). -/
def execAddEaDnW (src : Ea) (dst : Reg) (s : State) : Result State :=
  sourceToDn .word addOp src dst s

/-- ADD.L `<ea>,Dn` (rule R120). -/
def execAddEaDnL (src : Ea) (dst : Reg) (s : State) : Result State :=
  sourceToDn .long addOp src dst s

/-- ADD.B `Dn,<ea>` (rule R121). -/
def execAddDnEaB (src : Reg) (dst : Ea) (s : State) : Result State :=
  addDnEa .byte src dst s

/-- ADD.W `Dn,<ea>` (rule R121). -/
def execAddDnEaW (src : Reg) (dst : Ea) (s : State) : Result State :=
  addDnEa .word src dst s

/-- ADD.L `Dn,<ea>` (rule R121). -/
def execAddDnEaL (src : Reg) (dst : Ea) (s : State) : Result State :=
  addDnEa .long src dst s

/-- ADDA.W `<ea>,An` (rule R122). -/
def execAddaW (src : Ea) (dst : Reg) (s : State) : Result State :=
  sourceToAn .word (fun a v => a + v) src dst s

/-- ADDA.L `<ea>,An` (rule R122). -/
def execAddaL (src : Ea) (dst : Reg) (s : State) : Result State :=
  sourceToAn .long (fun a v => a + v) src dst s

/-- ADDI.B `#<data>,<ea>` (rule R124). -/
def execAddiB (imm : Byte) (dst : Ea) (s : State) : Result State :=
  addImm .byte imm dst s

/-- ADDI.W `#<data>,<ea>` (rule R124). -/
def execAddiW (imm : Word) (dst : Ea) (s : State) : Result State :=
  addImm .word imm dst s

/-- ADDI.L `#<data>,<ea>` (rule R124). -/
def execAddiL (imm : Long) (dst : Ea) (s : State) : Result State :=
  addImm .long imm dst s

/-- ADDQ.B `#<data>,<ea>` (rule R126). -/
def execAddqB (q : Nat) (dst : Ea) (s : State) : Result State :=
  quick .byte (fun a q => a + q) addOp q dst s

/-- ADDQ.W `#<data>,<ea>` (rule R126). -/
def execAddqW (q : Nat) (dst : Ea) (s : State) : Result State :=
  quick .word (fun a q => a + q) addOp q dst s

/-- ADDQ.L `#<data>,<ea>` (rule R126). -/
def execAddqL (q : Nat) (dst : Ea) (s : State) : Result State :=
  quick .long (fun a q => a + q) addOp q dst s

/-- ADDX.B `Dy,Dx` (rule R128). -/
def execAddxRegB (src : Reg) (dst : Reg) (s : State) : Result State :=
  extendedDn .byte addN src dst s

/-- ADDX.W `Dy,Dx` (rule R128). -/
def execAddxRegW (src : Reg) (dst : Reg) (s : State) : Result State :=
  extendedDn .word addN src dst s

/-- ADDX.L `Dy,Dx` (rule R128). -/
def execAddxRegL (src : Reg) (dst : Reg) (s : State) : Result State :=
  extendedDn .long addN src dst s

/-- ADDX.B `-(Ay),-(Ax)` (rule R129). -/
def execAddxMemB (src : Reg) (dst : Reg) (s : State) : Result State :=
  extendedMem .byte addN src dst s

/-- ADDX.W `-(Ay),-(Ax)` (rule R129). -/
def execAddxMemW (src : Reg) (dst : Reg) (s : State) : Result State :=
  extendedMem .word addN src dst s

/-- ADDX.L `-(Ay),-(Ax)` (rule R129). -/
def execAddxMemL (src : Reg) (dst : Reg) (s : State) : Result State :=
  extendedMem .long addN src dst s

end Sys2Proof.Machine
end

