-- ==== Sys2Proof/Machine/Clear.lean ====
section
/-!
DEFINITION. The Clear family: CLR (spec/41_clear.md rule R140).
-/

namespace Sys2Proof.Machine

/-- CLR `<ea>`: the destination is written with zero and not read (rule R140, decision D32). -/
def clear (sz : Size) (dst : Ea) (s : State) : Result State :=
  let p := resolveEa sz dst s
  andThen (writeLoc sz p.1 0 p.2) fun s1 =>
    .next ((s1.setFlags s1.flags.clear).advance (2 + dst.extBytes sz))

/-- CLR.B `<ea>` (rule R140). -/
def execClrB (dst : Ea) (s : State) : Result State :=
  clear .byte dst s

/-- CLR.W `<ea>` (rule R140). -/
def execClrW (dst : Ea) (s : State) : Result State :=
  clear .word dst s

/-- CLR.L `<ea>` (rule R140). -/
def execClrL (dst : Ea) (s : State) : Result State :=
  clear .long dst s

end Sys2Proof.Machine
end

