-- ==== Sys2Proof/Machine/Compare.lean ====
section
/-!
DEFINITION. The Compare family: CMP, CMPA, CMPI, CMPM (spec/42_compare.md rules R145 to R151).  Every one computes
Destn - Source for the flags and stores nothing.
-/

namespace Sys2Proof.Machine

/-- CMP `<ea>,Dn` (rule R145). -/
def compareDn (sz : Size) (src : Ea) (dst : Reg) (s : State) : Result State :=
  andThen (readEa sz src s) fun (v, s1) =>
    let out := subN (lowPart sz (s1.dreg dst)) v false
    .next ((s1.setFlags (s1.flags.compare out)).advance (2 + src.extBytes sz))

/-- CMPA `<ea>,An`: always a 32-bit comparison (rule R147). -/
def compareAn (sz : Size) (src : Ea) (dst : Reg) (s : State) : Result State :=
  andThen (addressSource sz src dst s) fun (v, s1) =>
    let out := subN (s1.areg dst) v false
    .next ((s1.setFlags (s1.flags.compare out)).advance (2 + src.extBytes sz))

/-- CMPI `#<data>,<ea>` (rule R149). -/
def compareImm (sz : Size) (imm : BitVec sz.bits) (dst : Ea) (s : State) : Result State :=
  andThen (readEa sz dst s) fun (d, s1) =>
    let out := subN d imm false
    .next ((s1.setFlags (s1.flags.compare out)).advance (2 + immBytes sz + dst.extBytes sz))

/-- CMPM `(Ay)+,(Ax)+` (rule R151). -/
def compareMem (sz : Size) (src dst : Reg) (s : State) : Result State :=
  andThen (readPair sz (.postInc src) (.postInc dst) s) fun (v, d, _, s1) =>
    let out := subN d v false
    .next ((s1.setFlags (s1.flags.compare out)).advance 2)

/-- CMP.B `<ea>,Dn` (rule R145). -/
def execCmpB (src : Ea) (dst : Reg) (s : State) : Result State :=
  compareDn .byte src dst s

/-- CMP.W `<ea>,Dn` (rule R145). -/
def execCmpW (src : Ea) (dst : Reg) (s : State) : Result State :=
  compareDn .word src dst s

/-- CMP.L `<ea>,Dn` (rule R145). -/
def execCmpL (src : Ea) (dst : Reg) (s : State) : Result State :=
  compareDn .long src dst s

/-- CMPA.W `<ea>,An` (rule R147). -/
def execCmpaW (src : Ea) (dst : Reg) (s : State) : Result State :=
  compareAn .word src dst s

/-- CMPA.L `<ea>,An` (rule R147). -/
def execCmpaL (src : Ea) (dst : Reg) (s : State) : Result State :=
  compareAn .long src dst s

/-- CMPI.B `#<data>,<ea>` (rule R149). -/
def execCmpiB (imm : Byte) (dst : Ea) (s : State) : Result State :=
  compareImm .byte imm dst s

/-- CMPI.W `#<data>,<ea>` (rule R149). -/
def execCmpiW (imm : Word) (dst : Ea) (s : State) : Result State :=
  compareImm .word imm dst s

/-- CMPI.L `#<data>,<ea>` (rule R149). -/
def execCmpiL (imm : Long) (dst : Ea) (s : State) : Result State :=
  compareImm .long imm dst s

/-- CMPM.B `(Ay)+,(Ax)+` (rule R151). -/
def execCmpmB (src : Reg) (dst : Reg) (s : State) : Result State :=
  compareMem .byte src dst s

/-- CMPM.W `(Ay)+,(Ax)+` (rule R151). -/
def execCmpmW (src : Reg) (dst : Reg) (s : State) : Result State :=
  compareMem .word src dst s

/-- CMPM.L `(Ay)+,(Ax)+` (rule R151). -/
def execCmpmL (src : Reg) (dst : Reg) (s : State) : Result State :=
  compareMem .long src dst s

end Sys2Proof.Machine
end

