-- ==== Sys2Proof/Machine/Divide.lean ====
section
/-!
DEFINITION. The Divide family: DIVS, DIVU (spec/43_divide.md rules R160 to R163).
-/

namespace Sys2Proof.Machine

/-- An overflowing divide: V set, C cleared, X kept, N and Z the free values `DivOvfNZ`; the operands are
unaffected (rules R160, R161, R163). -/
def divideOverflow (signed : Bool) (dividend : Long) (divisor : Word) (s : State) : State :=
  let nz := Config.divOvfNZ s.draws signed dividend divisor
  { s with
    flags := { n := nz.1, z := nz.2, v := true, c := false, x := s.flags.x }
    draws := s.draws + 1 }

/-- The 32-bit result of a divide: remainder in bits 31..16, quotient in bits 15..0 (rules R160, R161). -/
def packDivide (rem quot : Word) : Long := rem ++ quot

/-- The signed quotient, rounded toward zero (rule R162). -/
def quotS (dividend : Long) (divisor : Word) : Int := dividend.toInt.tdiv divisor.toInt

/-- The signed remainder, `dividend = q * divisor + rem` (rule R162). -/
def remS (dividend : Long) (divisor : Word) : Int :=
  dividend.toInt - quotS dividend divisor * divisor.toInt

/-- The unsigned quotient (rule R161). -/
def quotU (dividend : Long) (divisor : Word) : Nat := dividend.toNat / divisor.toNat

/-- The unsigned remainder (rule R161). -/
def remU (dividend : Long) (divisor : Word) : Nat := dividend.toNat - quotU dividend divisor * divisor.toNat

/-- DIVS after its 16-bit source has been read and is not zero (rule R160). -/
def divideSigned (divisor : Word) (dst : Reg) (len : Nat) (s : State) : State :=
  let dividend := s.dreg dst
  if outsideSigned 16 (quotS dividend divisor) then
    (divideOverflow true dividend divisor s).advance len
  else
    let q := BitVec.ofInt 16 (quotS dividend divisor)
    finishDn dst (packDivide (BitVec.ofInt 16 (remS dividend divisor)) q) q len s

/-- DIVU after its 16-bit source has been read and is not zero (rule R161). -/
def divideUnsigned (divisor : Word) (dst : Reg) (len : Nat) (s : State) : State :=
  let dividend := s.dreg dst
  if 65535 < quotU dividend divisor then
    (divideOverflow false dividend divisor s).advance len
  else
    let q := BitVec.ofNat 16 (quotU dividend divisor)
    finishDn dst (packDivide (BitVec.ofNat 16 (remU dividend divisor)) q) q len s

/-- Read the 16-bit source; zero traps before anything is written (rule R230), else divide. -/
def divide (how : Word → Reg → Nat → State → State) (src : Ea) (dst : Reg) (s : State) : Result State :=
  andThen (readEa .word src s) fun (v, s1) =>
    if v = 0#16 then raiseZeroDivide s1 else .next (how v dst (2 + src.extBytes .word) s1)

/-- DIVS.W `<ea>,Dn` (rule R160). -/
def execDivs (src : Ea) (dst : Reg) (s : State) : Result State :=
  divide divideSigned src dst s

/-- DIVU.W `<ea>,Dn` (rule R161). -/
def execDivu (src : Ea) (dst : Reg) (s : State) : Result State :=
  divide divideUnsigned src dst s

end Sys2Proof.Machine
end

