-- ==== Sys2Proof/Machine/Extend.lean ====
section
/-!
DEFINITION. The Sign Extend family: EXT (spec/44_sign_extend.md rule R170).
-/

namespace Sys2Proof.Machine

/-- EXT.W: bit 7 is copied into bits 15..8; bits 31..16 are kept (rule R170). -/
def extendByte (dst : Reg) (s : State) : State :=
  let res : Word := (lowPart .byte (s.dreg dst)).signExtend 16
  ((s.setDlow .word dst res).setFlags (s.flags.test res)).advance 2

/-- EXT.L: bit 15 is copied into bits 31..16 (rule R170). -/
def extendWord (dst : Reg) (s : State) : State :=
  let res : Long := signExtend32 (lowPart .word (s.dreg dst))
  finishDn dst res res 2 s

/-- EXT.W `Dn` (rule R170). -/
def execExtW (dst : Reg) (s : State) : Result State :=
  .next (extendByte dst s)

/-- EXT.L `Dn` (rule R170). -/
def execExtL (dst : Reg) (s : State) : Result State :=
  .next (extendWord dst s)

end Sys2Proof.Machine
end

