-- ==== Sys2Proof/Machine/Multiply.lean ====
section
/-!
DEFINITION. The Multiply family: MULS, MULU (spec/45_multiply.md rules R175, R176).
-/

namespace Sys2Proof.Machine

/-- The signed 16 x 16 product as 32 bits (rule R175). -/
def productS (d v : Word) : Long := BitVec.ofInt 32 (d.toInt * v.toInt)

/-- The unsigned 16 x 16 product as 32 bits (rule R176). -/
def productU (d v : Word) : Long := BitVec.ofNat 32 (d.toNat * v.toNat)

/-- Read the 16-bit source, multiply by the low Word of Dn, write all of Dn (rules R175, R176). -/
def multiply (product : Word → Word → Long) (src : Ea) (dst : Reg) (s : State) : Result State :=
  andThen (readEa .word src s) fun (v, s1) =>
    let res := product (lowPart .word (s1.dreg dst)) v
    .next (finishDn dst res res (2 + src.extBytes .word) s1)

/-- MULS.W `<ea>,Dn` (rule R175). -/
def execMuls (src : Ea) (dst : Reg) (s : State) : Result State :=
  multiply productS src dst s

/-- MULU.W `<ea>,Dn` (rule R176). -/
def execMulu (src : Ea) (dst : Reg) (s : State) : Result State :=
  multiply productU src dst s

end Sys2Proof.Machine
end

