-- ==== Sys2Proof/Machine/Negate.lean ====
section
/-!
DEFINITION. The Negate family: NEG, NEGX (spec/46_negate.md rules R185, R186).
-/

namespace Sys2Proof.Machine

/-- NEG `<ea>`: `0 - d` (rule R185). -/
def negate (sz : Size) (dst : Ea) (s : State) : Result State :=
  modifyEa sz (fun d => subN 0 d false) Flags.arith dst (2 + dst.extBytes sz) s

/-- NEGX `<ea>`: `0 - d - X`, X the flag's value before the instruction (rule R186). -/
def negateX (sz : Size) (dst : Ea) (s : State) : Result State :=
  modifyEa sz (fun d => subN 0 d s.flags.x) Flags.extended dst (2 + dst.extBytes sz) s

/-- NEG.B `<ea>` (rule R185). -/
def execNegB (dst : Ea) (s : State) : Result State :=
  negate .byte dst s

/-- NEG.W `<ea>` (rule R185). -/
def execNegW (dst : Ea) (s : State) : Result State :=
  negate .word dst s

/-- NEG.L `<ea>` (rule R185). -/
def execNegL (dst : Ea) (s : State) : Result State :=
  negate .long dst s

/-- NEGX.B `<ea>` (rule R186). -/
def execNegxB (dst : Ea) (s : State) : Result State :=
  negateX .byte dst s

/-- NEGX.W `<ea>` (rule R186). -/
def execNegxW (dst : Ea) (s : State) : Result State :=
  negateX .word dst s

/-- NEGX.L `<ea>` (rule R186). -/
def execNegxL (dst : Ea) (s : State) : Result State :=
  negateX .long dst s

end Sys2Proof.Machine
end

