-- ==== Sys2Proof/Machine/Subtract.lean ====
section
/-!
DEFINITION. The Subtract family: SUB, SUBA, SUBI, SUBQ, SUBX (spec/47_subtract.md rules R195 to R204).
-/

namespace Sys2Proof.Machine

/-- The operation of SUB, SUBI and SUBQ: subN with no carry in. -/
def subOp {n : Nat} (d v : BitVec n) : Alu n := subN d v false

/-- SUB `Dn,<ea>`: the source is Dr's low part, the destination memory (rule R196). -/
def subDnEa (sz : Size) (src : Reg) (dst : Ea) (s : State) : Result State :=
  modifyEa sz (fun d => subOp d (lowPart sz (s.dreg src))) Flags.arith dst (2 + dst.extBytes sz) s

/-- SUBI `#<data>,<ea>` (rule R199). -/
def subImm (sz : Size) (imm : BitVec sz.bits) (dst : Ea) (s : State) : Result State :=
  modifyEa sz (fun d => subOp d imm) Flags.arith dst (2 + immBytes sz + dst.extBytes sz) s

/-- SUB.B `<ea>,Dn` (rule R195). -/
def execSubEaDnB (src : Ea) (dst : Reg) (s : State) : Result State :=
  sourceToDn .byte subOp src dst s

/-- SUB.W `<ea>,Dn` (rule R195). -/
def execSubEaDnW (src : Ea) (dst : Reg) (s : State) : Result State :=
  sourceToDn .word subOp src dst s

/-- SUB.L `<ea>,Dn` (rule R195). -/
def execSubEaDnL (src : Ea) (dst : Reg) (s : State) : Result State :=
  sourceToDn .long subOp src dst s

/-- SUB.B `Dn,<ea>` (rule R196). -/
def execSubDnEaB (src : Reg) (dst : Ea) (s : State) : Result State :=
  subDnEa .byte src dst s

/-- SUB.W `Dn,<ea>` (rule R196). -/
def execSubDnEaW (src : Reg) (dst : Ea) (s : State) : Result State :=
  subDnEa .word src dst s

/-- SUB.L `Dn,<ea>` (rule R196). -/
def execSubDnEaL (src : Reg) (dst : Ea) (s : State) : Result State :=
  subDnEa .long src dst s

/-- SUBA.W `<ea>,An` (rule R197). -/
def execSubaW (src : Ea) (dst : Reg) (s : State) : Result State :=
  sourceToAn .word (fun a v => a - v) src dst s

/-- SUBA.L `<ea>,An` (rule R197). -/
def execSubaL (src : Ea) (dst : Reg) (s : State) : Result State :=
  sourceToAn .long (fun a v => a - v) src dst s

/-- SUBI.B `#<data>,<ea>` (rule R199). -/
def execSubiB (imm : Byte) (dst : Ea) (s : State) : Result State :=
  subImm .byte imm dst s

/-- SUBI.W `#<data>,<ea>` (rule R199). -/
def execSubiW (imm : Word) (dst : Ea) (s : State) : Result State :=
  subImm .word imm dst s

/-- SUBI.L `#<data>,<ea>` (rule R199). -/
def execSubiL (imm : Long) (dst : Ea) (s : State) : Result State :=
  subImm .long imm dst s

/-- SUBQ.B `#<data>,<ea>` (rule R201). -/
def execSubqB (q : Nat) (dst : Ea) (s : State) : Result State :=
  quick .byte (fun a q => a - q) subOp q dst s

/-- SUBQ.W `#<data>,<ea>` (rule R201). -/
def execSubqW (q : Nat) (dst : Ea) (s : State) : Result State :=
  quick .word (fun a q => a - q) subOp q dst s

/-- SUBQ.L `#<data>,<ea>` (rule R201). -/
def execSubqL (q : Nat) (dst : Ea) (s : State) : Result State :=
  quick .long (fun a q => a - q) subOp q dst s

/-- SUBX.B `Dy,Dx` (rule R203). -/
def execSubxRegB (src : Reg) (dst : Reg) (s : State) : Result State :=
  extendedDn .byte subN src dst s

/-- SUBX.W `Dy,Dx` (rule R203). -/
def execSubxRegW (src : Reg) (dst : Reg) (s : State) : Result State :=
  extendedDn .word subN src dst s

/-- SUBX.L `Dy,Dx` (rule R203). -/
def execSubxRegL (src : Reg) (dst : Reg) (s : State) : Result State :=
  extendedDn .long subN src dst s

/-- SUBX.B `-(Ay),-(Ax)` (rule R204). -/
def execSubxMemB (src : Reg) (dst : Reg) (s : State) : Result State :=
  extendedMem .byte subN src dst s

/-- SUBX.W `-(Ay),-(Ax)` (rule R204). -/
def execSubxMemW (src : Reg) (dst : Reg) (s : State) : Result State :=
  extendedMem .word subN src dst s

/-- SUBX.L `-(Ay),-(Ax)` (rule R204). -/
def execSubxMemL (src : Reg) (dst : Reg) (s : State) : Result State :=
  extendedMem .long subN src dst s

end Sys2Proof.Machine
end

