-- ==== Sys2Proof/Machine/Test.lean ====
section
/-!
DEFINITION. The Testing family: TAS, TST (spec/48_test.md rules R216, R217).
-/

namespace Sys2Proof.Machine

/-- TAS `<ea>`: the flags describe the byte before bit 7 is set; the byte is always written back (rule R216).
The write comes before the flags (rule R63), so that a refused write leaves them as they were; the read
and the write are one step (rule R67). -/
def testAndSet (dst : Ea) (s : State) : Result State :=
  let p := resolveEa .byte dst s
  andThen (readLoc .byte p.1 p.2) fun d =>
    andThen (writeLoc .byte p.1 (d ||| 0x80#8) p.2) fun s2 =>
      .next ((s2.setFlags (s2.flags.test d)).advance (2 + dst.extBytes .byte))

/-- TST.B `<ea>` (rule R217). -/
def execTstB (dst : Ea) (s : State) : Result State :=
  testEa .byte dst s

/-- TST.W `<ea>` (rule R217). -/
def execTstW (dst : Ea) (s : State) : Result State :=
  testEa .word dst s

/-- TST.L `<ea>` (rule R217). -/
def execTstL (dst : Ea) (s : State) : Result State :=
  testEa .long dst s

/-- TAS.B `<ea>` (rule R216). -/
def execTas (dst : Ea) (s : State) : Result State :=
  testAndSet dst s

end Sys2Proof.Machine
end

