-- ==== Sys2Proof/Machine/Dispatch.lean ====
section
/-!
DEFINITION. The dispatch of every instruction to its meaning, in the order of spec/opcode_table.json.
-/

namespace Sys2Proof.Machine

def exec (i : Instr) (s : State) : Host.Outcome State Fault Refusal :=
  match i with
  | .addEaDnB src dst => Sys2Proof.Machine.execAddEaDnB src dst s
  | .addEaDnW src dst => Sys2Proof.Machine.execAddEaDnW src dst s
  | .addEaDnL src dst => Sys2Proof.Machine.execAddEaDnL src dst s
  | .addDnEaB src dst => Sys2Proof.Machine.execAddDnEaB src dst s
  | .addDnEaW src dst => Sys2Proof.Machine.execAddDnEaW src dst s
  | .addDnEaL src dst => Sys2Proof.Machine.execAddDnEaL src dst s
  | .subEaDnB src dst => Sys2Proof.Machine.execSubEaDnB src dst s
  | .subEaDnW src dst => Sys2Proof.Machine.execSubEaDnW src dst s
  | .subEaDnL src dst => Sys2Proof.Machine.execSubEaDnL src dst s
  | .subDnEaB src dst => Sys2Proof.Machine.execSubDnEaB src dst s
  | .subDnEaW src dst => Sys2Proof.Machine.execSubDnEaW src dst s
  | .subDnEaL src dst => Sys2Proof.Machine.execSubDnEaL src dst s
  | .addaW src dst => Sys2Proof.Machine.execAddaW src dst s
  | .addaL src dst => Sys2Proof.Machine.execAddaL src dst s
  | .subaW src dst => Sys2Proof.Machine.execSubaW src dst s
  | .subaL src dst => Sys2Proof.Machine.execSubaL src dst s
  | .cmpaW src dst => Sys2Proof.Machine.execCmpaW src dst s
  | .cmpaL src dst => Sys2Proof.Machine.execCmpaL src dst s
  | .cmpB src dst => Sys2Proof.Machine.execCmpB src dst s
  | .cmpW src dst => Sys2Proof.Machine.execCmpW src dst s
  | .cmpL src dst => Sys2Proof.Machine.execCmpL src dst s
  | .addiB imm dst => Sys2Proof.Machine.execAddiB imm dst s
  | .addiW imm dst => Sys2Proof.Machine.execAddiW imm dst s
  | .addiL imm dst => Sys2Proof.Machine.execAddiL imm dst s
  | .subiB imm dst => Sys2Proof.Machine.execSubiB imm dst s
  | .subiW imm dst => Sys2Proof.Machine.execSubiW imm dst s
  | .subiL imm dst => Sys2Proof.Machine.execSubiL imm dst s
  | .cmpiB imm dst => Sys2Proof.Machine.execCmpiB imm dst s
  | .cmpiW imm dst => Sys2Proof.Machine.execCmpiW imm dst s
  | .cmpiL imm dst => Sys2Proof.Machine.execCmpiL imm dst s
  | .addqB q dst => Sys2Proof.Machine.execAddqB q dst s
  | .addqW q dst => Sys2Proof.Machine.execAddqW q dst s
  | .addqL q dst => Sys2Proof.Machine.execAddqL q dst s
  | .subqB q dst => Sys2Proof.Machine.execSubqB q dst s
  | .subqW q dst => Sys2Proof.Machine.execSubqW q dst s
  | .subqL q dst => Sys2Proof.Machine.execSubqL q dst s
  | .addxRegB src dst => Sys2Proof.Machine.execAddxRegB src dst s
  | .addxRegW src dst => Sys2Proof.Machine.execAddxRegW src dst s
  | .addxRegL src dst => Sys2Proof.Machine.execAddxRegL src dst s
  | .addxMemB src dst => Sys2Proof.Machine.execAddxMemB src dst s
  | .addxMemW src dst => Sys2Proof.Machine.execAddxMemW src dst s
  | .addxMemL src dst => Sys2Proof.Machine.execAddxMemL src dst s
  | .subxRegB src dst => Sys2Proof.Machine.execSubxRegB src dst s
  | .subxRegW src dst => Sys2Proof.Machine.execSubxRegW src dst s
  | .subxRegL src dst => Sys2Proof.Machine.execSubxRegL src dst s
  | .subxMemB src dst => Sys2Proof.Machine.execSubxMemB src dst s
  | .subxMemW src dst => Sys2Proof.Machine.execSubxMemW src dst s
  | .subxMemL src dst => Sys2Proof.Machine.execSubxMemL src dst s
  | .cmpmB src dst => Sys2Proof.Machine.execCmpmB src dst s
  | .cmpmW src dst => Sys2Proof.Machine.execCmpmW src dst s
  | .cmpmL src dst => Sys2Proof.Machine.execCmpmL src dst s
  | .divs src dst => Sys2Proof.Machine.execDivs src dst s
  | .divu src dst => Sys2Proof.Machine.execDivu src dst s
  | .muls src dst => Sys2Proof.Machine.execMuls src dst s
  | .mulu src dst => Sys2Proof.Machine.execMulu src dst s
  | .extW dst => Sys2Proof.Machine.execExtW dst s
  | .extL dst => Sys2Proof.Machine.execExtL dst s
  | .negB dst => Sys2Proof.Machine.execNegB dst s
  | .negW dst => Sys2Proof.Machine.execNegW dst s
  | .negL dst => Sys2Proof.Machine.execNegL dst s
  | .negxB dst => Sys2Proof.Machine.execNegxB dst s
  | .negxW dst => Sys2Proof.Machine.execNegxW dst s
  | .negxL dst => Sys2Proof.Machine.execNegxL dst s
  | .clrB dst => Sys2Proof.Machine.execClrB dst s
  | .clrW dst => Sys2Proof.Machine.execClrW dst s
  | .clrL dst => Sys2Proof.Machine.execClrL dst s
  | .tstB dst => Sys2Proof.Machine.execTstB dst s
  | .tstW dst => Sys2Proof.Machine.execTstW dst s
  | .tstL dst => Sys2Proof.Machine.execTstL dst s
  | .tas dst => Sys2Proof.Machine.execTas dst s

end Sys2Proof.Machine
end

