-- ==== Sys2Proof/Machine/Fetch.lean ====
section
/-!
DEFINITION. Instruction fetch (spec/20_memory.md rules R44, R69; spec/30_encoding.md rules R80, R90, R97):
the operation word, then as many extension words as it says follow, then the decoder; and the memory that
holds a given instruction at the program counter.
-/

namespace Sys2Proof.Machine

/-- The address of the k-th word of the instruction at pc (rule R69). -/
def fetchAddr (s : State) (k : Nat) : Long := s.pc + BitVec.ofNat 32 (2 * k)

/-- Fetch the k-th word of the instruction: an even address (rule R44), inside ProgramText (rule R69), in
MemMap (rule R45; ProgramText lies inside it by rule R263). -/
def fetchWord (s : State) (k : Nat) : Result Word :=
  let addr := fetchAddr s k
  if addr.toNat % 2 = 0 then
    if allBytes s.layout.inText addr 2 then
      if allBytes s.layout.admits addr 2 then .next (s.valueAt .word addr)
      else .fault (.accessFault addr s)
    else .refused (.fetchOutsideProgram addr s)
  else .fault (.addressError .fetch 2 addr s)

/-- Fetch `count` words from the k-th on, in order. -/
def fetchWords (s : State) (k : Nat) : Nat → Result (List Word)
  | 0 => .next []
  | count + 1 =>
    andThen (fetchWord s k) fun w =>
      andThen (fetchWords s (k + 1) count) fun ws => .next (w :: ws)

/-- The decoder's errors as stops of the run (rules R91, R97).  `truncated` does not happen on fetched words,
which are as many as the operation word asks for. -/
def refuseDecode (e : DecodeError) (op : Word) (s : State) : Result Instr :=
  match e with
  | .notInScope w => .refused (.notInScope w s)
  | .indexWordReserved w => .refused (.indexWordReserved w s)
  | .truncated => .refused (.notInScope op s)

/-- Fetch and decode the instruction at pc.  The operation word is decoded before any extension word is
fetched (rules R63, R80). -/
def fetchInstr (s : State) : Result Instr :=
  andThen (fetchWord s 0) fun op =>
    match decodeOp op with
    | none => .refused (.notInScope op s)
    | some f =>
      andThen (fetchWords s 1 f.extCount) fun ws =>
        match decode (op :: ws) with
        | .instr i _ => .next i
        | .error e => refuseDecode e op s

/-- Memory with a list of bytes stored from an address up. -/
def placeBytes (m : Memory) (addr : Long) : List Byte → Memory
  | [] => m
  | b :: bs => placeBytes (Memory.write m addr.toNat b) (addr + 1) bs

/-- The state in which the launch environment has loaded a program of these bytes at pc (rules R260, R261,
R263): the bytes in memory, ProgramText exactly around them and inside MemMap, EntryAddr at pc and EndAddr
at the end of the bytes. -/
def loadProgram (s : State) (bs : List Byte) : State :=
  let base := s.pc.toNat
  { s with
    mem := placeBytes s.mem s.pc bs
    layout :=
      { memMap :=
          if allBytes s.layout.admits s.pc bs.length then s.layout.memMap
          else { base := base, size := bs.length } :: s.layout.memMap
        textBase := base
        textEnd := base + bs.length
        entryAddr := base
        endAddr := base + bs.length } }

end Sys2Proof.Machine
end

