-- ==== Sys2Proof/Machine/Step.lean ====
section
/-!
DEFINITION. One step of the machine (spec/00_scope.md rule R14, spec/70_reset_and_hazards.md rules R263,
R264), and the placing of an instruction where the next step fetches it.
-/

namespace Sys2Proof.Machine

/-- One step: at EndAddr the run has ended (rule R263); anywhere else fetch, decode and execute the
instruction at pc (rule R63), which advances pc itself (rule R26). -/
def step (s : State) : Host.Outcome State Fault Refusal :=
  if s.pc.toNat = s.layout.endAddr then .fault (.endOfRun s)
  else andThen (fetchInstr s) fun i => exec i s

/-- The state with an instruction, numbered as the opcode table numbers its bits, loaded where `step` fetches
next: the five words of the longest instruction as a program at pc (assumption log entry 10). -/
def State.withFetchWord (s : State) (nbits w : Nat) : State :=
  loadProgram s (bytesOfWords (tableWords nbits w))

end Sys2Proof.Machine
end

