-- ==== Sys2Proof/Machine/Assembly.lean ====
section
/-!
DEFINITION. The assembler level (spec/30_encoding.md rules R110 to R113): a mnemonic, an optional size suffix
and operands in the order source, destination, and the instruction they are emitted as.  Operands are
effective addresses already: the index size and the choice between Absolute Short and Long are written
out (rule R113).
-/

namespace Sys2Proof.Machine

/-- The 24 mnemonics (rule R2). -/
inductive Mnemonic where
  | add
  | adda
  | addi
  | addq
  | addx
  | clr
  | cmp
  | cmpa
  | cmpi
  | cmpm
  | divs
  | divu
  | ext
  | muls
  | mulu
  | neg
  | negx
  | tst
  | sub
  | suba
  | subi
  | subq
  | subx
  | tas
  deriving DecidableEq, Repr

/-- The mnemonic of an instruction: the column `mnemonic` of spec/opcode_table.json. -/
def mnemonicOf : Instr → Mnemonic
  | .addEaDnB _ _ | .addEaDnW _ _ | .addEaDnL _ _ | .addDnEaB _ _ | .addDnEaW _ _ | .addDnEaL _ _ => .add
  | .subEaDnB _ _ | .subEaDnW _ _ | .subEaDnL _ _ | .subDnEaB _ _ | .subDnEaW _ _ | .subDnEaL _ _ => .sub
  | .addaW _ _ | .addaL _ _ => .adda
  | .subaW _ _ | .subaL _ _ => .suba
  | .cmpaW _ _ | .cmpaL _ _ => .cmpa
  | .cmpB _ _ | .cmpW _ _ | .cmpL _ _ => .cmp
  | .addiB _ _ | .addiW _ _ | .addiL _ _ => .addi
  | .subiB _ _ | .subiW _ _ | .subiL _ _ => .subi
  | .cmpiB _ _ | .cmpiW _ _ | .cmpiL _ _ => .cmpi
  | .addqB _ _ | .addqW _ _ | .addqL _ _ => .addq
  | .subqB _ _ | .subqW _ _ | .subqL _ _ => .subq
  | .addxRegB _ _ | .addxRegW _ _ | .addxRegL _ _ | .addxMemB _ _ | .addxMemW _ _ |
    .addxMemL _ _ => .addx
  | .subxRegB _ _ | .subxRegW _ _ | .subxRegL _ _ | .subxMemB _ _ | .subxMemW _ _ |
    .subxMemL _ _ => .subx
  | .cmpmB _ _ | .cmpmW _ _ | .cmpmL _ _ => .cmpm
  | .divs _ _ => .divs
  | .divu _ _ => .divu
  | .muls _ _ => .muls
  | .mulu _ _ => .mulu
  | .extW _ | .extL _ => .ext
  | .negB _ | .negW _ | .negL _ => .neg
  | .negxB _ | .negxW _ | .negxL _ => .negx
  | .clrB _ | .clrW _ | .clrL _ => .clr
  | .tstB _ | .tstW _ | .tstL _ => .tst
  | .tas _ => .tas

/-- The size a missing suffix stands for: Word, but Byte for TAS (rule R112). -/
def Mnemonic.defaultSize : Mnemonic → Size
  | .tas => .byte
  | _ => .word

/-- The size letters a mnemonic accepts (rule R110). -/
def Mnemonic.sizes : Mnemonic → List Size
  | .adda | .cmpa | .suba | .ext => [.word, .long]
  | .divs | .divu | .muls | .mulu => [.word]
  | .tas => [.byte]
  | _ => [.byte, .word, .long]

/-- Address operations have no Byte size (rule R22; 90_conflicts.md C6). -/
def addressForm (sz : Size) (make : Bool → Instr) : Option Instr :=
  match sz with
  | .byte => none
  | .word => some (make false)
  | .long => some (make true)

/-- An instruction with an immediate source whose data fits the size (rule R92). -/
def immediateForm (sz : Size) (v : Long) (i : Instr) : Option Instr :=
  if v.toNat < 2 ^ sz.bits then some i else none

/-- What a written instruction is emitted as, before its operand forms are checked: the table of rule R111
for ADD, CMP and SUB, the syntax lines of rule R110 for the rest. -/
def emit (m : Mnemonic) (sz : Size) (operands : List Ea) : Option Instr :=
  match m, operands with
  | .add, [src, .dn r] => some (Instr.addEaDn sz src r)
  | .add, [src, .an r] => addressForm sz fun long => Instr.adda long src r
  | .add, [.imm v, dst] => immediateForm sz v (Instr.addi sz v dst)
  | .add, [.dn r, dst] => some (Instr.addDnEa sz r dst)
  | .sub, [src, .dn r] => some (Instr.subEaDn sz src r)
  | .sub, [src, .an r] => addressForm sz fun long => Instr.suba long src r
  | .sub, [.imm v, dst] => immediateForm sz v (Instr.subi sz v dst)
  | .sub, [.dn r, dst] => some (Instr.subDnEa sz r dst)
  | .cmp, [src, .dn r] => some (Instr.cmp sz src r)
  | .cmp, [src, .an r] => addressForm sz fun long => Instr.cmpa long src r
  | .cmp, [.imm v, dst] => immediateForm sz v (Instr.cmpi sz v dst)
  | .cmp, [.postInc y, .postInc x] => some (Instr.cmpm sz y x)
  | .adda, [src, .an r] => addressForm sz fun long => Instr.adda long src r
  | .suba, [src, .an r] => addressForm sz fun long => Instr.suba long src r
  | .cmpa, [src, .an r] => addressForm sz fun long => Instr.cmpa long src r
  | .addi, [.imm v, dst] => immediateForm sz v (Instr.addi sz v dst)
  | .subi, [.imm v, dst] => immediateForm sz v (Instr.subi sz v dst)
  | .cmpi, [.imm v, dst] => immediateForm sz v (Instr.cmpi sz v dst)
  | .addq, [.imm v, dst] => some (Instr.addq sz v.toNat dst)
  | .subq, [.imm v, dst] => some (Instr.subq sz v.toNat dst)
  | .addx, [.dn y, .dn x] => some (Instr.addxReg sz y x)
  | .addx, [.preDec y, .preDec x] => some (Instr.addxMem sz y x)
  | .subx, [.dn y, .dn x] => some (Instr.subxReg sz y x)
  | .subx, [.preDec y, .preDec x] => some (Instr.subxMem sz y x)
  | .cmpm, [.postInc y, .postInc x] => some (Instr.cmpm sz y x)
  | .divs, [src, .dn r] => some (.divs src r)
  | .divu, [src, .dn r] => some (.divu src r)
  | .muls, [src, .dn r] => some (.muls src r)
  | .mulu, [src, .dn r] => some (.mulu src r)
  | .ext, [.dn r] => addressForm sz fun long => Instr.ext long r
  | .neg, [dst] => some (Instr.neg sz dst)
  | .negx, [dst] => some (Instr.negx sz dst)
  | .clr, [dst] => some (Instr.clr sz dst)
  | .tst, [dst] => some (Instr.tst sz dst)
  | .tas, [dst] => some (.tas dst)
  | _, _ => none

/-- Assemble one written instruction: a suffix the mnemonic accepts or none (rules R110, R112), a form that
is emitted (rule R111), and operands the emitted instruction allows (rule R98). -/
def assemble (m : Mnemonic) (suffix : Option Size) (operands : List Ea) : Option Instr :=
  let sz := suffix.getD m.defaultSize
  if m.sizes.contains sz then
    match emit m sz operands with
    | some i => if i.wf then some i else none
    | none => none
  else none

end Sys2Proof.Machine
end

