-- ==== Sys2Proof/Machine/Timing.lean ====
section
/-!
DEFINITION. The clock-period figures `p` of AF's tables "Instruction Size and Cycles to Execute" (spec rules
R131, R142, R154, R165, R172, R178, R188, R206, R219) as a cost annotation on instructions.  No rule of
the model depends on them and State holds no clock (spec/70_reset_and_hazards.md rule R270).
-/

namespace Sys2Proof.Machine

/-- A `p` cell: an exact figure, or an upper bound such as `<158` (rule R270). -/
inductive Periods where
  | exact (n : Nat)
  | below (n : Nat)
  deriving DecidableEq, Repr

/-- What a Byte or Word operand of a mode adds, read off the tables' columns against their Dn row. -/
def eaWord (ea : Ea) : Nat :=
  match ea.mode with
  | .dn | .an => 0
  | .ind | .postInc | .imm => 4
  | .preDec => 6
  | .disp | .absShort | .pcDisp => 8
  | .index | .pcIndex => 10
  | .absLong => 12

/-- What an operand of a mode and size adds: a Long operand elsewhere than in a register costs 4 more. -/
def eaPeriods (sz : Size) (ea : Ea) : Nat :=
  match sz, ea.mode with
  | .long, .dn => 0
  | .long, .an => 0
  | .long, _ => eaWord ea + 4
  | _, _ => eaWord ea

/-- The figure of the Byte and Word columns, or that of the Long column. -/
def bySize (sz : Size) (short long : Nat) : Nat := if sz = .long then long else short

/-- The figure of the Dn (and An) row, or that of a memory row. -/
def onDn (ea : Ea) (reg mem : Nat) : Nat :=
  match ea.mode with
  | .dn | .an => reg
  | _ => mem

/-- ADD and SUB `<ea>,Dn`, and the Long column of ADDA and SUBA (rules R131, R206). -/
def toRegister (sz : Size) (src : Ea) : Periods :=
  .exact (bySize sz (4 + eaWord src) (onDn src 8 (6 + eaPeriods .long src)))

/-- ADD and SUB `Dn,<ea>` (rules R131, R206). -/
def modifyMem (sz : Size) (dst : Ea) : Periods := .exact (bySize sz 8 12 + eaPeriods sz dst)

/-- ADDI and SUBI (rules R131, R206). -/
def immediateTo (sz : Size) (dst : Ea) : Periods :=
  .exact (onDn dst (bySize sz 8 16) (bySize sz 12 20 + eaPeriods sz dst))

/-- ADDQ and SUBQ (rules R131, R206). -/
def quickTo (sz : Size) (dst : Ea) : Periods :=
  .exact (onDn dst (bySize sz 4 8) (bySize sz 8 12 + eaPeriods sz dst))

/-- The Dn row of CMP (rule R154). -/
def comparedDn (sz : Size) : Nat := bySize sz 4 6

/-- CMPI (rule R154). -/
def compareImmediate (sz : Size) (dst : Ea) : Periods :=
  .exact (onDn dst (bySize sz 8 14) (bySize sz 8 12 + eaPeriods sz dst))

/-- CLR, NEG and NEGX (rules R142, R188). -/
def unary (sz : Size) (dst : Ea) : Periods :=
  .exact (onDn dst (bySize sz 4 6) (bySize sz 8 12 + eaPeriods sz dst))

/-- TST: the Word and Long columns of rule R219 are the same. -/
def testPeriods (sz : Size) (dst : Ea) : Periods :=
  .exact (if sz = .byte then 4 + eaWord dst else onDn dst 4 (8 + eaWord dst))

/-- The `p` cell of an instruction. -/
def clockPeriods : Instr → Periods
  | .addEaDnB src _ => toRegister .byte src
  | .addEaDnW src _ => toRegister .word src
  | .addEaDnL src _ => toRegister .long src
  | .addDnEaB _ dst => modifyMem .byte dst
  | .addDnEaW _ dst => modifyMem .word dst
  | .addDnEaL _ dst => modifyMem .long dst
  | .subEaDnB src _ => toRegister .byte src
  | .subEaDnW src _ => toRegister .word src
  | .subEaDnL src _ => toRegister .long src
  | .subDnEaB _ dst => modifyMem .byte dst
  | .subDnEaW _ dst => modifyMem .word dst
  | .subDnEaL _ dst => modifyMem .long dst
  | .addaW src _ => .exact (8 + eaWord src)
  | .addaL src _ => toRegister .long src
  | .subaW src _ => .exact (8 + eaWord src)
  | .subaL src _ => toRegister .long src
  | .cmpaW src _ => .exact (6 + eaPeriods .word src)
  | .cmpaL src _ => .exact (6 + eaPeriods .long src)
  | .cmpB src _ => .exact (comparedDn .byte + eaPeriods .byte src)
  | .cmpW src _ => .exact (comparedDn .word + eaPeriods .word src)
  | .cmpL src _ => .exact (comparedDn .long + eaPeriods .long src)
  | .addiB _ dst => immediateTo .byte dst
  | .addiW _ dst => immediateTo .word dst
  | .addiL _ dst => immediateTo .long dst
  | .subiB _ dst => immediateTo .byte dst
  | .subiW _ dst => immediateTo .word dst
  | .subiL _ dst => immediateTo .long dst
  | .cmpiB _ dst => compareImmediate .byte dst
  | .cmpiW _ dst => compareImmediate .word dst
  | .cmpiL _ dst => compareImmediate .long dst
  | .addqB _ dst => quickTo .byte dst
  | .addqW _ dst => quickTo .word dst
  | .addqL _ dst => quickTo .long dst
  | .subqB _ dst => quickTo .byte dst
  | .subqW _ dst => quickTo .word dst
  | .subqL _ dst => quickTo .long dst
  | .addxRegB _ _ => .exact (bySize .byte 4 8)
  | .addxRegW _ _ => .exact (bySize .word 4 8)
  | .addxRegL _ _ => .exact (bySize .long 4 8)
  | .addxMemB _ _ => .exact (bySize .byte 18 30)
  | .addxMemW _ _ => .exact (bySize .word 18 30)
  | .addxMemL _ _ => .exact (bySize .long 18 30)
  | .subxRegB _ _ => .exact (bySize .byte 4 8)
  | .subxRegW _ _ => .exact (bySize .word 4 8)
  | .subxRegL _ _ => .exact (bySize .long 4 8)
  | .subxMemB _ _ => .exact (bySize .byte 18 30)
  | .subxMemW _ _ => .exact (bySize .word 18 30)
  | .subxMemL _ _ => .exact (bySize .long 18 30)
  | .cmpmB _ _ => .exact (bySize .byte 12 20)
  | .cmpmW _ _ => .exact (bySize .word 12 20)
  | .cmpmL _ _ => .exact (bySize .long 12 20)
  | .divs src _ => .below (158 + eaWord src)
  | .divu src _ => .below (140 + eaWord src)
  | .muls src _ => .below (70 + eaWord src)
  | .mulu src _ => .below (70 + eaWord src)
  | .extW _ => .exact 4
  | .extL _ => .exact 4
  | .negB dst => unary .byte dst
  | .negW dst => unary .word dst
  | .negL dst => unary .long dst
  | .negxB dst => unary .byte dst
  | .negxW dst => unary .word dst
  | .negxL dst => unary .long dst
  | .clrB dst => unary .byte dst
  | .clrW dst => unary .word dst
  | .clrL dst => unary .long dst
  | .tstB dst => testPeriods .byte dst
  | .tstW dst => testPeriods .word dst
  | .tstL dst => testPeriods .long dst
  | .tas dst => .exact (onDn dst 4 (10 + eaWord dst))

end Sys2Proof.Machine
end

