-- ==== Sys2Proof/Safety.lean ====
section
/-!
DEFINITION. What counts as a legal launch, a legal state and a safe run (spec/70_reset_and_hazards.md rules
R260, R263, R264), and the terms in which claims say what an instruction reads, writes and leaves alone.
-/

namespace Sys2Proof.Machine

/-! ## Launch, invariant, runs -/

/-- The constraints of rule R263 on the parameters of a run. -/
structure Layout.Ok (l : Layout) : Prop where
  base_even  : l.textBase % 2 = 0
  end_even   : l.textEnd % 2 = 0
  nonempty   : l.textBase < l.textEnd
  end_le     : l.textEnd ≤ 2 ^ 32 - 2
  entry_even : l.entryAddr % 2 = 0
  stop_even  : l.endAddr % 2 = 0
  base_entry : l.textBase ≤ l.entryAddr
  entry_stop : l.entryAddr ≤ l.endAddr
  stop_end   : l.endAddr ≤ l.textEnd
  mapped     : ∀ addr : Long, l.inText addr = true → l.admits addr = true

/-- The states a run can be in: legal parameters, memory in canonical form, pc even and between EntryAddr and
TextEnd (rules R25, R44, R263, R264). -/
structure State.Inv (s : State) : Prop where
  layout   : s.layout.Ok
  mem      : s.mem.wf = true
  pc_even  : s.pc.toNat % 2 = 0
  entry_le : s.layout.entryAddr ≤ s.pc.toNat
  le_end   : s.pc.toNat ≤ s.layout.textEnd

/-- A launch state (rule R260): every register, flag and memory byte is free, pc is EntryAddr and lies inside
ProgramText, so that a launch at TextEnd is none although rule R263 admits the address as EntryAddr. -/
structure State.IsLaunch (s : State) : Prop where
  layout  : s.layout.Ok
  mem     : s.mem.wf = true
  entry   : s.pc.toNat = s.layout.entryAddr
  in_text : s.layout.inText s.pc = true

/-- `t` comes after `s` in a run, each step ending in `Next` (rule R264). -/
inductive Reaches : State → State → Prop where
  | refl (s : State) : Reaches s s
  | tail {s t u : State} : Reaches s t → step t = .next u → Reaches s u

/-- The run from `s` ends normally in `t` (rules R263, R264). -/
def EndsNormally (s t : State) : Prop := Reaches s t ∧ t.pc.toNat = t.layout.endAddr

/-- A safe run: it meets no trap, fault or refusal before its normal end (rule R264). -/
def SafeRun (s : State) : Prop :=
  ∀ t, Reaches s t → (∃ u, step t = .next u) ∨ step t = .fault (.endOfRun t)

/-! ## Stops and their terminal states -/

/-- The terminal state a fault carries. -/
def Fault.state : Fault → State
  | .zeroDivide s => s
  | .addressError _ _ _ s => s
  | .accessFault _ s => s
  | .endOfRun s => s

/-- The terminal state a refusal carries; the refusal of an instruction without a meaning has none. -/
def Refusal.state : Refusal → Option State
  | .notInScope _ s => some s
  | .indexWordReserved _ s => some s
  | .overlapUnspecified s => some s
  | .fetchOutsideProgram _ s => some s
  | .writeToProgramText _ s => some s
  | .operandNotAllowed s => some s
  | _ => none

/-- How an access to a location of a size stops, if it does: misaligned, else outside MemMap (rules R43, R45,
R236). -/
def accessStop (kind : AccessKind) (sz : Size) (loc : Loc) (s : State) : Option Fault :=
  match loc with
  | .mem addr =>
    if aligned sz addr = false then some (.addressError kind sz.bytes addr s)
    else if allBytes s.layout.admits addr sz.bytes = false then some (.accessFault addr s)
    else none
  | _ => none

/-- How a store to a location that passed `accessStop` is refused, if it is (rule R70). -/
def textStop (sz : Size) (loc : Loc) (s : State) : Option Refusal :=
  match loc with
  | .mem addr =>
    if anyByte s.layout.inText addr sz.bytes = true then some (.writeToProgramText addr s) else none
  | _ => none

/-! ## Reading and leaving alone -/

/-- The n-bit value a location holds. -/
def locValue (sz : Size) (loc : Loc) (s : State) : BitVec sz.bits :=
  match loc with
  | .dreg r => lowPart sz (s.dreg r)
  | .areg r => lowPart sz (s.areg r)
  | .mem addr => s.valueAt sz addr
  | .imm v => lowPart sz v

/-- The address register `q` after the side effect of an addressing mode (rules R53 to R55): `(An)+` adds the
step, `-(An)` subtracts it, every other register and every other mode changes nothing. -/
def eaAreg (sz : Size) (ea : Ea) (s : State) (q : Reg) : Long :=
  match ea with
  | .postInc r => if q = r then s.areg q + BitVec.ofNat 32 (stepSize sz r) else s.areg q
  | .preDec r => if q = r then s.areg q - BitVec.ofNat 32 (stepSize sz r) else s.areg q
  | _ => s.areg q

/-- Every data register is as before. -/
def SameD (s t : State) : Prop := ∀ q, t.dreg q = s.dreg q

/-- Every address register is as before. -/
def SameA (s t : State) : Prop := ∀ q, t.areg q = s.areg q

/-- Every byte of memory reads as before. -/
def SameMem (s t : State) : Prop := ∀ addr : Long, t.byteAt addr = s.byteAt addr

/-- The address registers are as before but for the addressing mode's side effect. -/
def OnlyEaStep (sz : Size) (ea : Ea) (s t : State) : Prop := ∀ q, t.areg q = eaAreg sz ea s q

/-- The parameters of the run and the count of free values are as before. -/
def SameRest (s t : State) : Prop := t.layout = s.layout ∧ t.draws = s.draws

/-- Every byte outside the `n/8` bytes from `addr` up reads as before (addresses modulo 2^32). -/
def SameMemOutside (sz : Size) (addr : Long) (s t : State) : Prop :=
  ∀ a : Long, (∀ k : Nat, k < sz.bytes → a ≠ addr + BitVec.ofNat 32 k) → t.byteAt a = s.byteAt a

/-- Dr holds `r` in its low part and its old upper bits, every other data register is as before (rule R12). -/
def WrittenDn (sz : Size) (dst : Reg) (r : BitVec sz.bits) (s t : State) : Prop :=
  lowPart sz (t.dreg dst) = r ∧ t.dreg dst >>> sz.bits = s.dreg dst >>> sz.bits ∧
    ∀ q, q ≠ dst → t.dreg q = s.dreg q

/-- The result `r` of size n is stored at a location and nothing else of the data registers and memory
changes. -/
def StoredAt (sz : Size) (loc : Loc) (r : BitVec sz.bits) (s t : State) : Prop :=
  match loc with
  | .dreg dst => WrittenDn sz dst r s t ∧ SameMem s t
  | .mem addr => t.valueAt sz addr = r ∧ SameMemOutside sz addr s t ∧ SameD s t
  | _ => False

/-- Nothing is stored: data registers and memory are as before. -/
def NothingStored (s t : State) : Prop := SameD s t ∧ SameMem s t

/-! ## How an instruction ends -/

/-- The instruction is complete: pc has advanced by its length (rule R26), the parameters of the run and the
count of free values are as before. -/
def Finished (i : Instr) (s t : State) : Prop := SameRest s t ∧ t.pc = s.pc + BitVec.ofNat 32 i.length

/-- When the access to an instruction's operand stops, that stop is the outcome; its terminal state has the
mode's side effect and nothing else (rules R63, R233, R234). -/
def OperandStops (kind : AccessKind) (i : Instr) (sz : Size) (ea : Ea) (s : State) : Prop :=
  let p := resolveEa sz ea s
  ∀ f, accessStop kind sz p.1 p.2 = some f → exec i s = .fault f

/-- As `OperandStops`, for an operand that is stored to: a store into ProgramText is refused (rules R70,
R236). -/
def StoreStops (kind : AccessKind) (i : Instr) (sz : Size) (ea : Ea) (s : State) : Prop :=
  let p := resolveEa sz ea s
  OperandStops kind i sz ea s ∧
    ∀ r, accessStop kind sz p.1 p.2 = none → textStop sz p.1 p.2 = some r → exec i s = .refused r

/-- The stops of two memory operands: the source's before the destination's (rules R63, R236). -/
def PairStops (i : Instr) (sz : Size) (src dst : Ea) (s : State) : Prop :=
  let p := resolveEa sz src s
  let q := resolveEa sz dst p.2
  OperandStops .read i sz src s ∧
    ∀ f, accessStop .read sz p.1 p.2 = none → accessStop .read sz q.1 q.2 = some f → exec i s = .fault f

/-- Does an operand of the instruction step address register `q`, by `(An)+` or `-(An)` (rules R53, R54)? -/
def stepsRegister (i : Instr) (q : Reg) : Prop :=
  (∃ cat, i.info.ea = some (cat, .postInc q) ∨ i.info.ea = some (cat, .preDec q)) ∨
  (∃ sz r, i = Instr.addxMem sz q r ∨ i = Instr.addxMem sz r q ∨ i = Instr.subxMem sz q r ∨
    i = Instr.subxMem sz r q ∨ i = Instr.cmpm sz q r ∨ i = Instr.cmpm sz r q)

/-- `t` is a terminal state of the instruction started in `s` (rules R230, R233 to R235): only address
registers that its operands step may differ; the trap leaves N, Z, V and C out, so the flags but X are
not compared here. -/
structure TerminalOf (i : Instr) (s t : State) : Prop where
  d      : t.d = s.d
  mem    : t.mem = s.mem
  pc     : t.pc = s.pc
  layout : t.layout = s.layout
  x      : t.flags.x = s.flags.x
  areg   : ∀ q, t.areg q = s.areg q ∨ stepsRegister i q

/-! ## Flags in the spec's words -/

/-- N, V and C after an addition `d + v + xin` of n bits (rules R9, R11). -/
def AddNVC {n : Nat} (d v : BitVec n) (xin : Bool) (f : Flags) : Prop :=
  let r := d + v + BitVec.ofNat n xin.toNat
  f.n = r.msb ∧ f.v = (d.msb == v.msb && r.msb != d.msb) ∧
    f.c = decide (2 ^ n ≤ d.toNat + v.toNat + xin.toNat)

/-- N, V and C after a subtraction `d - v - xin` of n bits, C the borrow (rules R10, R11). -/
def SubNVC {n : Nat} (d v : BitVec n) (xin : Bool) (f : Flags) : Prop :=
  let r := d - v - BitVec.ofNat n xin.toNat
  f.n = r.msb ∧ f.v = (d.msb != v.msb && r.msb != d.msb) ∧
    f.c = decide (d.toNat < v.toNat + xin.toNat)

/-- Z says that the result is zero (rule R11). -/
def ZeroZ {n : Nat} (r : BitVec n) (f : Flags) : Prop := f.z = decide (r = 0#n)

/-- The Z rule of ADDX, SUBX and NEGX: cleared if the result is not zero, else unchanged (rule R28). -/
def StickyZ {n : Nat} (r : BitVec n) (old new : Flags) : Prop := new.z = (old.z && decide (r = 0#n))

/-- N and Z of a value, V and C cleared, X not affected. -/
def TestFlags {n : Nat} (r : BitVec n) (old new : Flags) : Prop :=
  new.n = r.msb ∧ ZeroZ r new ∧ new.v = false ∧ new.c = false ∧ new.x = old.x

end Sys2Proof.Machine
end

