-- ==== Sys2Proof/Certificates/Slice0/Obligations.lean ====
section
/-!
DEFINITION. The statements for the provers.  The statements about one instruction have one form: under
hypotheses on the state and the operands alone `exec` answers a next state, which the statement describes
whole (result, flags, frame, pc); then where the instruction stops instead, with the terminal state.
What a stop records of an access (its address, kind and width) is the model's reading, assumption log entry
11, in every statement that names a stop.
-/

open Sys2Proof Sys2Proof.Machine

/-! ## Reset, decoding, encoding -/

/-- State.reset is a legal state.  Its values are DESIGN CHOICES of assumption log entries 1 to 5. -/
def Obligations.ResetIsLegal : Prop := State.reset.Inv

/-- Words written out from spec/30_encoding.md rules R86, R90, R91 decode to the instructions they stand for. -/
def Obligations.WordsDecode : Prop :=
  decode [0b1101001001010001#16] = .instr (.addEaDnW (.ind 1) 1) [] ∧
  decode [0b1001001101001000#16] = .instr (.subxMemW 0 1) [] ∧
  decode [0b0000010010111001#16, 0x0000#16, 0x0001#16, 0x0001#16, 0x2000#16] =
    .instr (.subiL 1#32 (.absLong 0x00012000#32)) [] ∧
  decode [0b0101000000000000#16] = .instr (.addqB 8 (.dn 0)) [] ∧
  decode [0b1000000111111100#16, 0x0007#16] = .instr (.divs (.imm 7#32) 0) [] ∧
  decode [0b1011001101001000#16] = .instr (.cmpmW 0 1) [] ∧
  decode [0b0100101011110000#16, 0b1001100000000100#16] =
    .instr (.tas (.index 4#8 0 { file := .address, reg := 1, size := .long })) [] ∧
  decode [0b0100100011000111#16] = .instr (.extL 7) [] ∧
  decode [0b0100101011111100#16] = .error (.notInScope 0x4AFC#16)

/-- Decoding what the encoder writes gives the instruction back, with every operand at every value, and leaves
the words after it alone (spec/30_encoding.md rules R80 to R96). -/
def Obligations.DecodeOfEncode : Prop :=
  ∀ (i : Instr) (rest : List Word), i.wf = true → decode (encode i ++ rest) = .instr i rest

/-- Encoding what the decoder read gives the words back, but for a Byte immediate, whose word has an ignored
upper byte (rule R92): two words that differ in any other bit are different instructions. -/
def Obligations.EncodeOfDecode : Prop :=
  ∀ (ws rest : List Word) (i : Instr), decode ws = .instr i rest →
    (i.info.size = .byte → i.info.hasImm = false ∧ ∀ cat v, i.info.ea ≠ some (cat, .imm v)) →
    ws = encode i ++ rest

/-- An instruction that the decoder reads is one of the 24 in an allowed form, with every operand in its
range, and took as many words as its length says (rules R80, R81, R96, R97). -/
def Obligations.DecodedIsWellFormed : Prop :=
  ∀ (ws rest : List Word) (i : Instr), decode ws = .instr i rest →
    i.wf = true ∧ 2 * ws.length = i.length + 2 * rest.length

/-- The encoder writes as many bytes as the length rule R81 says. -/
def Obligations.EncodedLength : Prop := ∀ i : Instr, (encodeBytes i).length = i.length

/-! ## Arithmetic primitives -/

/-- ADDN (spec/00_scope.md rule R9), at the three operand sizes, both forms of Vout. -/
def Obligations.AdditionPrimitive : Prop :=
  ∀ (sz : Size) (d s : BitVec sz.bits) (xin : Bool),
    let sum := d.toNat + s.toNat + xin.toNat
    let signedSum := d.toInt + s.toInt + (xin.toNat : Int)
    let out := addN d s xin
    out.value.toNat = sum % 2 ^ sz.bits ∧
    out.carry = decide (2 ^ sz.bits ≤ sum) ∧
    out.overflow = decide (signedSum < -(2 ^ (sz.bits - 1)) ∨ 2 ^ (sz.bits - 1) - 1 < signedSum) ∧
    out.overflow = (d.msb == s.msb && out.value.msb != d.msb)

/-- SUBN (spec/00_scope.md rule R10), at the three operand sizes, both forms of Vout. -/
def Obligations.SubtractionPrimitive : Prop :=
  ∀ (sz : Size) (d s : BitVec sz.bits) (xin : Bool),
    let diff : Int := (d.toNat : Int) - s.toNat - xin.toNat
    let signedDiff := d.toInt - s.toInt - (xin.toNat : Int)
    let out := subN d s xin
    (out.value.toNat : Int) = diff % 2 ^ sz.bits ∧
    out.carry = decide (diff < 0) ∧
    out.overflow = decide (signedDiff < -(2 ^ (sz.bits - 1)) ∨ 2 ^ (sz.bits - 1) - 1 < signedDiff) ∧
    out.overflow = (d.msb != s.msb && out.value.msb != d.msb)

/-- NZ (spec/00_scope.md rule R11). -/
def Obligations.NegativeAndZero : Prop :=
  ∀ (sz : Size) (r : BitVec sz.bits),
    flagN r = r.getLsbD (sz.bits - 1) ∧ flagZ r = decide (r.toNat = 0)

/-- The carry or borrow of a low part, passed to the operation on the high part, makes the operation on the
whole: what ADDX and SUBX chain (spec/40_add.md rule R128 corner cases). -/
def Obligations.MultiWordArithmetic : Prop :=
  ∀ (sz : Size) (dh dl sh sl : BitVec sz.bits),
    (let low := addN dl sl false
     let high := addN dh sh low.carry
     let whole := addN (dh ++ dl) (sh ++ sl) false
     whole.value = high.value ++ low.value ∧ whole.carry = high.carry ∧ whole.overflow = high.overflow) ∧
    (let low := subN dl sl false
     let high := subN dh sh low.carry
     let whole := subN (dh ++ dl) (sh ++ sl) false
     whole.value = high.value ++ low.value ∧ whole.carry = high.carry ∧ whole.overflow = high.overflow)

/-! ## Memory and addressing -/

/-- MemRead and MemWrite with their checks in order (spec/20_memory.md rule R42).  Two clauses are the model's
reading and no rule's: a stop records the address of the access, with kind and width, also where a later
byte offends (assumption log entry 11), and the bytes' addresses wrap modulo 2^32 (entry 16). -/
def Obligations.MemoryPrimitives : Prop :=
  ∀ (s : State) (addr : Long),
    (s.valueAt .byte addr : Byte) = s.byteAt addr ∧
    (s.valueAt .word addr : Word) = (s.byteAt addr ++ s.byteAt (addr + 1) : Word) ∧
    (s.valueAt .long addr : Long) =
      (s.byteAt addr ++ s.byteAt (addr + 1) ++ s.byteAt (addr + 2) ++ s.byteAt (addr + 3) : Long) ∧
    (∀ v : Byte, (s.withValue .byte addr v).byteAt addr = v) ∧
    (∀ v : Word,
      (s.withValue .word addr v).byteAt addr = v.extractLsb' 8 8 ∧
      (s.withValue .word addr v).byteAt (addr + 1) = v.extractLsb' 0 8) ∧
    (∀ v : Long,
      (s.withValue .long addr v).byteAt addr = v.extractLsb' 24 8 ∧
      (s.withValue .long addr v).byteAt (addr + 1) = v.extractLsb' 16 8 ∧
      (s.withValue .long addr v).byteAt (addr + 2) = v.extractLsb' 8 8 ∧
      (s.withValue .long addr v).byteAt (addr + 3) = v.extractLsb' 0 8) ∧
    ∀ (sz : Size) (v : BitVec sz.bits),
      SameMemOutside sz addr s (s.withValue sz addr v) ∧
      (let misaligned := sz ≠ .byte ∧ addr.toNat % 2 = 1
       let unmapped := ∃ k < sz.bytes, s.layout.admits (addr + BitVec.ofNat 32 k) = false
       let inText := ∃ k < sz.bytes, s.layout.inText (addr + BitVec.ofNat 32 k) = true
       (misaligned →
        memRead sz addr s = .fault (.addressError .read sz.bytes addr s) ∧
        memWrite sz addr v s = .fault (.addressError .write sz.bytes addr s)) ∧
       (¬ misaligned → unmapped →
        memRead sz addr s = .fault (.accessFault addr s) ∧
        memWrite sz addr v s = .fault (.accessFault addr s)) ∧
       (¬ misaligned → ¬ unmapped →
        memRead sz addr s = .next (s.valueAt sz addr) ∧
        (inText → memWrite sz addr v s = .refused (.writeToProgramText addr s)) ∧
        (¬ inText → memWrite sz addr v s = .next (s.withValue sz addr v))))

/-- The location and the register side effect of each of the twelve modes (spec/20_memory.md rules R51 to
R61). -/
def Obligations.AddressingModes : Prop :=
  ∀ (sz : Size) (s : State) (r : Reg),
    let step := BitVec.ofNat 32 (if sz = .byte ∧ r = 7 then 2 else sz.bytes)
    let idx := fun ix : Index =>
      let ri := match ix.file with
        | .data => s.dreg ix.reg
        | .address => s.areg ix.reg
      match ix.size with
      | .word => (ri.setWidth 16).signExtend 32
      | .long => ri
    resolveEa sz (.dn r) s = (.dreg r, s) ∧
    resolveEa sz (.an r) s = (.areg r, s) ∧
    resolveEa sz (.ind r) s = (.mem (s.areg r), s) ∧
    resolveEa sz (.postInc r) s = (.mem (s.areg r), s.setAreg r (s.areg r + step)) ∧
    resolveEa sz (.preDec r) s = (.mem (s.areg r - step), s.setAreg r (s.areg r - step)) ∧
    (∀ d16 : Word, resolveEa sz (.disp d16 r) s = (.mem (s.areg r + d16.signExtend 32), s)) ∧
    (∀ (d8 : Byte) (ix : Index),
      resolveEa sz (.index d8 r ix) s = (.mem (s.areg r + idx ix + d8.signExtend 32), s)) ∧
    (∀ w : Word, resolveEa sz (.absShort w) s = (.mem (w.signExtend 32), s)) ∧
    (∀ addr : Long, resolveEa sz (.absLong addr) s = (.mem addr, s)) ∧
    (∀ d16 : Word, resolveEa sz (.pcDisp d16) s = (.mem (s.pc + 2 + d16.signExtend 32), s)) ∧
    (∀ (d8 : Byte) (ix : Index),
      resolveEa sz (.pcIndex d8 ix) s = (.mem (s.pc + 2 + idx ix + d8.signExtend 32), s)) ∧
    (∀ v : Long, resolveEa sz (.imm v) s = (.imm v, s))

/-- A Byte through `(A7)+` or `-(A7)` steps A7 by 2 and is the one byte at the resolved address
(spec/20_memory.md rule R55). -/
def Obligations.StackPointerStepsByTwo : Prop :=
  ∀ s : State,
    (let p := resolveEa .byte (.postInc 7) s
     p.1 = .mem (s.areg 7) ∧ p.2.areg 7 = s.areg 7 + 2 ∧
      (locValue .byte p.1 p.2 : Byte) = s.byteAt (s.areg 7)) ∧
    (let p := resolveEa .byte (.preDec 7) s
     p.1 = .mem (s.areg 7 - 2) ∧ p.2.areg 7 = s.areg 7 - 2 ∧
      (locValue .byte p.1 p.2 : Byte) = s.byteAt (s.areg 7 - 2))

/-! ## Add family -/

/-- ADD `<ea>,Dn` (spec/40_add.md rule R120). -/
def Obligations.AddToDataRegister : Prop :=
  ∀ (sz : Size) (src : Ea) (dst : Reg) (s : State),
    let i := Instr.addEaDn sz src dst
    let p := resolveEa sz src s
    let d := lowPart sz (s.dreg dst)
    let v := locValue sz p.1 p.2
    i.wf = true →
    (accessStop .read sz p.1 p.2 = none →
      ∃ t, exec i s = .next t ∧ WrittenDn sz dst (d + v) s t ∧ SameMem s t ∧ OnlyEaStep sz src s t ∧
        AddNVC d v false t.flags ∧ ZeroZ (d + v) t.flags ∧ t.flags.x = t.flags.c ∧ Finished i s t) ∧
    OperandStops .read i sz src s

/-- ADD `Dn,<ea>` (spec/40_add.md rule R121). -/
def Obligations.AddToMemory : Prop :=
  ∀ (sz : Size) (src : Reg) (dst : Ea) (s : State),
    let i := Instr.addDnEa sz src dst
    let p := resolveEa sz dst s
    let d := locValue sz p.1 p.2
    let v := lowPart sz (s.dreg src)
    i.wf = true →
    (accessStop .read sz p.1 p.2 = none → textStop sz p.1 p.2 = none →
      ∃ t, exec i s = .next t ∧ StoredAt sz p.1 (d + v) s t ∧ OnlyEaStep sz dst s t ∧
        AddNVC d v false t.flags ∧ ZeroZ (d + v) t.flags ∧ t.flags.x = t.flags.c ∧ Finished i s t) ∧
    StoreStops .read i sz dst s

/-- ADDA `<ea>,An` (spec/40_add.md rule R122). -/
def Obligations.AddToAddressRegister : Prop :=
  ∀ (long : Bool) (src : Ea) (dst : Reg) (s : State),
    let sz : Size := if long then .long else .word
    let i := Instr.adda long src dst
    let p := resolveEa sz src s
    let v := (locValue sz p.1 p.2).signExtend 32
    let overlap := src = .postInc dst ∨ src = .preDec dst
    i.wf = true →
    (¬ overlap → accessStop .read sz p.1 p.2 = none →
      ∃ t, exec i s = .next t ∧ t.areg dst = s.areg dst + v ∧
        (∀ q, q ≠ dst → t.areg q = eaAreg sz src s q) ∧ NothingStored s t ∧ t.flags = s.flags ∧
        Finished i s t) ∧
    (¬ overlap → OperandStops .read i sz src s) ∧
    (overlap → exec i s = .refused (.overlapUnspecified s))

/-- ADDI `#<data>,<ea>` (spec/40_add.md rule R124). -/
def Obligations.AddImmediate : Prop :=
  ∀ (sz : Size) (imm : Long) (dst : Ea) (s : State),
    let i := Instr.addi sz imm dst
    let p := resolveEa sz dst s
    let d := locValue sz p.1 p.2
    let v := lowPart sz imm
    i.wf = true →
    (accessStop .read sz p.1 p.2 = none → textStop sz p.1 p.2 = none →
      ∃ t, exec i s = .next t ∧ StoredAt sz p.1 (d + v) s t ∧ OnlyEaStep sz dst s t ∧
        AddNVC d v false t.flags ∧ ZeroZ (d + v) t.flags ∧ t.flags.x = t.flags.c ∧ Finished i s t) ∧
    StoreStops .read i sz dst s

/-- ADDQ `#<data>,<ea>`: an address register whole and without flags, else as ADD (spec/40_add.md rule
R126). -/
def Obligations.AddQuick : Prop :=
  ∀ (sz : Size) (q : Nat) (dst : Ea) (s : State),
    let i := Instr.addq sz q dst
    let p := resolveEa sz dst s
    let d := locValue sz p.1 p.2
    let v := BitVec.ofNat sz.bits q
    i.wf = true →
    (∀ r, dst = .an r →
      ∃ t, exec i s = .next t ∧ t.areg r = s.areg r + BitVec.ofNat 32 q ∧
        (∀ k, k ≠ r → t.areg k = s.areg k) ∧ NothingStored s t ∧ t.flags = s.flags ∧ Finished i s t) ∧
    ((∀ r, dst ≠ .an r) →
      (accessStop .read sz p.1 p.2 = none → textStop sz p.1 p.2 = none →
        ∃ t, exec i s = .next t ∧ StoredAt sz p.1 (d + v) s t ∧ OnlyEaStep sz dst s t ∧
          AddNVC d v false t.flags ∧ ZeroZ (d + v) t.flags ∧ t.flags.x = t.flags.c ∧ Finished i s t) ∧
      StoreStops .read i sz dst s)

/-- ADDX `Dy,Dx`: Z is only ever cleared (spec/40_add.md rule R128). -/
def Obligations.AddExtendedRegisters : Prop :=
  ∀ (sz : Size) (src dst : Reg) (s : State),
    let i := Instr.addxReg sz src dst
    let d := lowPart sz (s.dreg dst)
    let v := lowPart sz (s.dreg src)
    let r := d + v + BitVec.ofNat sz.bits s.flags.x.toNat
    ∃ t, exec i s = .next t ∧ WrittenDn sz dst r s t ∧ SameMem s t ∧ SameA s t ∧
      AddNVC d v s.flags.x t.flags ∧ StickyZ r s.flags t.flags ∧ t.flags.x = t.flags.c ∧ Finished i s t

/-- ADDX `-(Ay),-(Ax)`: both registers stepped, also when they are one register (spec/40_add.md rule R129). -/
def Obligations.AddExtendedMemory : Prop :=
  ∀ (sz : Size) (src dst : Reg) (s : State),
    let i := Instr.addxMem sz src dst
    let p := resolveEa sz (.preDec src) s
    let q := resolveEa sz (.preDec dst) p.2
    let v := locValue sz p.1 s
    let d := locValue sz q.1 s
    let r := d + v + BitVec.ofNat sz.bits s.flags.x.toNat
    (accessStop .read sz p.1 p.2 = none → accessStop .read sz q.1 q.2 = none →
      textStop sz q.1 q.2 = none →
      ∃ t, exec i s = .next t ∧ StoredAt sz q.1 r s t ∧ OnlyEaStep sz (.preDec dst) p.2 t ∧
        AddNVC d v s.flags.x t.flags ∧ StickyZ r s.flags t.flags ∧ t.flags.x = t.flags.c ∧
        Finished i s t) ∧
    PairStops i sz (.preDec src) (.preDec dst) s ∧
    (∀ e, accessStop .read sz p.1 p.2 = none → accessStop .read sz q.1 q.2 = none →
      textStop sz q.1 q.2 = some e → exec i s = .refused e)

/-! ## Clear -/

/-- CLR `<ea>`: written, never read (spec/41_clear.md rule R140). -/
def Obligations.ClearOperand : Prop :=
  ∀ (sz : Size) (dst : Ea) (s : State),
    let i := Instr.clr sz dst
    let p := resolveEa sz dst s
    i.wf = true →
    (accessStop .write sz p.1 p.2 = none → textStop sz p.1 p.2 = none →
      ∃ t, exec i s = .next t ∧ StoredAt sz p.1 0 s t ∧ OnlyEaStep sz dst s t ∧
        t.flags = { n := false, z := true, v := false, c := false, x := s.flags.x } ∧ Finished i s t) ∧
    StoreStops .write i sz dst s

/-! ## Compare family -/

/-- CMP `<ea>,Dn` (spec/42_compare.md rule R145). -/
def Obligations.CompareDataRegister : Prop :=
  ∀ (sz : Size) (src : Ea) (dst : Reg) (s : State),
    let i := Instr.cmp sz src dst
    let p := resolveEa sz src s
    let d := lowPart sz (s.dreg dst)
    let v := locValue sz p.1 p.2
    i.wf = true →
    (accessStop .read sz p.1 p.2 = none →
      ∃ t, exec i s = .next t ∧ NothingStored s t ∧ OnlyEaStep sz src s t ∧ SubNVC d v false t.flags ∧
        ZeroZ (d - v) t.flags ∧ t.flags.x = s.flags.x ∧ Finished i s t) ∧
    OperandStops .read i sz src s

/-- CMPA `<ea>,An`: a 32-bit comparison, flags written (spec/42_compare.md rule R147). -/
def Obligations.CompareAddressRegister : Prop :=
  ∀ (long : Bool) (src : Ea) (dst : Reg) (s : State),
    let sz : Size := if long then .long else .word
    let i := Instr.cmpa long src dst
    let p := resolveEa sz src s
    let d := s.areg dst
    let v := (locValue sz p.1 p.2).signExtend 32
    let overlap := src = .postInc dst ∨ src = .preDec dst
    i.wf = true →
    (¬ overlap → accessStop .read sz p.1 p.2 = none →
      ∃ t, exec i s = .next t ∧ NothingStored s t ∧ OnlyEaStep sz src s t ∧ SubNVC d v false t.flags ∧
        ZeroZ (d - v) t.flags ∧ t.flags.x = s.flags.x ∧ Finished i s t) ∧
    (¬ overlap → OperandStops .read i sz src s) ∧
    (overlap → exec i s = .refused (.overlapUnspecified s))

/-- CMPI `#<data>,<ea>`: nothing stored, so ProgramText is no obstacle (spec/42_compare.md rule R149). -/
def Obligations.CompareImmediate : Prop :=
  ∀ (sz : Size) (imm : Long) (dst : Ea) (s : State),
    let i := Instr.cmpi sz imm dst
    let p := resolveEa sz dst s
    let d := locValue sz p.1 p.2
    let v := lowPart sz imm
    i.wf = true →
    (accessStop .read sz p.1 p.2 = none →
      ∃ t, exec i s = .next t ∧ NothingStored s t ∧ OnlyEaStep sz dst s t ∧ SubNVC d v false t.flags ∧
        ZeroZ (d - v) t.flags ∧ t.flags.x = s.flags.x ∧ Finished i s t) ∧
    OperandStops .read i sz dst s

/-- CMPM `(Ay)+,(Ax)+` (spec/42_compare.md rule R151). -/
def Obligations.CompareMemory : Prop :=
  ∀ (sz : Size) (src dst : Reg) (s : State),
    let i := Instr.cmpm sz src dst
    let p := resolveEa sz (.postInc src) s
    let q := resolveEa sz (.postInc dst) p.2
    let v := locValue sz p.1 s
    let d := locValue sz q.1 s
    (accessStop .read sz p.1 p.2 = none → accessStop .read sz q.1 q.2 = none →
      ∃ t, exec i s = .next t ∧ NothingStored s t ∧ OnlyEaStep sz (.postInc dst) p.2 t ∧
        SubNVC d v false t.flags ∧ ZeroZ (d - v) t.flags ∧ t.flags.x = s.flags.x ∧ Finished i s t) ∧
    PairStops i sz (.postInc src) (.postInc dst) s

/-- After a CMP that completes, Z says equal, C says below as unsigned numbers, N xor V below as signed numbers
(spec/42_compare.md rule R145, corner cases). -/
def Obligations.CompareOrders : Prop :=
  ∀ (sz : Size) (src : Ea) (dst : Reg) (s t : State),
    let p := resolveEa sz src s
    let d := lowPart sz (s.dreg dst)
    let v := locValue sz p.1 p.2
    exec (Instr.cmp sz src dst) s = .next t →
    t.flags.z = decide (d = v) ∧ t.flags.c = decide (d.toNat < v.toNat) ∧
      (t.flags.n != t.flags.v) = decide (d.toInt < v.toInt)

/-! ## Divide family -/

/-- DIVS `<ea>,Dn`: the three cases of a source that was read (spec/43_divide.md rule R160).  After an overflow
N and Z are the free values of rule R163, of which nothing is said. -/
def Obligations.DivideSigned : Prop :=
  ∀ (src : Ea) (dst : Reg) (s : State),
    let i := Instr.divs src dst
    let p := resolveEa .word src s
    let v : Word := locValue .word p.1 p.2
    let q := (s.dreg dst).toInt.tdiv v.toInt
    let rem := (s.dreg dst).toInt - q * v.toInt
    i.wf = true →
    (accessStop .read .word p.1 p.2 = none → v ≠ 0#16 → -32768 ≤ q → q ≤ 32767 →
      ∃ t, exec i s = .next t ∧ t.dreg dst = BitVec.ofInt 16 rem ++ BitVec.ofInt 16 q ∧
        (∀ k, k ≠ dst → t.dreg k = s.dreg k) ∧ SameMem s t ∧ OnlyEaStep .word src s t ∧
        t.flags = { n := decide (q < 0), z := decide (q = 0), v := false, c := false, x := s.flags.x } ∧
        Finished i s t) ∧
    (accessStop .read .word p.1 p.2 = none → v ≠ 0#16 → (q < -32768 ∨ 32767 < q) →
      ∃ t, exec i s = .next t ∧ NothingStored s t ∧ OnlyEaStep .word src s t ∧
        t.flags.v = true ∧ t.flags.c = false ∧ t.flags.x = s.flags.x ∧ t.layout = s.layout ∧
        t.pc = s.pc + BitVec.ofNat 32 i.length) ∧
    (accessStop .read .word p.1 p.2 = none → v = 0#16 →
      ∃ t, exec i s = .fault (.zeroDivide t) ∧ NothingStored s t ∧ OnlyEaStep .word src s t ∧
        t.flags.x = s.flags.x ∧ t.layout = s.layout ∧ t.pc = s.pc) ∧
    OperandStops .read i .word src s

/-- DIVU `<ea>,Dn` (spec/43_divide.md rule R161). -/
def Obligations.DivideUnsigned : Prop :=
  ∀ (src : Ea) (dst : Reg) (s : State),
    let i := Instr.divu src dst
    let p := resolveEa .word src s
    let v : Word := locValue .word p.1 p.2
    let q := (s.dreg dst).toNat / v.toNat
    let rem := (s.dreg dst).toNat % v.toNat
    i.wf = true →
    (accessStop .read .word p.1 p.2 = none → v ≠ 0#16 → q ≤ 65535 →
      ∃ t, exec i s = .next t ∧ t.dreg dst = BitVec.ofNat 16 rem ++ BitVec.ofNat 16 q ∧
        (∀ k, k ≠ dst → t.dreg k = s.dreg k) ∧ SameMem s t ∧ OnlyEaStep .word src s t ∧
        t.flags =
          { n := decide (2 ^ 15 ≤ q), z := decide (q = 0), v := false, c := false, x := s.flags.x } ∧
        Finished i s t) ∧
    (accessStop .read .word p.1 p.2 = none → v ≠ 0#16 → 65535 < q →
      ∃ t, exec i s = .next t ∧ NothingStored s t ∧ OnlyEaStep .word src s t ∧
        t.flags.v = true ∧ t.flags.c = false ∧ t.flags.x = s.flags.x ∧ t.layout = s.layout ∧
        t.pc = s.pc + BitVec.ofNat 32 i.length) ∧
    (accessStop .read .word p.1 p.2 = none → v = 0#16 →
      ∃ t, exec i s = .fault (.zeroDivide t) ∧ NothingStored s t ∧ OnlyEaStep .word src s t ∧
        t.flags.x = s.flags.x ∧ t.layout = s.layout ∧ t.pc = s.pc) ∧
    OperandStops .read i .word src s

/-- What a divide that completes leaves in Dn (spec/43_divide.md rule R162, and for DIVU's overflow as the upper
word compared with the source the corner case of rule R161, which the spec derives): overflow exactly when the exact
quotient does not fit, the operands kept then; else the quotient rounded toward zero and the remainder with the
dividend's sign. -/
def Obligations.DivideMeaning : Prop :=
  (∀ (src : Ea) (dst : Reg) (s t : State),
    let p := resolveEa .word src s
    let n := (s.dreg dst).toInt
    let v := (locValue .word p.1 p.2 : Word).toInt
    let q := ((t.dreg dst).extractLsb' 0 16).toInt
    let rem := ((t.dreg dst).extractLsb' 16 16).toInt
    exec (.divs src dst) s = .next t →
      (t.flags.v = true ↔ n.tdiv v < -32768 ∨ 32767 < n.tdiv v) ∧
      (t.flags.v = true → NothingStored s t) ∧
      (t.flags.v = false →
        n = q * v + rem ∧ rem.natAbs < v.natAbs ∧ (0 ≤ n → 0 ≤ rem) ∧ (n ≤ 0 → rem ≤ 0))) ∧
  (∀ (src : Ea) (dst : Reg) (s t : State),
    let p := resolveEa .word src s
    let n := (s.dreg dst).toNat
    let v := (locValue .word p.1 p.2 : Word).toNat
    let q := ((t.dreg dst).extractLsb' 0 16).toNat
    let rem := ((t.dreg dst).extractLsb' 16 16).toNat
    exec (.divu src dst) s = .next t →
      (t.flags.v = true ↔ 65535 < n / v) ∧
      (t.flags.v = true ↔ v ≤ ((s.dreg dst).extractLsb' 16 16).toNat) ∧
      (t.flags.v = true → NothingStored s t) ∧
      (t.flags.v = false → n = q * v + rem ∧ rem < v))

/-- `Trap(ZeroDivide)` (spec/60_exceptions.md rule R230): its cause, its terminal state, and that nothing else
raises it. -/
def Obligations.ZeroDivideTrap : Prop :=
  (∀ (signed : Bool) (src : Ea) (dst : Reg) (s : State),
    let i := if signed then Instr.divs src dst else Instr.divu src dst
    let p := resolveEa .word src s
    let v : Word := locValue .word p.1 p.2
    accessStop .read .word p.1 p.2 = none →
    (v = 0#16 →
      ∃ t, exec i s = .fault (.zeroDivide t) ∧ NothingStored s t ∧ OnlyEaStep .word src s t ∧
        t.pc = s.pc ∧ t.flags.x = s.flags.x) ∧
    (v ≠ 0#16 → s.dreg dst = 0#32 →
      ∃ t, exec i s = .next t ∧ t.dreg dst = 0#32 ∧ t.flags.v = false ∧ t.flags.z = true)) ∧
  ∀ (i : Instr) (s t : State), exec i s = .fault (.zeroDivide t) →
    ∃ src dst, i = .divs src dst ∨ i = .divu src dst

/-! ## Sign extend, multiply, negate -/

/-- EXT `Dn` (spec/44_sign_extend.md rule R170). -/
def Obligations.SignExtend : Prop :=
  ∀ (dst : Reg) (s : State),
    (let r : Word := ((s.dreg dst).extractLsb' 0 8).signExtend 16
     ∃ t, exec (.extW dst) s = .next t ∧ WrittenDn .word dst r s t ∧ SameMem s t ∧ SameA s t ∧
       TestFlags r s.flags t.flags ∧ Finished (.extW dst) s t) ∧
    (let r : Long := ((s.dreg dst).extractLsb' 0 16).signExtend 32
     ∃ t, exec (.extL dst) s = .next t ∧ WrittenDn .long dst r s t ∧ SameMem s t ∧ SameA s t ∧
       TestFlags r s.flags t.flags ∧ Finished (.extL dst) s t)

/-- MULS `<ea>,Dn`: all 32 bits of Dn hold the exact signed product (spec/45_multiply.md rule R175). -/
def Obligations.MultiplySigned : Prop :=
  ∀ (src : Ea) (dst : Reg) (s : State),
    let i := Instr.muls src dst
    let p := resolveEa .word src s
    let d : Word := lowPart .word (s.dreg dst)
    let v : Word := locValue .word p.1 p.2
    i.wf = true →
    (accessStop .read .word p.1 p.2 = none →
      ∃ t, exec i s = .next t ∧ (t.dreg dst).toInt = d.toInt * v.toInt ∧
        (∀ k, k ≠ dst → t.dreg k = s.dreg k) ∧ SameMem s t ∧ OnlyEaStep .word src s t ∧
        TestFlags (t.dreg dst) s.flags t.flags ∧ Finished i s t) ∧
    OperandStops .read i .word src s

/-- MULU `<ea>,Dn`: all 32 bits of Dn hold the exact unsigned product (spec/45_multiply.md rule R176). -/
def Obligations.MultiplyUnsigned : Prop :=
  ∀ (src : Ea) (dst : Reg) (s : State),
    let i := Instr.mulu src dst
    let p := resolveEa .word src s
    let d : Word := lowPart .word (s.dreg dst)
    let v : Word := locValue .word p.1 p.2
    i.wf = true →
    (accessStop .read .word p.1 p.2 = none →
      ∃ t, exec i s = .next t ∧ (t.dreg dst).toNat = d.toNat * v.toNat ∧
        (∀ k, k ≠ dst → t.dreg k = s.dreg k) ∧ SameMem s t ∧ OnlyEaStep .word src s t ∧
        TestFlags (t.dreg dst) s.flags t.flags ∧ Finished i s t) ∧
    OperandStops .read i .word src s

/-- NEG `<ea>`: C and X say that the operand was not zero, V that it was the most negative value
(spec/46_negate.md rule R185). -/
def Obligations.NegateOperand : Prop :=
  ∀ (sz : Size) (dst : Ea) (s : State),
    let i := Instr.neg sz dst
    let p := resolveEa sz dst s
    let d := locValue sz p.1 p.2
    i.wf = true →
    (accessStop .read sz p.1 p.2 = none → textStop sz p.1 p.2 = none →
      ∃ t, exec i s = .next t ∧ StoredAt sz p.1 (-d) s t ∧ OnlyEaStep sz dst s t ∧
        SubNVC 0 d false t.flags ∧ ZeroZ (-d) t.flags ∧ t.flags.x = t.flags.c ∧
        t.flags.c = decide (d ≠ 0) ∧ t.flags.v = decide (d.toNat = 2 ^ (sz.bits - 1)) ∧
        Finished i s t) ∧
    StoreStops .read i sz dst s

/-- NEGX `<ea>`: Z is only ever cleared (spec/46_negate.md rule R186). -/
def Obligations.NegateExtended : Prop :=
  ∀ (sz : Size) (dst : Ea) (s : State),
    let i := Instr.negx sz dst
    let p := resolveEa sz dst s
    let d := locValue sz p.1 p.2
    let r := 0 - d - BitVec.ofNat sz.bits s.flags.x.toNat
    i.wf = true →
    (accessStop .read sz p.1 p.2 = none → textStop sz p.1 p.2 = none →
      ∃ t, exec i s = .next t ∧ StoredAt sz p.1 r s t ∧ OnlyEaStep sz dst s t ∧
        SubNVC 0 d s.flags.x t.flags ∧ StickyZ r s.flags t.flags ∧ t.flags.x = t.flags.c ∧
        t.flags.c = (s.flags.x || decide (d ≠ 0)) ∧ Finished i s t) ∧
    StoreStops .read i sz dst s

/-! ## Subtract family -/

/-- SUB `<ea>,Dn` (spec/47_subtract.md rule R195). -/
def Obligations.SubtractFromDataRegister : Prop :=
  ∀ (sz : Size) (src : Ea) (dst : Reg) (s : State),
    let i := Instr.subEaDn sz src dst
    let p := resolveEa sz src s
    let d := lowPart sz (s.dreg dst)
    let v := locValue sz p.1 p.2
    i.wf = true →
    (accessStop .read sz p.1 p.2 = none →
      ∃ t, exec i s = .next t ∧ WrittenDn sz dst (d - v) s t ∧ SameMem s t ∧ OnlyEaStep sz src s t ∧
        SubNVC d v false t.flags ∧ ZeroZ (d - v) t.flags ∧ t.flags.x = t.flags.c ∧ Finished i s t) ∧
    OperandStops .read i sz src s

/-- SUB `Dn,<ea>`: the memory operand minus the register (spec/47_subtract.md rule R196). -/
def Obligations.SubtractFromMemory : Prop :=
  ∀ (sz : Size) (src : Reg) (dst : Ea) (s : State),
    let i := Instr.subDnEa sz src dst
    let p := resolveEa sz dst s
    let d := locValue sz p.1 p.2
    let v := lowPart sz (s.dreg src)
    i.wf = true →
    (accessStop .read sz p.1 p.2 = none → textStop sz p.1 p.2 = none →
      ∃ t, exec i s = .next t ∧ StoredAt sz p.1 (d - v) s t ∧ OnlyEaStep sz dst s t ∧
        SubNVC d v false t.flags ∧ ZeroZ (d - v) t.flags ∧ t.flags.x = t.flags.c ∧ Finished i s t) ∧
    StoreStops .read i sz dst s

/-- SUBA `<ea>,An` (spec/47_subtract.md rule R197). -/
def Obligations.SubtractFromAddressRegister : Prop :=
  ∀ (long : Bool) (src : Ea) (dst : Reg) (s : State),
    let sz : Size := if long then .long else .word
    let i := Instr.suba long src dst
    let p := resolveEa sz src s
    let v := (locValue sz p.1 p.2).signExtend 32
    let overlap := src = .postInc dst ∨ src = .preDec dst
    i.wf = true →
    (¬ overlap → accessStop .read sz p.1 p.2 = none →
      ∃ t, exec i s = .next t ∧ t.areg dst = s.areg dst - v ∧
        (∀ q, q ≠ dst → t.areg q = eaAreg sz src s q) ∧ NothingStored s t ∧ t.flags = s.flags ∧
        Finished i s t) ∧
    (¬ overlap → OperandStops .read i sz src s) ∧
    (overlap → exec i s = .refused (.overlapUnspecified s))

/-- SUBI `#<data>,<ea>` (spec/47_subtract.md rule R199). -/
def Obligations.SubtractImmediate : Prop :=
  ∀ (sz : Size) (imm : Long) (dst : Ea) (s : State),
    let i := Instr.subi sz imm dst
    let p := resolveEa sz dst s
    let d := locValue sz p.1 p.2
    let v := lowPart sz imm
    i.wf = true →
    (accessStop .read sz p.1 p.2 = none → textStop sz p.1 p.2 = none →
      ∃ t, exec i s = .next t ∧ StoredAt sz p.1 (d - v) s t ∧ OnlyEaStep sz dst s t ∧
        SubNVC d v false t.flags ∧ ZeroZ (d - v) t.flags ∧ t.flags.x = t.flags.c ∧ Finished i s t) ∧
    StoreStops .read i sz dst s

/-- SUBQ `#<data>,<ea>`: an address register whole and without flags, else as SUB (spec/47_subtract.md rule
R201). -/
def Obligations.SubtractQuick : Prop :=
  ∀ (sz : Size) (q : Nat) (dst : Ea) (s : State),
    let i := Instr.subq sz q dst
    let p := resolveEa sz dst s
    let d := locValue sz p.1 p.2
    let v := BitVec.ofNat sz.bits q
    i.wf = true →
    (∀ r, dst = .an r →
      ∃ t, exec i s = .next t ∧ t.areg r = s.areg r - BitVec.ofNat 32 q ∧
        (∀ k, k ≠ r → t.areg k = s.areg k) ∧ NothingStored s t ∧ t.flags = s.flags ∧ Finished i s t) ∧
    ((∀ r, dst ≠ .an r) →
      (accessStop .read sz p.1 p.2 = none → textStop sz p.1 p.2 = none →
        ∃ t, exec i s = .next t ∧ StoredAt sz p.1 (d - v) s t ∧ OnlyEaStep sz dst s t ∧
          SubNVC d v false t.flags ∧ ZeroZ (d - v) t.flags ∧ t.flags.x = t.flags.c ∧ Finished i s t) ∧
      StoreStops .read i sz dst s)

/-- SUBX `Dy,Dx`: Z is only ever cleared (spec/47_subtract.md rule R203). -/
def Obligations.SubtractExtendedRegisters : Prop :=
  ∀ (sz : Size) (src dst : Reg) (s : State),
    let i := Instr.subxReg sz src dst
    let d := lowPart sz (s.dreg dst)
    let v := lowPart sz (s.dreg src)
    let r := d - v - BitVec.ofNat sz.bits s.flags.x.toNat
    ∃ t, exec i s = .next t ∧ WrittenDn sz dst r s t ∧ SameMem s t ∧ SameA s t ∧
      SubNVC d v s.flags.x t.flags ∧ StickyZ r s.flags t.flags ∧ t.flags.x = t.flags.c ∧ Finished i s t

/-- SUBX `-(Ay),-(Ax)`: both registers stepped, also when they are one register (spec/47_subtract.md rule
R204). -/
def Obligations.SubtractExtendedMemory : Prop :=
  ∀ (sz : Size) (src dst : Reg) (s : State),
    let i := Instr.subxMem sz src dst
    let p := resolveEa sz (.preDec src) s
    let q := resolveEa sz (.preDec dst) p.2
    let v := locValue sz p.1 s
    let d := locValue sz q.1 s
    let r := d - v - BitVec.ofNat sz.bits s.flags.x.toNat
    (accessStop .read sz p.1 p.2 = none → accessStop .read sz q.1 q.2 = none →
      textStop sz q.1 q.2 = none →
      ∃ t, exec i s = .next t ∧ StoredAt sz q.1 r s t ∧ OnlyEaStep sz (.preDec dst) p.2 t ∧
        SubNVC d v s.flags.x t.flags ∧ StickyZ r s.flags t.flags ∧ t.flags.x = t.flags.c ∧
        Finished i s t) ∧
    PairStops i sz (.preDec src) (.preDec dst) s ∧
    (∀ e, accessStop .read sz p.1 p.2 = none → accessStop .read sz q.1 q.2 = none →
      textStop sz q.1 q.2 = some e → exec i s = .refused e)

/-! ## Testing family -/

/-- TAS `<ea>`: flags of the old byte, bit 7 set, always written back (spec/48_test.md rule R216). -/
def Obligations.TestAndSetByte : Prop :=
  ∀ (dst : Ea) (s : State),
    let i := Instr.tas dst
    let p := resolveEa .byte dst s
    let d : Byte := locValue .byte p.1 p.2
    i.wf = true →
    (accessStop .read .byte p.1 p.2 = none → textStop .byte p.1 p.2 = none →
      ∃ t, exec i s = .next t ∧ StoredAt .byte p.1 (d ||| 0x80#8) s t ∧ OnlyEaStep .byte dst s t ∧
        TestFlags d s.flags t.flags ∧ Finished i s t) ∧
    StoreStops .read i .byte dst s

/-- TST `<ea>` (spec/48_test.md rule R217). -/
def Obligations.TestOperand : Prop :=
  ∀ (sz : Size) (dst : Ea) (s : State),
    let i := Instr.tst sz dst
    let p := resolveEa sz dst s
    let d := locValue sz p.1 p.2
    i.wf = true →
    (accessStop .read sz p.1 p.2 = none →
      ∃ t, exec i s = .next t ∧ NothingStored s t ∧ OnlyEaStep sz dst s t ∧
        TestFlags d s.flags t.flags ∧ Finished i s t) ∧
    OperandStops .read i sz dst s

/-! ## Rules about every instruction -/

/-- Every instruction that completes advances pc by its own length, 2, 4, 6, 8 or 10 (spec/10_state.md rule
R26). -/
def Obligations.PcAdvancesByLength : Prop :=
  ∀ (i : Instr) (s t : State), exec i s = .next t →
    t.pc = s.pc + BitVec.ofNat 32 i.length ∧ i.length ∈ [2, 4, 6, 8, 10]

/-- The column X of the flag table (spec/10_state.md rule R28): the add, subtract and negate instructions on
data leave X the same as C, every other instruction leaves X alone. -/
def Obligations.ExtendFlagWriters : Prop :=
  ∀ (i : Instr) (s t : State), exec i s = .next t →
    let writesX :=
      (∃ sz src dst, i = Instr.addEaDn sz src dst ∨ i = Instr.subEaDn sz src dst) ∨
      (∃ sz src dst, i = Instr.addDnEa sz src dst ∨ i = Instr.subDnEa sz src dst) ∨
      (∃ sz imm dst, i = Instr.addi sz imm dst ∨ i = Instr.subi sz imm dst) ∨
      (∃ sz q dst, (∀ r, dst ≠ .an r) ∧ (i = Instr.addq sz q dst ∨ i = Instr.subq sz q dst)) ∨
      (∃ sz src dst, i = Instr.addxReg sz src dst ∨ i = Instr.subxReg sz src dst ∨
        i = Instr.addxMem sz src dst ∨ i = Instr.subxMem sz src dst) ∨
      (∃ sz dst, i = Instr.neg sz dst ∨ i = Instr.negx sz dst)
    (writesX → t.flags.x = t.flags.c) ∧ (¬ writesX → t.flags.x = s.flags.x)

/-- Only ADDX, SUBX and NEGX read a flag (spec/10_state.md rule R29): any other instruction started with other
flags does the same to everything else, and each flag it leaves is either the same or the one it started
with. -/
def Obligations.FlagsAreNotRead : Prop :=
  ∀ (i : Instr) (s t : State) (f : Flags),
    (∀ sz src dst, i ≠ Instr.addxReg sz src dst ∧ i ≠ Instr.addxMem sz src dst ∧
      i ≠ Instr.subxReg sz src dst ∧ i ≠ Instr.subxMem sz src dst) →
    (∀ sz dst, i ≠ Instr.negx sz dst) →
    exec i s = .next t →
    ∃ t', exec i (s.setFlags f) = .next t' ∧ t'.d = t.d ∧ t'.a = t.a ∧ t'.mem = t.mem ∧ t'.pc = t.pc ∧
      t'.layout = t.layout ∧ t'.draws = t.draws ∧
      (t'.flags.n = t.flags.n ∨ t'.flags.n = f.n ∧ t.flags.n = s.flags.n) ∧
      (t'.flags.z = t.flags.z ∨ t'.flags.z = f.z ∧ t.flags.z = s.flags.z) ∧
      (t'.flags.v = t.flags.v ∨ t'.flags.v = f.v ∧ t.flags.v = s.flags.v) ∧
      (t'.flags.c = t.flags.c ∨ t'.flags.c = f.c ∧ t.flags.c = s.flags.c) ∧
      (t'.flags.x = t.flags.x ∨ t'.flags.x = f.x ∧ t.flags.x = s.flags.x)

/-- A Byte or Word operation keeps bits 31..n of every data register, but for the multiplies and divides
(spec/10_state.md rule R21, spec/00_scope.md rule R12). -/
def Obligations.UpperBitsKept : Prop :=
  ∀ (i : Instr) (s t : State) (q : Reg),
    (∀ src dst, i ≠ .muls src dst ∧ i ≠ .mulu src dst ∧ i ≠ .divs src dst ∧ i ≠ .divu src dst) →
    exec i s = .next t → t.dreg q >>> i.info.size.bits = s.dreg q >>> i.info.size.bits

/-- The only ways an instruction changes an address register (spec/10_state.md rule R22): ADDA and SUBA to it,
ADDQ and SUBQ to it, a postincrement or predecrement of it. -/
def Obligations.AddressRegisterWriters : Prop :=
  ∀ (i : Instr) (s t : State) (q : Reg), exec i s = .next t → t.areg q ≠ s.areg q →
    (∃ long src, i = Instr.adda long src q ∨ i = Instr.suba long src q) ∨
    (∃ sz n, i = Instr.addq sz n (.an q) ∨ i = Instr.subq sz n (.an q)) ∨
    (∃ cat, i.info.ea = some (cat, .postInc q) ∨ i.info.ea = some (cat, .preDec q)) ∨
    (∃ sz r, i = Instr.addxMem sz q r ∨ i = Instr.addxMem sz r q ∨ i = Instr.subxMem sz q r ∨
      i = Instr.subxMem sz r q ∨ i = Instr.cmpm sz q r ∨ i = Instr.cmpm sz r q)

/-- A step that ends in a trap, fault or refusal leaves data registers, memory, pc, the parameters and X as they
were, and every flag too unless it is the trap (spec/60_exceptions.md rules R230, R233, R234, R235). -/
def Obligations.StoppedStepKeeps : Prop :=
  ∀ s : State,
    (∀ f, step s = .fault f →
      let t := f.state
      t.d = s.d ∧ t.mem = s.mem ∧ t.pc = s.pc ∧ t.layout = s.layout ∧ t.flags.x = s.flags.x ∧
        (t.flags = s.flags ∨ ∃ t', f = .zeroDivide t')) ∧
    (∀ r, step s = .refused r →
      ∃ t, r.state = some t ∧ t.d = s.d ∧ t.mem = s.mem ∧ t.pc = s.pc ∧ t.layout = s.layout ∧
        t.flags = s.flags)

/-- What each stop of a well-formed instruction says is true, of the instruction and of the terminal state it
carries, and no well-formed instruction ends in any other way (spec/60_exceptions.md rules R230, R232 to
R235).  The address a stop records is that of the access: assumption log entry 11. -/
def Obligations.StopCauses : Prop :=
  ∀ (i : Instr) (s : State), i.wf = true →
    (∀ f, exec i s = .fault f →
      TerminalOf i s f.state ∧
      ((∃ t src dst, f = .zeroDivide t ∧ (i = .divs src dst ∨ i = .divu src dst) ∧
          (locValue .word (resolveEa .word src s).1 (resolveEa .word src s).2 : Word) = 0#16 ∧
          OnlyEaStep .word src s t) ∨
        (∃ kind addr t, f = .addressError kind i.info.size.bytes addr t ∧ t.flags = s.flags ∧
          i.info.size ≠ .byte ∧ addr.toNat % 2 = 1) ∨
        (∃ addr t, f = .accessFault addr t ∧ t.flags = s.flags ∧
          ∃ k < i.info.size.bytes, t.layout.admits (addr + BitVec.ofNat 32 k) = false))) ∧
    (∀ r, exec i s = .refused r →
      (∃ addr t, r = .writeToProgramText addr t ∧ TerminalOf i s t ∧ t.flags = s.flags ∧
        ∃ k < i.info.size.bytes, t.layout.inText (addr + BitVec.ofNat 32 k) = true) ∨
      (∃ long src dst, r = .overlapUnspecified s ∧ (src = .postInc dst ∨ src = .preDec dst) ∧
        (i = Instr.adda long src dst ∨ i = Instr.suba long src dst ∨ i = Instr.cmpa long src dst)))

/-! ## Steps and runs -/

/-- When the words at pc, fetchable, decode to an instruction, the step is the instruction's meaning and nothing
else (spec/20_memory.md rules R63, R69). -/
def Obligations.StepRunsDecoded : Prop :=
  ∀ (s : State) (i : Instr) (w : Word) (ws : List Word),
    decode (w :: ws) = .instr i [] → s.pc.toNat ≠ s.layout.endAddr → s.pc.toNat % 2 = 0 →
    (∀ k, k ≤ ws.length →
      allBytes s.layout.inText (fetchAddr s k) 2 = true ∧
      allBytes s.layout.admits (fetchAddr s k) 2 = true ∧
      some (s.valueAt .word (fetchAddr s k) : Word) = (w :: ws)[k]?) →
    step s = exec i s

/-- How a step stops before any instruction is executed: at EndAddr, at an odd pc, at a word outside
ProgramText, at an operation word out of scope, at a reserved index word (spec/20_memory.md rules R44,
R69, spec/30_encoding.md rules R91, R97, spec/70_reset_and_hazards.md rule R263).  That an odd pc outside
ProgramText is an AddressError first, and that the index word is refused after all words are fetched, is the
model's reading: assumption log entries 12 and 15. -/
def Obligations.FetchStops : Prop :=
  ∀ s : State, s.layout.Ok →
    let word := fun k => (s.valueAt .word (fetchAddr s k) : Word)
    let inText := fun k => allBytes s.layout.inText (fetchAddr s k) 2 = true
    (s.pc.toNat = s.layout.endAddr → step s = .fault (.endOfRun s)) ∧
    (s.pc.toNat ≠ s.layout.endAddr →
      (s.pc.toNat % 2 = 1 → step s = .fault (.addressError .fetch 2 s.pc s)) ∧
      (s.pc.toNat % 2 = 0 → ¬ inText 0 → step s = .refused (.fetchOutsideProgram s.pc s)) ∧
      (s.pc.toNat % 2 = 0 → inText 0 → decodeOp (word 0) = none →
        step s = .refused (.notInScope (word 0) s)) ∧
      (∀ f k, s.pc.toNat % 2 = 0 → decodeOp (word 0) = some f → 1 ≤ k → k ≤ f.extCount →
        (∀ j, j < k → inText j) → ¬ inText k →
        step s = .refused (.fetchOutsideProgram (fetchAddr s k) s)) ∧
      (∀ f x, s.pc.toNat % 2 = 0 → decodeOp (word 0) = some f → (∀ j, j ≤ f.extCount → inText j) →
        decode ((List.range (f.extCount + 1)).map word) = .error (.indexWordReserved x) →
        step s = .refused (.indexWordReserved x s)))

/-- Loading the bytes of a well-formed instruction at an even pc makes the next step run exactly it: encoder,
memory, fetch and decoder agree.  `loadProgram` is the model's own (assumption log entry 10). -/
def Obligations.LoadedInstructionRuns : Prop :=
  ∀ (s : State) (i : Instr), i.wf = true → s.pc.toNat % 2 = 0 → s.pc.toNat + i.length < 2 ^ 32 →
    let u := loadProgram s (encodeBytes i)
    step u = exec i u

/-- Every step from a legal state leads to a legal state (rules R25, R26, R44, R263): the parameters stay legal,
memory stays in canonical form, pc stays even and inside the program. -/
def Obligations.StepKeepsLegal : Prop :=
  ∀ s t : State, s.Inv → step s = .next t → t.Inv

/-- No run changes a byte of ProgramText or the parameters (spec/20_memory.md rule R70). -/
def Obligations.ProgramTextIsImmutable : Prop :=
  ∀ s t : State, Reaches s t →
    t.layout = s.layout ∧ ∀ addr : Long, s.layout.inText addr = true → t.byteAt addr = s.byteAt addr

/-- Every run is finite (spec/70_reset_and_hazards.md rule R264): a step raises pc by at least 2, pc does not
pass TextEnd, so there is a number of steps that the run does not reach. -/
def Obligations.RunsAreFinite : Prop :=
  ∀ s : State, s.Inv →
    (∀ t, step s = .next t → s.pc.toNat + 2 ≤ t.pc.toNat ∧ t.pc.toNat ≤ s.layout.textEnd) ∧
    ∃ k, k ≤ (s.layout.textEnd - s.pc.toNat) / 2 + 1 ∧
      ∀ t : State, Host.Core.run Sys2Proof.core k s ≠ .next t

/-! ## Assembler level -/

/-- The table of generic mnemonics, of what is assembled (spec/30_encoding.md rule R111).  Every list of operands of
ADD, SUB and CMP falls under one of the clauses, which says what it is assembled as: to An the address form
(Byte never, 90_conflicts.md C6), to Dn the form `<ea>,Dn`, an immediate elsewhere the immediate form, Dn to
memory the form `Dn,<ea>` of ADD and SUB, two postincrements CMPM, anything else nothing.  A form is accepted
exactly when the instruction it stands for is well formed.  Every other mnemonic is assembled as itself.
That acceptance is well-formedness, and that immediate data must fit, is the model's: assumption log entry
19. -/
def Obligations.GenericMnemonics : Prop :=
  let accepted := fun i : Instr => if i.wf then some i else none
  let generic : List Mnemonic := [.add, .sub, .cmp]
  (∀ (long : Bool) (src : Ea) (r : Reg),
    let sz : Size := if long then .long else .word
    assemble .add (some sz) [src, .an r] = accepted (Instr.adda long src r) ∧
    assemble .sub (some sz) [src, .an r] = accepted (Instr.suba long src r) ∧
    assemble .cmp (some sz) [src, .an r] = accepted (Instr.cmpa long src r)) ∧
  (∀ (sz : Size) (v : Long) (dst : Ea), v.toNat < 2 ^ sz.bits → (∀ r, dst ≠ .dn r) → (∀ r, dst ≠ .an r) →
    assemble .add (some sz) [.imm v, dst] = accepted (Instr.addi sz v dst) ∧
    assemble .sub (some sz) [.imm v, dst] = accepted (Instr.subi sz v dst) ∧
    assemble .cmp (some sz) [.imm v, dst] = accepted (Instr.cmpi sz v dst)) ∧
  (∀ m ∈ generic, ∀ (src : Ea) (r : Reg), assemble m (some .byte) [src, .an r] = none) ∧
  (∀ m ∈ generic, ∀ (sz : Size) (v : Long) (dst : Ea),
    2 ^ sz.bits ≤ v.toNat → (∀ r, dst ≠ .dn r) → (∀ r, dst ≠ .an r) →
    assemble m (some sz) [.imm v, dst] = none) ∧
  (∀ (sz : Size) (src : Ea) (r : Reg),
    assemble .add (some sz) [src, .dn r] = accepted (Instr.addEaDn sz src r) ∧
    assemble .sub (some sz) [src, .dn r] = accepted (Instr.subEaDn sz src r) ∧
    assemble .cmp (some sz) [src, .dn r] = accepted (Instr.cmp sz src r)) ∧
  (∀ (sz : Size) (q : Reg) (dst : Ea), (∀ r, dst ≠ .dn r) → (∀ r, dst ≠ .an r) →
    assemble .add (some sz) [.dn q, dst] = accepted (Instr.addDnEa sz q dst) ∧
    assemble .sub (some sz) [.dn q, dst] = accepted (Instr.subDnEa sz q dst)) ∧
  (∀ (sz : Size) (q r : Reg), assemble .add (some sz) [.dn q, .dn r] = some (Instr.addEaDn sz (.dn q) r)) ∧
  (∀ (sz : Size) (y x : Reg),
    assemble .cmp (some sz) [.postInc y, .postInc x] = some (Instr.cmpm sz y x)) ∧
  (∀ m ∈ generic, ∀ (sz : Size) (src dst : Ea), (∀ r, dst ≠ .dn r) → (∀ r, dst ≠ .an r) → (∀ v, src ≠ .imm v) →
    (∀ q, src = .dn q → m = .cmp) →
    (m = .cmp → ∀ y x, src = .postInc y → dst ≠ .postInc x) →
    assemble m (some sz) [src, dst] = none) ∧
  (∀ m ∈ generic, ∀ (sz : Size) (operands : List Ea), operands.length ≠ 2 →
    assemble m (some sz) operands = none) ∧
  (∀ (m : Mnemonic) (suffix : Option Size) (operands : List Ea) (i : Instr),
    assemble m suffix operands = some i →
    mnemonicOf i = m ∨ (m = .add ∧ mnemonicOf i ∈ [Mnemonic.adda, .addi]) ∨
      (m = .sub ∧ mnemonicOf i ∈ [Mnemonic.suba, .subi]) ∨
      (m = .cmp ∧ mnemonicOf i ∈ [Mnemonic.cmpa, .cmpi, .cmpm]))

/-- A missing suffix is Word, but Byte for TAS (spec/30_encoding.md rule R112); the divides and multiplies have no
suffix but Word (rules R110, R112); what is assembled is of the size written and well formed, which rests
on rule R98 and on assumption log entry 19. -/
def Obligations.DefaultSize : Prop :=
  ∀ (m : Mnemonic) (operands : List Ea),
    assemble m none operands = assemble m (some (if m = .tas then .byte else .word)) operands ∧
    ∀ (sz : Size) (i : Instr), assemble m (some sz) operands = some i →
      i.wf = true ∧ i.info.size = sz ∧ (m ∈ [Mnemonic.divs, .divu, .muls, .mulu] → sz = .word)

/-! ## Launch -/

/-- Every launch state is a legal state whose pc is inside ProgramText, so that its first operation word can be
fetched (spec/70_reset_and_hazards.md rules R260, R263).  That State.reset is a launch state rests on
assumption log entries 1 to 5. -/
def Obligations.LaunchIsLegal : Prop :=
  (∀ s : State, s.IsLaunch →
    s.Inv ∧ s.layout.textBase ≤ s.pc.toNat ∧ s.pc.toNat < s.layout.textEnd ∧
    fetchWord s 0 = .next (s.valueAt .word s.pc)) ∧
  State.reset.IsLaunch
end

