-- ==== Sys2Proof/Laws/State.lean ====
section
/-!
SUPPORT. What each register accessor reads after each update of the state: one lemma per field per update, so
that no later proof unfolds a record update.
-/

namespace Sys2Proof.Machine

theorem vector_get_set (v : Vector Long 8) (r q : Reg) (x : Long) :
    (v.set r x)[q] = if q = r then x else v[q] := by
  by_cases h : q = r
  · subst h; simp
  · rw [if_neg h]
    exact Vector.getElem_set_ne _ _ (fun e => h (Fin.ext e.symm))

/-! ## setDreg -/

@[simp] theorem dreg_setDreg (s : State) (r q : Reg) (v : Long) :
    (s.setDreg r v).dreg q = if q = r then v else s.dreg q := vector_get_set s.d r q v
@[simp] theorem areg_setDreg (s : State) (r q : Reg) (v : Long) : (s.setDreg r v).areg q = s.areg q := rfl
@[simp] theorem a_setDreg (s : State) (r : Reg) (v : Long) : (s.setDreg r v).a = s.a := rfl
@[simp] theorem pc_setDreg (s : State) (r : Reg) (v : Long) : (s.setDreg r v).pc = s.pc := rfl
@[simp] theorem flags_setDreg (s : State) (r : Reg) (v : Long) : (s.setDreg r v).flags = s.flags := rfl
@[simp] theorem mem_setDreg (s : State) (r : Reg) (v : Long) : (s.setDreg r v).mem = s.mem := rfl
@[simp] theorem layout_setDreg (s : State) (r : Reg) (v : Long) : (s.setDreg r v).layout = s.layout := rfl
@[simp] theorem draws_setDreg (s : State) (r : Reg) (v : Long) : (s.setDreg r v).draws = s.draws := rfl

/-! ## setAreg -/

@[simp] theorem areg_setAreg (s : State) (r q : Reg) (v : Long) :
    (s.setAreg r v).areg q = if q = r then v else s.areg q := vector_get_set s.a r q v
@[simp] theorem dreg_setAreg (s : State) (r q : Reg) (v : Long) : (s.setAreg r v).dreg q = s.dreg q := rfl
@[simp] theorem d_setAreg (s : State) (r : Reg) (v : Long) : (s.setAreg r v).d = s.d := rfl
@[simp] theorem pc_setAreg (s : State) (r : Reg) (v : Long) : (s.setAreg r v).pc = s.pc := rfl
@[simp] theorem flags_setAreg (s : State) (r : Reg) (v : Long) : (s.setAreg r v).flags = s.flags := rfl
@[simp] theorem mem_setAreg (s : State) (r : Reg) (v : Long) : (s.setAreg r v).mem = s.mem := rfl
@[simp] theorem layout_setAreg (s : State) (r : Reg) (v : Long) : (s.setAreg r v).layout = s.layout := rfl
@[simp] theorem draws_setAreg (s : State) (r : Reg) (v : Long) : (s.setAreg r v).draws = s.draws := rfl

/-! ## setFlags -/

@[simp] theorem flags_setFlags (s : State) (f : Flags) : (s.setFlags f).flags = f := rfl
@[simp] theorem dreg_setFlags (s : State) (f : Flags) (q : Reg) : (s.setFlags f).dreg q = s.dreg q := rfl
@[simp] theorem areg_setFlags (s : State) (f : Flags) (q : Reg) : (s.setFlags f).areg q = s.areg q := rfl
@[simp] theorem d_setFlags (s : State) (f : Flags) : (s.setFlags f).d = s.d := rfl
@[simp] theorem a_setFlags (s : State) (f : Flags) : (s.setFlags f).a = s.a := rfl
@[simp] theorem pc_setFlags (s : State) (f : Flags) : (s.setFlags f).pc = s.pc := rfl
@[simp] theorem mem_setFlags (s : State) (f : Flags) : (s.setFlags f).mem = s.mem := rfl
@[simp] theorem layout_setFlags (s : State) (f : Flags) : (s.setFlags f).layout = s.layout := rfl
@[simp] theorem draws_setFlags (s : State) (f : Flags) : (s.setFlags f).draws = s.draws := rfl

/-! ## advance -/

@[simp] theorem pc_advance (s : State) (k : Nat) : (s.advance k).pc = s.pc + BitVec.ofNat 32 k := rfl
@[simp] theorem dreg_advance (s : State) (k : Nat) (q : Reg) : (s.advance k).dreg q = s.dreg q := rfl
@[simp] theorem areg_advance (s : State) (k : Nat) (q : Reg) : (s.advance k).areg q = s.areg q := rfl
@[simp] theorem d_advance (s : State) (k : Nat) : (s.advance k).d = s.d := rfl
@[simp] theorem a_advance (s : State) (k : Nat) : (s.advance k).a = s.a := rfl
@[simp] theorem flags_advance (s : State) (k : Nat) : (s.advance k).flags = s.flags := rfl
@[simp] theorem mem_advance (s : State) (k : Nat) : (s.advance k).mem = s.mem := rfl
@[simp] theorem layout_advance (s : State) (k : Nat) : (s.advance k).layout = s.layout := rfl
@[simp] theorem draws_advance (s : State) (k : Nat) : (s.advance k).draws = s.draws := rfl

/-! ## withValue -/

@[simp] theorem mem_withValue (s : State) (sz : Size) (addr : Long) (v : BitVec sz.bits) :
    (s.withValue sz addr v).mem = writeBE s.mem addr v.toNat sz.bytes := rfl
@[simp] theorem dreg_withValue (s : State) (sz : Size) (addr : Long) (v : BitVec sz.bits) (q : Reg) :
    (s.withValue sz addr v).dreg q = s.dreg q := rfl
@[simp] theorem areg_withValue (s : State) (sz : Size) (addr : Long) (v : BitVec sz.bits) (q : Reg) :
    (s.withValue sz addr v).areg q = s.areg q := rfl
@[simp] theorem d_withValue (s : State) (sz : Size) (addr : Long) (v : BitVec sz.bits) :
    (s.withValue sz addr v).d = s.d := rfl
@[simp] theorem a_withValue (s : State) (sz : Size) (addr : Long) (v : BitVec sz.bits) :
    (s.withValue sz addr v).a = s.a := rfl
@[simp] theorem pc_withValue (s : State) (sz : Size) (addr : Long) (v : BitVec sz.bits) :
    (s.withValue sz addr v).pc = s.pc := rfl
@[simp] theorem flags_withValue (s : State) (sz : Size) (addr : Long) (v : BitVec sz.bits) :
    (s.withValue sz addr v).flags = s.flags := rfl
@[simp] theorem layout_withValue (s : State) (sz : Size) (addr : Long) (v : BitVec sz.bits) :
    (s.withValue sz addr v).layout = s.layout := rfl
@[simp] theorem draws_withValue (s : State) (sz : Size) (addr : Long) (v : BitVec sz.bits) :
    (s.withValue sz addr v).draws = s.draws := rfl

/-! ## The low part of a data register -/

theorem bits_le (sz : Size) : sz.bits ≤ 32 := by cases sz <;> decide

theorem bits_pos (sz : Size) : 0 < sz.bits := by cases sz <;> decide

theorem bits_eq_bytes (sz : Size) : sz.bits = 8 * sz.bytes := by cases sz <;> rfl

/-- Bit `i` of a register after its low part is replaced (rule R12). -/
theorem getLsbD_mergeLow (sz : Size) (old : Long) (v : BitVec sz.bits) (i : Nat) :
    (mergeLow sz old v).getLsbD i = if i < sz.bits then v.getLsbD i else old.getLsbD i := by
  have hb := bits_le sz
  simp only [mergeLow, BitVec.getLsbD_or, BitVec.getLsbD_shiftLeft, BitVec.getLsbD_ushiftRight,
    BitVec.getLsbD_setWidth]
  by_cases h : i < sz.bits
  · simp [h, show i < 32 by omega]
  · by_cases h32 : i < 32
    · simp [h, h32, Nat.add_sub_cancel' (Nat.le_of_not_lt h), BitVec.getLsbD_of_ge v i (by omega)]
    · simp [h, h32, BitVec.getLsbD_of_ge old i (by omega)]

theorem lowPart_mergeLow (sz : Size) (old : Long) (v : BitVec sz.bits) :
    lowPart sz (mergeLow sz old v) = v := by
  apply BitVec.eq_of_getLsbD_eq
  intro i hi
  simp [lowPart, getLsbD_mergeLow, hi]

theorem upper_mergeLow (sz : Size) (old : Long) (v : BitVec sz.bits) :
    mergeLow sz old v >>> sz.bits = old >>> sz.bits := by
  apply BitVec.eq_of_getLsbD_eq
  intro i hi
  simp [BitVec.getLsbD_ushiftRight, getLsbD_mergeLow]

@[simp] theorem dreg_setDlow (s : State) (sz : Size) (r q : Reg) (v : BitVec sz.bits) :
    (s.setDlow sz r v).dreg q = if q = r then mergeLow sz (s.dreg r) v else s.dreg q := dreg_setDreg _ _ _ _
@[simp] theorem areg_setDlow (s : State) (sz : Size) (r q : Reg) (v : BitVec sz.bits) :
    (s.setDlow sz r v).areg q = s.areg q := rfl
@[simp] theorem a_setDlow (s : State) (sz : Size) (r : Reg) (v : BitVec sz.bits) :
    (s.setDlow sz r v).a = s.a := rfl
@[simp] theorem pc_setDlow (s : State) (sz : Size) (r : Reg) (v : BitVec sz.bits) :
    (s.setDlow sz r v).pc = s.pc := rfl
@[simp] theorem flags_setDlow (s : State) (sz : Size) (r : Reg) (v : BitVec sz.bits) :
    (s.setDlow sz r v).flags = s.flags := rfl
@[simp] theorem mem_setDlow (s : State) (sz : Size) (r : Reg) (v : BitVec sz.bits) :
    (s.setDlow sz r v).mem = s.mem := rfl
@[simp] theorem layout_setDlow (s : State) (sz : Size) (r : Reg) (v : BitVec sz.bits) :
    (s.setDlow sz r v).layout = s.layout := rfl
@[simp] theorem draws_setDlow (s : State) (sz : Size) (r : Reg) (v : BitVec sz.bits) :
    (s.setDlow sz r v).draws = s.draws := rfl

end Sys2Proof.Machine
end

