-- ==== Sys2Proof/Laws/Memory.lean ====
section
/-!
SUPPORT. The laws of memory: reading after writing, for one byte and for big-endian values, and that every
memory operation keeps the canonical form.  Read-after-write needs no premise on the memory.
-/

namespace Sys2Proof.Machine

/-! ## One byte -/

theorem read_erase (m : Memory) (a a' : Nat) :
    Memory.read (Memory.erase m a) a' = if a' = a then Memory.unlisted else Memory.read m a' := by
  induction m with
  | nil => simp [Memory.erase, Memory.read]
  | cons p rest ih =>
    obtain ⟨k, b⟩ := p
    by_cases hk : k = a
    · subst hk
      simp only [Memory.erase, if_true, ih, Memory.read]
      by_cases h : a' = k
      · simp [h]
      · simp [h, Ne.symm h]
    · simp only [Memory.erase, if_neg hk, Memory.read, ih]
      by_cases h : k = a'
      · subst h; simp [hk]
      · simp [h]

theorem read_insert (m : Memory) (a : Nat) (b : Byte) (a' : Nat)
    (hm : Memory.read m a = Memory.unlisted) (hk : ∀ p ∈ m, p.1 ≠ a) :
    Memory.read (Memory.insert m a b) a' = if a' = a then b else Memory.read m a' := by
  induction m with
  | nil =>
    by_cases h : a' = a
    · simp [Memory.insert, Memory.read, h]
    · simp [Memory.insert, Memory.read, h, Ne.symm h]
  | cons p rest ih =>
    obtain ⟨k, c⟩ := p
    have hka : k ≠ a := hk (k, c) (by simp)
    have hrest : ∀ p ∈ rest, p.1 ≠ a := fun p hp => hk p (by simp [hp])
    have hmr : Memory.read rest a = Memory.unlisted := by simpa [Memory.read, hka] using hm
    by_cases hlt : a < k
    · by_cases h : a' = a
      · simp [Memory.insert, hlt, Memory.read, h]
      · simp [Memory.insert, hlt, Memory.read, h, Ne.symm h]
    · simp only [Memory.insert, if_neg hlt, Memory.read, ih hmr hrest]
      by_cases h : a' = a
      · subst h; simp [hka]
      · simp [h]

theorem not_mem_erase (m : Memory) (a : Nat) : ∀ p ∈ Memory.erase m a, p.1 ≠ a := by
  induction m with
  | nil => simp [Memory.erase]
  | cons p rest ih =>
    obtain ⟨k, b⟩ := p
    by_cases hk : k = a
    · simpa [Memory.erase, hk] using ih
    · intro q hq
      simp only [Memory.erase, if_neg hk, List.mem_cons] at hq
      rcases hq with rfl | hq
      · exact hk
      · exact ih q hq

/-- Reading after writing: the written byte at its address, the old byte at every other. -/
@[simp] theorem read_write (m : Memory) (a : Nat) (b : Byte) (a' : Nat) :
    Memory.read (Memory.write m a b) a' = if a' = a then b else Memory.read m a' := by
  unfold Memory.write
  by_cases hb : b = Memory.unlisted
  · rw [if_pos hb, read_erase, hb]
  · rw [if_neg hb, read_insert _ _ _ _ (by simp [read_erase]) (not_mem_erase m a), read_erase]
    by_cases h : a' = a <;> simp [h]

/-! ## The canonical form -/

theorem wfFrom_mono (m : Memory) (lo lo' : Nat) (h : lo' ≤ lo) (hm : Memory.wfFrom lo m = true) :
    Memory.wfFrom lo' m = true := by
  cases m with
  | nil => rfl
  | cons p rest =>
    obtain ⟨k, b⟩ := p
    simp only [Memory.wfFrom, Bool.and_eq_true, decide_eq_true_eq] at hm ⊢
    exact ⟨⟨⟨by omega, hm.1.1.2⟩, hm.1.2⟩, hm.2⟩

theorem wfFrom_erase (m : Memory) (lo a : Nat) (hm : Memory.wfFrom lo m = true) :
    Memory.wfFrom lo (Memory.erase m a) = true := by
  induction m generalizing lo with
  | nil => rfl
  | cons p rest ih =>
    obtain ⟨k, b⟩ := p
    simp only [Memory.wfFrom, Bool.and_eq_true, decide_eq_true_eq] at hm
    by_cases hk : k = a
    · simp only [Memory.erase, if_pos hk]
      exact ih lo (wfFrom_mono rest (k + 1) lo (by omega) hm.2)
    · simp only [Memory.erase, if_neg hk, Memory.wfFrom, Bool.and_eq_true, decide_eq_true_eq]
      exact ⟨hm.1, ih (k + 1) hm.2⟩

theorem wfFrom_insert (m : Memory) (lo a : Nat) (b : Byte) (hm : Memory.wfFrom lo m = true)
    (hlo : lo ≤ a) (ha : a < 2 ^ 32) (hb : b ≠ Memory.unlisted) (hk : ∀ p ∈ m, p.1 ≠ a) :
    Memory.wfFrom lo (Memory.insert m a b) = true := by
  induction m generalizing lo with
  | nil => simp [Memory.insert, Memory.wfFrom, hlo, hb]; omega
  | cons p rest ih =>
    obtain ⟨k, c⟩ := p
    have hka : k ≠ a := hk (k, c) (by simp)
    simp only [Memory.wfFrom, Bool.and_eq_true, decide_eq_true_eq, bne_iff_ne] at hm
    by_cases hlt : a < k
    · simp only [Memory.insert, if_pos hlt, Memory.wfFrom, Bool.and_eq_true, decide_eq_true_eq, bne_iff_ne]
      exact ⟨⟨⟨hlo, ha⟩, hb⟩, ⟨⟨by omega, hm.1.1.2⟩, hm.1.2⟩, hm.2⟩
    · simp only [Memory.insert, if_neg hlt, Memory.wfFrom, Bool.and_eq_true, decide_eq_true_eq, bne_iff_ne]
      exact ⟨hm.1, ih (k + 1) hm.2 (by omega) (fun p hp => hk p (by simp [hp]))⟩

/-- Writing a byte keeps the canonical form. -/
theorem write_wf (m : Memory) (a : Nat) (b : Byte) (ha : a < 2 ^ 32) (hm : m.wf = true) :
    (Memory.write m a b).wf = true := by
  unfold Memory.write Memory.wf
  by_cases hb : b = Memory.unlisted
  · rw [if_pos hb]; exact wfFrom_erase m 0 a hm
  · rw [if_neg hb]
    exact wfFrom_insert _ 0 a b (wfFrom_erase m 0 a hm) (by omega) ha hb (not_mem_erase m a)

/-- Storing a big-endian value keeps the canonical form. -/
theorem writeBE_wf (m : Memory) (addr : Long) (v k : Nat) (hm : m.wf = true) :
    (writeBE m addr v k).wf = true := by
  induction k generalizing m addr with
  | zero => exact hm
  | succ k ih => exact ih _ _ (write_wf m _ _ addr.isLt hm)

/-- Placing bytes keeps the canonical form. -/
theorem placeBytes_wf (m : Memory) (addr : Long) (bs : List Byte) (hm : m.wf = true) :
    (placeBytes m addr bs).wf = true := by
  induction bs generalizing m addr with
  | nil => exact hm
  | cons b bs ih => exact ih _ _ (write_wf m _ _ addr.isLt hm)

theorem withValue_wf (s : State) (sz : Size) (addr : Long) (v : BitVec sz.bits) (hm : s.mem.wf = true) :
    (s.withValue sz addr v).mem.wf = true := writeBE_wf _ _ _ _ hm

/-! ## Big-endian values -/

/-- A byte outside the stored range reads as before. -/
theorem read_writeBE_outside (m : Memory) (addr : Long) (v k : Nat) (a : Long)
    (h : ∀ j : Nat, j < k → a ≠ addr + BitVec.ofNat 32 j) :
    Memory.read (writeBE m addr v k) a.toNat = Memory.read m a.toNat := by
  induction k generalizing m addr with
  | zero => rfl
  | succ k ih =>
    have h0 : a ≠ addr := by simpa using h 0 (by omega)
    have hs : ∀ j : Nat, j < k → a ≠ addr + 1 + BitVec.ofNat 32 j := by
      intro j hj e
      refine h (j + 1) (by omega) ?_
      rw [e, BitVec.add_assoc]
      congr 1
      apply BitVec.eq_of_toNat_eq
      simp [Nat.add_comm]
    rw [writeBE, ih _ _ hs, read_write, if_neg (fun e => h0 (BitVec.eq_of_toNat_eq e))]

/-- A big-endian value read back is the value stored, modulo its width. -/
theorem readBE_writeBE (m : Memory) (addr : Long) (v k : Nat) (hk : k ≤ 4) :
    readBE (writeBE m addr v k) addr k = v % 256 ^ k := by
  induction k generalizing m addr with
  | zero => simp [readBE, Nat.mod_one]
  | succ k ih =>
    have hout : Memory.read (writeBE (Memory.write m addr.toNat (BitVec.ofNat 8 (v / 256 ^ k))) (addr + 1) v k)
        addr.toNat = BitVec.ofNat 8 (v / 256 ^ k) := by
      rw [read_writeBE_outside, read_write, if_pos rfl]
      intro j hj e
      have := congrArg BitVec.toNat e
      have h1 := addr.isLt
      simp [BitVec.toNat_add] at this
      omega
    have hm : v % 256 ^ (k + 1) = v % 256 ^ k + 256 ^ k * (v / 256 ^ k % 256) := Nat.mod_mul
    rw [readBE, writeBE, hout, ih _ _ (by omega), BitVec.toNat_ofNat, hm, Nat.mul_comm (256 ^ k),
      Nat.add_comm]

theorem readBE_lt (m : Memory) (addr : Long) (k : Nat) : readBE m addr k < 256 ^ k := by
  induction k generalizing addr with
  | zero => simp [readBE]
  | succ k ih =>
    have h1 := ih (addr + 1)
    have h2 := (Memory.read m addr.toNat).isLt
    simp only [readBE, pow_succ]
    nlinarith

theorem readBE_congr (m m' : Memory) (addr : Long) (k : Nat)
    (h : ∀ a : Long, Memory.read m' a.toNat = Memory.read m a.toNat) : readBE m' addr k = readBE m addr k := by
  induction k generalizing addr with
  | zero => rfl
  | succ k ih => rw [readBE, readBE, h, ih]

/-- A value stored and read back (rule R42). -/
@[simp] theorem valueAt_withValue (s : State) (sz : Size) (addr : Long) (v : BitVec sz.bits) :
    (s.withValue sz addr v).valueAt sz addr = v := by
  unfold State.valueAt
  rw [mem_withValue, readBE_writeBE _ _ _ _ (by cases sz <;> decide), Nat.mod_eq_of_lt]
  · simp
  · have := v.isLt
    cases sz <;> exact this

/-- A store leaves every other byte alone (rule R42). -/
theorem sameMemOutside_withValue (s : State) (sz : Size) (addr : Long) (v : BitVec sz.bits) :
    SameMemOutside sz addr s (s.withValue sz addr v) :=
  fun a h => read_writeBE_outside _ _ _ _ a h

end Sys2Proof.Machine
end

