-- ==== Sys2Proof/Laws/Ops.lean ====
section
/-!
SUPPORT. What the shared operations can answer, said once: `andThen`, the two memory accesses, `resolveEa`,
`readLoc`, `writeLoc`, `readEa`.
-/

namespace Sys2Proof.Machine

/-! ## andThen -/

@[simp] theorem andThen_next {α β : Type} (x : α) (k : α → Result β) : andThen (.next x) k = k x := rfl
@[simp] theorem andThen_fault {α β : Type} (f : Fault) (k : α → Result β) :
    andThen (.fault f) k = .fault f := rfl
@[simp] theorem andThen_refused {α β : Type} (r : Refusal) (k : α → Result β) :
    andThen (.refused r) k = .refused r := rfl

theorem andThen_eq_next {α β : Type} {m : Result α} {k : α → Result β} {y : β} :
    andThen m k = .next y ↔ ∃ x, m = .next x ∧ k x = .next y := by
  cases m <;> simp

theorem andThen_eq_fault {α β : Type} {m : Result α} {k : α → Result β} {f : Fault} :
    andThen m k = .fault f ↔ m = .fault f ∨ ∃ x, m = .next x ∧ k x = .fault f := by
  cases m <;> simp

theorem andThen_eq_refused {α β : Type} {m : Result α} {k : α → Result β} {r : Refusal} :
    andThen m k = .refused r ↔ m = .refused r ∨ ∃ x, m = .next x ∧ k x = .refused r := by
  cases m <;> simp

/-- An access that `accessStop` allows, or its stop: the form of every read. -/
def orStop {α : Type} (stop : Option Fault) (x : α) : Result α :=
  match stop with
  | some f => .fault f
  | none => .next x

@[simp] theorem orStop_none {α : Type} (x : α) : orStop none x = .next x := rfl
@[simp] theorem orStop_some {α : Type} (f : Fault) (x : α) : orStop (some f) x = .fault f := rfl

theorem orStop_eq_next {α : Type} {stop : Option Fault} {x y : α} :
    orStop stop x = .next y ↔ stop = none ∧ x = y := by cases stop <;> simp

theorem orStop_eq_fault {α : Type} {stop : Option Fault} {x : α} {f : Fault} :
    orStop stop x = .fault f ↔ stop = some f := by cases stop <;> simp

theorem orStop_ne_refused {α : Type} {stop : Option Fault} {x : α} {r : Refusal} :
    orStop stop x ≠ .refused r := by cases stop <;> simp

/-! ## Accesses -/

theorem checkAccess_eq (kind : AccessKind) (sz : Size) (addr : Long) (s : State) :
    checkAccess kind sz addr s = orStop (accessStop kind sz (.mem addr) s) () := by
  unfold checkAccess accessStop
  cases h : aligned sz addr <;> cases h2 : allBytes s.layout.admits addr sz.bytes <;> simp [h, h2]

/-- A read answers the value at the address, or the stop of rule R42's checks. -/
theorem memRead_eq (sz : Size) (addr : Long) (s : State) :
    memRead sz addr s = orStop (accessStop .read sz (.mem addr) s) (s.valueAt sz addr) := by
  rw [memRead, checkAccess_eq]
  cases accessStop .read sz (.mem addr) s <;> rfl

/-- A location a result can be written to (rule R50). -/
def writableLoc : Loc → Bool
  | .dreg _ => true
  | .mem _ => true
  | _ => false

/-- The state with a result stored at a location. -/
def putLoc (sz : Size) (loc : Loc) (v : BitVec sz.bits) (s : State) : State :=
  match loc with
  | .dreg r => s.setDlow sz r v
  | .mem addr => s.withValue sz addr v
  | _ => s

/-- A write answers the state with the value stored, or the stop of rule R42's checks, the program-text ban
last. -/
theorem writeLoc_eq (sz : Size) (loc : Loc) (v : BitVec sz.bits) (s : State) (h : writableLoc loc = true) :
    writeLoc sz loc v s =
      match accessStop .write sz loc s with
      | some f => .fault f
      | none =>
        match textStop sz loc s with
        | some r => .refused r
        | none => .next (putLoc sz loc v s) := by
  cases loc with
  | dreg r => rfl
  | areg r => cases h
  | imm v => cases h
  | mem addr =>
    simp only [writeLoc, memWrite, checkAccess_eq]
    cases accessStop .write sz (.mem addr) s with
    | some f => rfl
    | none =>
      simp only [orStop_none, andThen_next, textStop, putLoc]
      cases anyByte s.layout.inText addr sz.bytes <;> rfl

/-- What a write that answers a next state has done. -/
theorem writeLoc_next {sz : Size} {loc : Loc} {v : BitVec sz.bits} {s t : State}
    (h : writeLoc sz loc v s = .next t) :
    writableLoc loc = true ∧ accessStop .write sz loc s = none ∧ textStop sz loc s = none ∧
      t = putLoc sz loc v s := by
  have hw : writableLoc loc = true := by cases loc <;> first | rfl | cases h
  rw [writeLoc_eq _ _ _ _ hw] at h
  cases ha : accessStop .write sz loc s with
  | some f => rw [ha] at h; cases h
  | none =>
    rw [ha] at h
    cases ht : textStop sz loc s with
    | some r => rw [ht] at h; cases h
    | none => rw [ht] at h; cases h; exact ⟨hw, rfl, rfl, rfl⟩

/-- A stop does not depend on the kind of the access but for the kind it reports. -/
theorem accessStop_none_iff (kind kind' : AccessKind) (sz : Size) (loc : Loc) (s : State) :
    accessStop kind sz loc s = none ↔ accessStop kind' sz loc s = none := by
  cases loc with
  | mem addr =>
    unfold accessStop
    cases h : aligned sz addr <;> cases h2 : allBytes s.layout.admits addr sz.bytes <;> simp [h, h2]
  | _ => exact Iff.rfl

/-! ## putLoc -/

@[simp] theorem a_putLoc (sz : Size) (loc : Loc) (v : BitVec sz.bits) (s : State) :
    (putLoc sz loc v s).a = s.a := by cases loc <;> rfl
@[simp] theorem areg_putLoc (sz : Size) (loc : Loc) (v : BitVec sz.bits) (s : State) (q : Reg) :
    (putLoc sz loc v s).areg q = s.areg q := by cases loc <;> rfl
@[simp] theorem pc_putLoc (sz : Size) (loc : Loc) (v : BitVec sz.bits) (s : State) :
    (putLoc sz loc v s).pc = s.pc := by cases loc <;> rfl
@[simp] theorem flags_putLoc (sz : Size) (loc : Loc) (v : BitVec sz.bits) (s : State) :
    (putLoc sz loc v s).flags = s.flags := by cases loc <;> rfl
@[simp] theorem layout_putLoc (sz : Size) (loc : Loc) (v : BitVec sz.bits) (s : State) :
    (putLoc sz loc v s).layout = s.layout := by cases loc <;> rfl
@[simp] theorem draws_putLoc (sz : Size) (loc : Loc) (v : BitVec sz.bits) (s : State) :
    (putLoc sz loc v s).draws = s.draws := by cases loc <;> rfl

theorem putLoc_wf (sz : Size) (loc : Loc) (v : BitVec sz.bits) (s : State) (hm : s.mem.wf = true) :
    (putLoc sz loc v s).mem.wf = true := by
  cases loc with
  | mem addr => exact withValue_wf s sz addr v hm
  | _ => exact hm

/-- The result is at the location and nothing else of the data registers and memory changed. -/
theorem storedAt_putLoc (sz : Size) (loc : Loc) (v : BitVec sz.bits) (s : State)
    (h : writableLoc loc = true) : StoredAt sz loc v s (putLoc sz loc v s) := by
  cases loc with
  | dreg r =>
    refine ⟨⟨?_, ?_, ?_⟩, fun _ => rfl⟩
    · simp [putLoc, lowPart_mergeLow]
    · simp only [putLoc, dreg_setDlow, if_true]; exact upper_mergeLow sz _ v
    · intro q hq; simp [putLoc, hq]
  | mem addr => exact ⟨valueAt_withValue s sz addr v, sameMemOutside_withValue s sz addr v, fun _ => rfl⟩
  | areg r => cases h
  | imm v => cases h

/-! ## resolveEa -/

@[simp] theorem d_resolveEa (sz : Size) (ea : Ea) (s : State) : (resolveEa sz ea s).2.d = s.d := by
  cases ea <;> rfl
@[simp] theorem dreg_resolveEa (sz : Size) (ea : Ea) (s : State) (q : Reg) :
    (resolveEa sz ea s).2.dreg q = s.dreg q := by cases ea <;> rfl
@[simp] theorem pc_resolveEa (sz : Size) (ea : Ea) (s : State) : (resolveEa sz ea s).2.pc = s.pc := by
  cases ea <;> rfl
@[simp] theorem flags_resolveEa (sz : Size) (ea : Ea) (s : State) :
    (resolveEa sz ea s).2.flags = s.flags := by cases ea <;> rfl
@[simp] theorem mem_resolveEa (sz : Size) (ea : Ea) (s : State) : (resolveEa sz ea s).2.mem = s.mem := by
  cases ea <;> rfl
@[simp] theorem layout_resolveEa (sz : Size) (ea : Ea) (s : State) :
    (resolveEa sz ea s).2.layout = s.layout := by cases ea <;> rfl
@[simp] theorem draws_resolveEa (sz : Size) (ea : Ea) (s : State) :
    (resolveEa sz ea s).2.draws = s.draws := by cases ea <;> rfl

/-- The register side effect of every mode (rules R53 to R55). -/
@[simp] theorem areg_resolveEa (sz : Size) (ea : Ea) (s : State) (q : Reg) :
    (resolveEa sz ea s).2.areg q = eaAreg sz ea s q := by
  cases ea <;> simp only [resolveEa, eaAreg, areg_setAreg] <;> split <;> simp_all

@[simp] theorem valueAt_resolveEa (sz' : Size) (addr : Long) (sz : Size) (ea : Ea) (s : State) :
    (resolveEa sz ea s).2.valueAt sz' addr = s.valueAt sz' addr := by
  unfold State.valueAt; rw [mem_resolveEa]

/-- A data alterable or alterable memory operand resolves to a data register or memory. -/
theorem writableLoc_resolveEa (sz : Size) (ea : Ea) (s : State) (cat : Category)
    (hc : cat = .dataAlterable ∨ cat = .alterableMemory) (h : cat.allows sz ea.mode = true) :
    writableLoc (resolveEa sz ea s).1 = true := by
  rcases hc with rfl | rfl <;> cases ea <;> first | rfl | simp [Category.allows, Category.modes, Ea.mode] at h

/-! ## readLoc and readEa -/

/-- A read answers the location's value or the stop of the access. -/
theorem readLoc_eq (sz : Size) (loc : Loc) (s : State) :
    readLoc sz loc s = orStop (accessStop .read sz loc s) (locValue sz loc s) := by
  cases loc with
  | mem addr => exact memRead_eq sz addr s
  | _ => rfl

/-- `read_ea` answers the operand's value and the state after the side effect, or the stop of the access,
whose terminal state has the side effect too. -/
theorem readEa_eq (sz : Size) (ea : Ea) (s : State) :
    readEa sz ea s =
      orStop (accessStop .read sz (resolveEa sz ea s).1 (resolveEa sz ea s).2)
        (locValue sz (resolveEa sz ea s).1 (resolveEa sz ea s).2, (resolveEa sz ea s).2) := by
  simp only [readEa, readLoc_eq]
  cases accessStop .read sz (resolveEa sz ea s).1 (resolveEa sz ea s).2 <;> rfl

/-! ## The trap -/

@[simp] theorem d_trapState (s : State) : (trapState s).d = s.d := rfl
@[simp] theorem dreg_trapState (s : State) (q : Reg) : (trapState s).dreg q = s.dreg q := rfl
@[simp] theorem areg_trapState (s : State) (q : Reg) : (trapState s).areg q = s.areg q := rfl
@[simp] theorem pc_trapState (s : State) : (trapState s).pc = s.pc := rfl
@[simp] theorem mem_trapState (s : State) : (trapState s).mem = s.mem := rfl
@[simp] theorem layout_trapState (s : State) : (trapState s).layout = s.layout := rfl
@[simp] theorem x_trapState (s : State) : (trapState s).flags.x = s.flags.x := rfl

end Sys2Proof.Machine
end

