-- ==== Sys2Proof/Laws/Shapes.lean ====
section
/-!
SUPPORT. What each shared shape of instruction answers, said once as an equation: the stop of its accesses,
or the next state built from the operands' values.
-/

namespace Sys2Proof.Machine

/-- `OP <ea>,Dn`. -/
theorem sourceToDn_eq (sz : Size) (op : BitVec sz.bits → BitVec sz.bits → Alu sz.bits) (src : Ea) (dst : Reg)
    (s : State) :
    sourceToDn sz op src dst s =
      let p := resolveEa sz src s
      let out := op (lowPart sz (s.dreg dst)) (locValue sz p.1 p.2)
      orStop (accessStop .read sz p.1 p.2)
        (((p.2.setDlow sz dst out.value).setFlags (s.flags.arith out)).advance (2 + src.extBytes sz)) := by
  simp only [sourceToDn, readEa_eq]
  cases accessStop .read sz (resolveEa sz src s).1 (resolveEa sz src s).2 <;> simp

/-- Read, modify and write one operand that can be written. -/
theorem modifyEa_eq (sz : Size) (op : BitVec sz.bits → Alu sz.bits) (flags : Flags → Alu sz.bits → Flags)
    (dst : Ea) (len : Nat) (s : State) (hw : writableLoc (resolveEa sz dst s).1 = true) :
    modifyEa sz op flags dst len s =
      let p := resolveEa sz dst s
      let out := op (locValue sz p.1 p.2)
      match accessStop .read sz p.1 p.2 with
      | some f => .fault f
      | none =>
        match textStop sz p.1 p.2 with
        | some r => .refused r
        | none => .next (((putLoc sz p.1 out.value p.2).setFlags (flags s.flags out)).advance len) := by
  simp only [modifyEa, readLoc_eq]
  cases h : accessStop .read sz (resolveEa sz dst s).1 (resolveEa sz dst s).2 with
  | some f => rfl
  | none =>
    have h' := (accessStop_none_iff .read .write sz _ _).1 h
    simp only [orStop_none, andThen_next, writeLoc_eq _ _ _ _ hw, h']
    cases textStop sz (resolveEa sz dst s).1 (resolveEa sz dst s).2 <;> simp

/-- The 32-bit source of ADDA, SUBA and CMPA. -/
theorem addressSource_eq (sz : Size) (src : Ea) (dst : Reg) (s : State) :
    addressSource sz src dst s =
      let p := resolveEa sz src s
      if overlaps src dst then .refused (.overlapUnspecified s)
      else orStop (accessStop .read sz p.1 p.2) (signExtend32 (locValue sz p.1 p.2), p.2) := by
  simp only [addressSource, readEa_eq]
  cases accessStop .read sz (resolveEa sz src s).1 (resolveEa sz src s).2 <;> rfl

/-- ADDA and SUBA. -/
theorem sourceToAn_eq (sz : Size) (op : Long → Long → Long) (src : Ea) (dst : Reg) (s : State) :
    sourceToAn sz op src dst s =
      let p := resolveEa sz src s
      if overlaps src dst then .refused (.overlapUnspecified s)
      else
        orStop (accessStop .read sz p.1 p.2)
          ((p.2.setAreg dst (op (p.2.areg dst) (signExtend32 (locValue sz p.1 p.2)))).advance
            (2 + src.extBytes sz)) := by
  simp only [sourceToAn, addressSource_eq]
  split
  · rfl
  · cases accessStop .read sz (resolveEa sz src s).1 (resolveEa sz src s).2 <;> rfl

/-- The two operands of ADDX, SUBX and CMPM in memory: the source's stop first, then the destination's. -/
theorem readPair_eq (sz : Size) (src dst : Ea) (s : State) :
    readPair sz src dst s =
      let p := resolveEa sz src s
      let q := resolveEa sz dst p.2
      match accessStop .read sz p.1 p.2 with
      | some f => .fault f
      | none => orStop (accessStop .read sz q.1 q.2) (locValue sz p.1 p.2, locValue sz q.1 q.2, q.1, q.2) := by
  simp only [readPair, readEa_eq]
  cases accessStop .read sz (resolveEa sz src s).1 (resolveEa sz src s).2 with
  | some f => rfl
  | none =>
    simp only [orStop_none, andThen_next, readLoc_eq]
    cases accessStop .read sz (resolveEa sz dst (resolveEa sz src s).2).1
      (resolveEa sz dst (resolveEa sz src s).2).2 <;> rfl

/-- ADDX and SUBX in memory. -/
theorem extendedMem_eq (sz : Size) (op : BitVec sz.bits → BitVec sz.bits → Bool → Alu sz.bits) (src dst : Reg)
    (s : State) :
    extendedMem sz op src dst s =
      let p := resolveEa sz (.preDec src) s
      let q := resolveEa sz (.preDec dst) p.2
      let out := op (locValue sz q.1 q.2) (locValue sz p.1 p.2) s.flags.x
      match accessStop .read sz p.1 p.2 with
      | some f => .fault f
      | none =>
        match accessStop .read sz q.1 q.2 with
        | some f => .fault f
        | none =>
          match textStop sz q.1 q.2 with
          | some r => .refused r
          | none => .next (((putLoc sz q.1 out.value q.2).setFlags (s.flags.extended out)).advance 2) := by
  simp only [extendedMem, readPair_eq]
  cases accessStop .read sz (resolveEa sz (.preDec src) s).1 (resolveEa sz (.preDec src) s).2 with
  | some f => rfl
  | none =>
    cases h : accessStop .read sz (resolveEa sz (.preDec dst) (resolveEa sz (.preDec src) s).2).1
      (resolveEa sz (.preDec dst) (resolveEa sz (.preDec src) s).2).2 with
    | some f => rfl
    | none =>
      have h' := (accessStop_none_iff .read .write sz _ _).1 h
      simp only [orStop_none, andThen_next]
      rw [writeLoc_eq _ _ _ _ rfl, h']
      simp only [flags_resolveEa]
      cases textStop sz (resolveEa sz (.preDec dst) (resolveEa sz (.preDec src) s).2).1
        (resolveEa sz (.preDec dst) (resolveEa sz (.preDec src) s).2).2 <;> simp

/-- TST. -/
theorem testEa_eq (sz : Size) (dst : Ea) (s : State) :
    testEa sz dst s =
      let p := resolveEa sz dst s
      orStop (accessStop .read sz p.1 p.2)
        ((p.2.setFlags (s.flags.test (locValue sz p.1 p.2))).advance (2 + dst.extBytes sz)) := by
  simp only [testEa, readEa_eq]
  cases accessStop .read sz (resolveEa sz dst s).1 (resolveEa sz dst s).2 <;> simp

/-- CMP. -/
theorem compareDn_eq (sz : Size) (src : Ea) (dst : Reg) (s : State) :
    compareDn sz src dst s =
      let p := resolveEa sz src s
      let out := subN (lowPart sz (s.dreg dst)) (locValue sz p.1 p.2) false
      orStop (accessStop .read sz p.1 p.2)
        ((p.2.setFlags (s.flags.compare out)).advance (2 + src.extBytes sz)) := by
  simp only [compareDn, readEa_eq]
  cases accessStop .read sz (resolveEa sz src s).1 (resolveEa sz src s).2 <;> simp

/-- CMPA. -/
theorem compareAn_eq (sz : Size) (src : Ea) (dst : Reg) (s : State) :
    compareAn sz src dst s =
      let p := resolveEa sz src s
      let out := subN (p.2.areg dst) (signExtend32 (locValue sz p.1 p.2)) false
      if overlaps src dst then .refused (.overlapUnspecified s)
      else
        orStop (accessStop .read sz p.1 p.2)
          ((p.2.setFlags (s.flags.compare out)).advance (2 + src.extBytes sz)) := by
  simp only [compareAn, addressSource_eq]
  split
  · rfl
  · cases accessStop .read sz (resolveEa sz src s).1 (resolveEa sz src s).2 <;> simp

/-- CMPI. -/
theorem compareImm_eq (sz : Size) (imm : BitVec sz.bits) (dst : Ea) (s : State) :
    compareImm sz imm dst s =
      let p := resolveEa sz dst s
      let out := subN (locValue sz p.1 p.2) imm false
      orStop (accessStop .read sz p.1 p.2)
        ((p.2.setFlags (s.flags.compare out)).advance (2 + immBytes sz + dst.extBytes sz)) := by
  simp only [compareImm, readEa_eq]
  cases accessStop .read sz (resolveEa sz dst s).1 (resolveEa sz dst s).2 <;> simp

/-- CMPM. -/
theorem compareMem_eq (sz : Size) (src dst : Reg) (s : State) :
    compareMem sz src dst s =
      let p := resolveEa sz (.postInc src) s
      let q := resolveEa sz (.postInc dst) p.2
      let out := subN (locValue sz q.1 q.2) (locValue sz p.1 p.2) false
      match accessStop .read sz p.1 p.2 with
      | some f => .fault f
      | none =>
        orStop (accessStop .read sz q.1 q.2) ((q.2.setFlags (s.flags.compare out)).advance 2) := by
  simp only [compareMem, readPair_eq]
  cases accessStop .read sz (resolveEa sz (.postInc src) s).1 (resolveEa sz (.postInc src) s).2 with
  | some f => rfl
  | none =>
    cases accessStop .read sz (resolveEa sz (.postInc dst) (resolveEa sz (.postInc src) s).2).1
      (resolveEa sz (.postInc dst) (resolveEa sz (.postInc src) s).2).2 <;> simp

/-- CLR of an operand that can be written. -/
theorem clear_eq (sz : Size) (dst : Ea) (s : State) (hw : writableLoc (resolveEa sz dst s).1 = true) :
    clear sz dst s =
      let p := resolveEa sz dst s
      match accessStop .write sz p.1 p.2 with
      | some f => .fault f
      | none =>
        match textStop sz p.1 p.2 with
        | some r => .refused r
        | none =>
          .next (((putLoc sz p.1 0 p.2).setFlags s.flags.clear).advance (2 + dst.extBytes sz)) := by
  simp only [clear, writeLoc_eq _ _ _ _ hw]
  cases accessStop .write sz (resolveEa sz dst s).1 (resolveEa sz dst s).2 with
  | some f => rfl
  | none => cases textStop sz (resolveEa sz dst s).1 (resolveEa sz dst s).2 <;> simp

/-- TAS of an operand that can be written. -/
theorem testAndSet_eq (dst : Ea) (s : State) (hw : writableLoc (resolveEa .byte dst s).1 = true) :
    testAndSet dst s =
      let p := resolveEa .byte dst s
      let d : Byte := locValue .byte p.1 p.2
      match accessStop .read .byte p.1 p.2 with
      | some f => .fault f
      | none =>
        match textStop .byte p.1 p.2 with
        | some r => .refused r
        | none =>
          .next (((putLoc .byte p.1 (d ||| 0x80#8) p.2).setFlags (s.flags.test d)).advance
            (2 + dst.extBytes .byte)) := by
  simp only [testAndSet, readLoc_eq]
  cases h : accessStop .read .byte (resolveEa .byte dst s).1 (resolveEa .byte dst s).2 with
  | some f => rfl
  | none =>
    have h' := (accessStop_none_iff .read .write .byte _ _).1 h
    simp only [orStop_none, andThen_next, writeLoc_eq _ _ _ _ hw, h']
    cases textStop .byte (resolveEa .byte dst s).1 (resolveEa .byte dst s).2 <;> simp

/-- MULS and MULU. -/
theorem multiply_eq (product : Word → Word → Long) (src : Ea) (dst : Reg) (s : State) :
    multiply product src dst s =
      let p := resolveEa .word src s
      let res := product (lowPart .word (s.dreg dst)) (locValue .word p.1 p.2)
      orStop (accessStop .read .word p.1 p.2) (finishDn dst res res (2 + src.extBytes .word) p.2) := by
  simp only [multiply, readEa_eq]
  cases accessStop .read .word (resolveEa .word src s).1 (resolveEa .word src s).2 <;> simp

/-- DIVS and DIVU: the source's stop, then the trap, then the divide. -/
theorem divide_eq (how : Word → Reg → Nat → State → State) (src : Ea) (dst : Reg) (s : State) :
    divide how src dst s =
      let p := resolveEa .word src s
      match accessStop .read .word p.1 p.2 with
      | some f => .fault f
      | none =>
        if locValue .word p.1 p.2 = (0#16 : Word) then .fault (.zeroDivide (trapState p.2))
        else .next (how (locValue .word p.1 p.2) dst (2 + src.extBytes .word) p.2) := by
  simp only [divide, readEa_eq]
  cases accessStop .read .word (resolveEa .word src s).1 (resolveEa .word src s).2 <;> rfl

end Sys2Proof.Machine
end

