-- ==== Sys2Proof/Laws/Exec.lean ====
section
/-!
SUPPORT. `exec` on the instructions of one form, the size (or the Long bit) a variable: each is its family's
operation, so that one proof serves all rows of the form.
-/

namespace Sys2Proof.Machine

theorem exec_addEaDn (sz : Size) (src : Ea) (dst : Reg) (s : State) :
    exec (Instr.addEaDn sz src dst) s = sourceToDn sz addOp src dst s := by cases sz <;> rfl
theorem exec_subEaDn (sz : Size) (src : Ea) (dst : Reg) (s : State) :
    exec (Instr.subEaDn sz src dst) s = sourceToDn sz subOp src dst s := by cases sz <;> rfl
theorem exec_addDnEa (sz : Size) (src : Reg) (dst : Ea) (s : State) :
    exec (Instr.addDnEa sz src dst) s = addDnEa sz src dst s := by cases sz <;> rfl
theorem exec_subDnEa (sz : Size) (src : Reg) (dst : Ea) (s : State) :
    exec (Instr.subDnEa sz src dst) s = subDnEa sz src dst s := by cases sz <;> rfl
theorem exec_adda (long : Bool) (src : Ea) (dst : Reg) (s : State) :
    exec (Instr.adda long src dst) s =
      sourceToAn (if long then .long else .word) (fun a v => a + v) src dst s := by cases long <;> rfl
theorem exec_suba (long : Bool) (src : Ea) (dst : Reg) (s : State) :
    exec (Instr.suba long src dst) s =
      sourceToAn (if long then .long else .word) (fun a v => a - v) src dst s := by cases long <;> rfl
theorem exec_cmpa (long : Bool) (src : Ea) (dst : Reg) (s : State) :
    exec (Instr.cmpa long src dst) s = compareAn (if long then .long else .word) src dst s := by
  cases long <;> rfl
theorem exec_addi (sz : Size) (imm : Long) (dst : Ea) (s : State) :
    exec (Instr.addi sz imm dst) s = addImm sz (lowPart sz imm) dst s := by cases sz <;> rfl
theorem exec_subi (sz : Size) (imm : Long) (dst : Ea) (s : State) :
    exec (Instr.subi sz imm dst) s = subImm sz (lowPart sz imm) dst s := by cases sz <;> rfl
theorem exec_cmpi (sz : Size) (imm : Long) (dst : Ea) (s : State) :
    exec (Instr.cmpi sz imm dst) s = compareImm sz (lowPart sz imm) dst s := by cases sz <;> rfl
theorem exec_addq (sz : Size) (q : Nat) (dst : Ea) (s : State) :
    exec (Instr.addq sz q dst) s = quick sz (fun a q => a + q) addOp q dst s := by cases sz <;> rfl
theorem exec_subq (sz : Size) (q : Nat) (dst : Ea) (s : State) :
    exec (Instr.subq sz q dst) s = quick sz (fun a q => a - q) subOp q dst s := by cases sz <;> rfl
theorem exec_addxReg (sz : Size) (src dst : Reg) (s : State) :
    exec (Instr.addxReg sz src dst) s = extendedDn sz addN src dst s := by cases sz <;> rfl
theorem exec_subxReg (sz : Size) (src dst : Reg) (s : State) :
    exec (Instr.subxReg sz src dst) s = extendedDn sz subN src dst s := by cases sz <;> rfl
theorem exec_addxMem (sz : Size) (src dst : Reg) (s : State) :
    exec (Instr.addxMem sz src dst) s = extendedMem sz addN src dst s := by cases sz <;> rfl
theorem exec_subxMem (sz : Size) (src dst : Reg) (s : State) :
    exec (Instr.subxMem sz src dst) s = extendedMem sz subN src dst s := by cases sz <;> rfl
theorem exec_cmp (sz : Size) (src : Ea) (dst : Reg) (s : State) :
    exec (Instr.cmp sz src dst) s = compareDn sz src dst s := by cases sz <;> rfl
theorem exec_cmpm (sz : Size) (src dst : Reg) (s : State) :
    exec (Instr.cmpm sz src dst) s = compareMem sz src dst s := by cases sz <;> rfl
theorem exec_neg (sz : Size) (dst : Ea) (s : State) :
    exec (Instr.neg sz dst) s = negate sz dst s := by cases sz <;> rfl
theorem exec_negx (sz : Size) (dst : Ea) (s : State) :
    exec (Instr.negx sz dst) s = negateX sz dst s := by cases sz <;> rfl
theorem exec_clr (sz : Size) (dst : Ea) (s : State) :
    exec (Instr.clr sz dst) s = clear sz dst s := by cases sz <;> rfl
theorem exec_tst (sz : Size) (dst : Ea) (s : State) :
    exec (Instr.tst sz dst) s = testEa sz dst s := by cases sz <;> rfl

/-! ## The primitives' values -/

theorem addN_value {n : Nat} (d v : BitVec n) (x : Bool) :
    (addN d v x).value = d + v + BitVec.ofNat n x.toNat := by
  apply BitVec.eq_of_toNat_eq
  simp [addN, BitVec.toNat_add, BitVec.toNat_ofNat]

theorem subN_value {n : Nat} (d v : BitVec n) (x : Bool) :
    (subN d v x).value = d - v - BitVec.ofNat n x.toNat := by
  simp only [subN, BitVec.sub_eq_add_neg, Int.sub_eq_add_neg, BitVec.ofInt_add, BitVec.ofInt_neg,
    BitVec.ofInt_natCast, BitVec.ofNat_toNat, BitVec.setWidth_eq]

end Sys2Proof.Machine
end

