-- ==== Sys2Proof/Laws/Fetch.lean ====
section
/-!
SUPPORT. What fetching and stepping can do, said once: when a word, a list of words and an instruction are
fetched, and when a step ends in a next state.
-/

namespace Sys2Proof.Machine

/-- A word is fetched exactly at an even address inside ProgramText and MemMap. -/
theorem fetchWord_eq_next {s : State} {k : Nat} {w : Word} :
    fetchWord s k = .next w ↔
      (fetchAddr s k).toNat % 2 = 0 ∧ allBytes s.layout.inText (fetchAddr s k) 2 = true ∧
        allBytes s.layout.admits (fetchAddr s k) 2 = true ∧ w = s.valueAt .word (fetchAddr s k) := by
  unfold fetchWord
  dsimp only
  constructor
  · intro h
    split at h
    · split at h
      · split at h
        · cases h; exact ⟨‹_›, ‹_›, ‹_›, rfl⟩
        · cases h
      · cases h
    · cases h
  · rintro ⟨h1, h2, h3, rfl⟩
    rw [if_pos h1, if_pos h2, if_pos h3]

/-- A word outside ProgramText, at an even address, is refused. -/
theorem fetchWord_outside {s : State} {k : Nat} (he : (fetchAddr s k).toNat % 2 = 0)
    (h : allBytes s.layout.inText (fetchAddr s k) 2 = false) :
    fetchWord s k = .refused (.fetchOutsideProgram (fetchAddr s k) s) := by
  simp [fetchWord, he, h]

/-- A word at an odd address faults. -/
theorem fetchWord_odd {s : State} {k : Nat} (h : (fetchAddr s k).toNat % 2 = 1) :
    fetchWord s k = .fault (.addressError .fetch 2 (fetchAddr s k) s) := by
  simp [fetchWord, h]

/-- Words are fetched in order and are what memory holds there. -/
theorem fetchWords_eq_next {s : State} {k n : Nat} {ws : List Word} :
    fetchWords s k n = .next ws ↔
      ws = (List.range' k n).map (fun j => s.valueAt .word (fetchAddr s j)) ∧
        ∀ j, k ≤ j → j < k + n → fetchWord s j = .next (s.valueAt .word (fetchAddr s j)) := by
  induction n generalizing k ws with
  | zero => simp only [fetchWords, List.range'_zero, List.map_nil]; constructor
            · rintro ⟨⟩; exact ⟨rfl, fun j h1 h2 => by omega⟩
            · rintro ⟨rfl, -⟩; rfl
  | succ n ih =>
    simp only [fetchWords, andThen_eq_next, ih, List.range'_succ, List.map_cons]
    constructor
    · rintro ⟨w, hw, ws', ⟨rfl, hws⟩, ⟨⟩⟩
      have hv := (fetchWord_eq_next.1 hw).2.2.2
      subst hv
      refine ⟨rfl, fun j h1 h2 => ?_⟩
      rcases Nat.eq_or_lt_of_le h1 with rfl | h
      · exact hw
      · exact hws j h (by omega)
    · rintro ⟨rfl, h⟩
      exact ⟨_, h k (Nat.le_refl k) (by omega), _, ⟨rfl, fun j h1 h2 => h j (by omega) (by omega)⟩, rfl⟩

/-- Fetching adds 2 for each word. -/
theorem fetchAddr_zero (s : State) : fetchAddr s 0 = s.pc := by
  simp [fetchAddr]

/-- An even pc makes every fetch address even, also where the address space wraps. -/
theorem fetchAddr_even {s : State} (h : s.pc.toNat % 2 = 0) (k : Nat) : (fetchAddr s k).toNat % 2 = 0 := by
  simp only [fetchAddr, BitVec.toNat_add, BitVec.toNat_ofNat]
  omega

/-- An instruction is fetched exactly when its operation word, then its extension words are, and they decode to
it. -/
theorem fetchInstr_eq_next {s : State} {i : Instr} :
    fetchInstr s = .next i ↔
      ∃ op f ws rest, fetchWord s 0 = .next op ∧ decodeOp op = some f ∧
        fetchWords s 1 f.extCount = .next ws ∧ f.finish ws = .instr i rest := by
  unfold fetchInstr
  rw [andThen_eq_next]
  constructor
  · rintro ⟨op, hop, h⟩
    cases hf : decodeOp op with
    | none => rw [hf] at h; cases h
    | some f =>
      rw [hf] at h
      obtain ⟨ws, hws, h⟩ := andThen_eq_next.1 h
      simp only [decode, hf] at h
      cases hd : f.finish ws with
      | instr j rest => rw [hd] at h; cases h; exact ⟨op, f, ws, rest, hop, hf, hws, hd⟩
      | error e => rw [hd] at h; cases e <;> cases h
  · rintro ⟨op, f, ws, rest, hop, hf, hws, hd⟩
    refine ⟨op, hop, ?_⟩
    simp [hf, hws, decode, hd]

/-- A step that ends in a next state fetched an instruction and executed it. -/
theorem step_eq_next {s t : State} :
    step s = .next t ↔ s.pc.toNat ≠ s.layout.endAddr ∧ ∃ i, fetchInstr s = .next i ∧ exec i s = .next t := by
  unfold step
  split
  · simp_all
  · simp_all [andThen_eq_next]

/-- Away from EndAddr, a fetched instruction is executed. -/
theorem step_of_fetch {s : State} {i : Instr} (hp : s.pc.toNat ≠ s.layout.endAddr) (h : fetchInstr s = .next i) :
    step s = exec i s := by
  simp [step, hp, h]

end Sys2Proof.Machine
end

