-- ==== Sys2Proof/Laws/PerInstr.lean ====
section
/-!
SUPPORT. Statements about every instruction as syntax, one lemma per constructor of Instr.
-/

namespace Sys2Proof.Laws.LengthBounds

/-- An instruction's length is even, at least 2 and at most 10 bytes (spec/30_encoding.md rules R80, R81;
spec/70_reset_and_hazards.md rule R271). -/
def Statement (i : Instr) : Prop := i.length % 2 = 0 ∧ 2 ≤ i.length ∧ i.length ≤ 10

theorem extBytes_bounds (sz : Size) (ea : Ea) : ea.extBytes sz % 2 = 0 ∧ ea.extBytes sz ≤ 4 := by
  cases ea <;> cases sz <;> simp [Ea.extBytes]

theorem immBytes_bounds (sz : Size) : immBytes sz % 2 = 0 ∧ immBytes sz ≤ 4 := by cases sz <;> decide

/-- The length rule R81 bounds the length of whatever carries these operands. -/
theorem of_info (i : Instr) : Statement i := by
  unfold Statement Instr.length
  have hi := immBytes_bounds i.info.size
  cases i.info.ea with
  | none => dsimp only; split <;> omega
  | some p =>
    have he := extBytes_bounds i.info.size p.2
    dsimp only
    split <;> omega

theorem addEaDnB (src : Ea) (dst : Reg) : Statement (.addEaDnB src dst) := of_info _
theorem addEaDnW (src : Ea) (dst : Reg) : Statement (.addEaDnW src dst) := of_info _
theorem addEaDnL (src : Ea) (dst : Reg) : Statement (.addEaDnL src dst) := of_info _
theorem addDnEaB (src : Reg) (dst : Ea) : Statement (.addDnEaB src dst) := of_info _
theorem addDnEaW (src : Reg) (dst : Ea) : Statement (.addDnEaW src dst) := of_info _
theorem addDnEaL (src : Reg) (dst : Ea) : Statement (.addDnEaL src dst) := of_info _
theorem subEaDnB (src : Ea) (dst : Reg) : Statement (.subEaDnB src dst) := of_info _
theorem subEaDnW (src : Ea) (dst : Reg) : Statement (.subEaDnW src dst) := of_info _
theorem subEaDnL (src : Ea) (dst : Reg) : Statement (.subEaDnL src dst) := of_info _
theorem subDnEaB (src : Reg) (dst : Ea) : Statement (.subDnEaB src dst) := of_info _
theorem subDnEaW (src : Reg) (dst : Ea) : Statement (.subDnEaW src dst) := of_info _
theorem subDnEaL (src : Reg) (dst : Ea) : Statement (.subDnEaL src dst) := of_info _
theorem addaW (src : Ea) (dst : Reg) : Statement (.addaW src dst) := of_info _
theorem addaL (src : Ea) (dst : Reg) : Statement (.addaL src dst) := of_info _
theorem subaW (src : Ea) (dst : Reg) : Statement (.subaW src dst) := of_info _
theorem subaL (src : Ea) (dst : Reg) : Statement (.subaL src dst) := of_info _
theorem cmpaW (src : Ea) (dst : Reg) : Statement (.cmpaW src dst) := of_info _
theorem cmpaL (src : Ea) (dst : Reg) : Statement (.cmpaL src dst) := of_info _
theorem cmpB (src : Ea) (dst : Reg) : Statement (.cmpB src dst) := of_info _
theorem cmpW (src : Ea) (dst : Reg) : Statement (.cmpW src dst) := of_info _
theorem cmpL (src : Ea) (dst : Reg) : Statement (.cmpL src dst) := of_info _
theorem addiB (imm : Byte) (dst : Ea) : Statement (.addiB imm dst) := of_info _
theorem addiW (imm : Word) (dst : Ea) : Statement (.addiW imm dst) := of_info _
theorem addiL (imm : Long) (dst : Ea) : Statement (.addiL imm dst) := of_info _
theorem subiB (imm : Byte) (dst : Ea) : Statement (.subiB imm dst) := of_info _
theorem subiW (imm : Word) (dst : Ea) : Statement (.subiW imm dst) := of_info _
theorem subiL (imm : Long) (dst : Ea) : Statement (.subiL imm dst) := of_info _
theorem cmpiB (imm : Byte) (dst : Ea) : Statement (.cmpiB imm dst) := of_info _
theorem cmpiW (imm : Word) (dst : Ea) : Statement (.cmpiW imm dst) := of_info _
theorem cmpiL (imm : Long) (dst : Ea) : Statement (.cmpiL imm dst) := of_info _
theorem addqB (q : Nat) (dst : Ea) : Statement (.addqB q dst) := of_info _
theorem addqW (q : Nat) (dst : Ea) : Statement (.addqW q dst) := of_info _
theorem addqL (q : Nat) (dst : Ea) : Statement (.addqL q dst) := of_info _
theorem subqB (q : Nat) (dst : Ea) : Statement (.subqB q dst) := of_info _
theorem subqW (q : Nat) (dst : Ea) : Statement (.subqW q dst) := of_info _
theorem subqL (q : Nat) (dst : Ea) : Statement (.subqL q dst) := of_info _
theorem addxRegB (src dst : Reg) : Statement (.addxRegB src dst) := of_info _
theorem addxRegW (src dst : Reg) : Statement (.addxRegW src dst) := of_info _
theorem addxRegL (src dst : Reg) : Statement (.addxRegL src dst) := of_info _
theorem addxMemB (src dst : Reg) : Statement (.addxMemB src dst) := of_info _
theorem addxMemW (src dst : Reg) : Statement (.addxMemW src dst) := of_info _
theorem addxMemL (src dst : Reg) : Statement (.addxMemL src dst) := of_info _
theorem subxRegB (src dst : Reg) : Statement (.subxRegB src dst) := of_info _
theorem subxRegW (src dst : Reg) : Statement (.subxRegW src dst) := of_info _
theorem subxRegL (src dst : Reg) : Statement (.subxRegL src dst) := of_info _
theorem subxMemB (src dst : Reg) : Statement (.subxMemB src dst) := of_info _
theorem subxMemW (src dst : Reg) : Statement (.subxMemW src dst) := of_info _
theorem subxMemL (src dst : Reg) : Statement (.subxMemL src dst) := of_info _
theorem cmpmB (src dst : Reg) : Statement (.cmpmB src dst) := of_info _
theorem cmpmW (src dst : Reg) : Statement (.cmpmW src dst) := of_info _
theorem cmpmL (src dst : Reg) : Statement (.cmpmL src dst) := of_info _
theorem divs (src : Ea) (dst : Reg) : Statement (.divs src dst) := of_info _
theorem divu (src : Ea) (dst : Reg) : Statement (.divu src dst) := of_info _
theorem muls (src : Ea) (dst : Reg) : Statement (.muls src dst) := of_info _
theorem mulu (src : Ea) (dst : Reg) : Statement (.mulu src dst) := of_info _
theorem extW (dst : Reg) : Statement (.extW dst) := of_info _
theorem extL (dst : Reg) : Statement (.extL dst) := of_info _
theorem negB (dst : Ea) : Statement (.negB dst) := of_info _
theorem negW (dst : Ea) : Statement (.negW dst) := of_info _
theorem negL (dst : Ea) : Statement (.negL dst) := of_info _
theorem negxB (dst : Ea) : Statement (.negxB dst) := of_info _
theorem negxW (dst : Ea) : Statement (.negxW dst) := of_info _
theorem negxL (dst : Ea) : Statement (.negxL dst) := of_info _
theorem clrB (dst : Ea) : Statement (.clrB dst) := of_info _
theorem clrW (dst : Ea) : Statement (.clrW dst) := of_info _
theorem clrL (dst : Ea) : Statement (.clrL dst) := of_info _
theorem tstB (dst : Ea) : Statement (.tstB dst) := of_info _
theorem tstW (dst : Ea) : Statement (.tstW dst) := of_info _
theorem tstL (dst : Ea) : Statement (.tstL dst) := of_info _
theorem tas (dst : Ea) : Statement (.tas dst) := of_info _

end Sys2Proof.Laws.LengthBounds
end

