-- ==== Sys2Proof/Tests/Slice0.lean ====
section
/-!
SUPPORT. Tests: ill-formed terms, every constructor's word written out from spec/opcode_table.json and the
formats of spec/30_encoding.md, vectors of spec/95_test_vectors.md, and for every obligation with hypotheses
a state and operands that meet them.
-/

namespace Sys2Proof.Tests

open Sys2Proof Sys2Proof.Machine

/-! ## WellFormed: a term that each check refuses -/

/-- Rule R22: no address register with Byte size. -/
theorem test_wf_byte_an :
    (Instr.addEaDnB (.an 0) 1).wf = false ∧ (Instr.addEaDnW (.an 0) 1).wf = true ∧
    (Instr.addqB 1 (.an 0)).wf = false ∧ (Instr.addqL 1 (.an 0)).wf = true := by
  decide

/-- Rule R13: each category refuses the first mode outside it. -/
theorem test_wf_category :
    (Instr.divs (.an 0) 1).wf = false ∧ (Instr.addDnEaW 0 (.dn 1)).wf = false ∧
    (Instr.clrW (.pcDisp 0)).wf = false ∧ (Instr.clrW (.an 0)).wf = false ∧
    (Instr.subqL 1 (.imm 0)).wf = false ∧ (Instr.cmpiL 0 (.pcIndex 0 ⟨.data, 0, .word⟩)).wf = false ∧
    (Instr.cmpiL 0 (.index 0 0 ⟨.data, 0, .word⟩)).wf = true := by
  decide

/-- Rule R92: an immediate fits its size. -/
theorem test_wf_immediate :
    (Instr.addEaDnB (.imm 0x100) 1).wf = false ∧ (Instr.addEaDnB (.imm 0xFF) 1).wf = true ∧
    (Instr.muls (.imm 0x10000) 1).wf = false ∧ (Instr.muls (.imm 0xFFFF) 1).wf = true := by
  decide

/-- Rule R87: quick data is 1 to 8. -/
theorem test_wf_quick :
    (Instr.addqW 0 (.dn 0)).wf = false ∧ (Instr.subqW 9 (.dn 0)).wf = false ∧
    (Instr.addqW 1 (.dn 0)).wf = true ∧ (Instr.subqW 8 (.dn 0)).wf = true := by
  decide

/-! ## Decoding: every row of the opcode table -/

theorem test_decode_add :
  decode [0b1101_001_000_111011, 0b1_101_1_000_00010000] = .instr (.addEaDnB (.pcIndex 0x10 ⟨.address, 5, .long⟩) 1) [] ∧
  decode [0b1101_100_001_001000] = .instr (.addEaDnW (.an 0) 4) [] ∧
  decode [0b1101_111_010_101101, 0xFFFC] = .instr (.addEaDnL (.disp 0xFFFC 5) 7) [] ∧
  decode [0b1101_010_100_100010] = .instr (.addDnEaB 2 (.preDec 2)) [] ∧
  decode [0b1101_101_101_111001, 0x0001, 0x2000] = .instr (.addDnEaW 5 (.absLong 0x00012000)) [] ∧
  decode [0b1101_000_110_011100] = .instr (.addDnEaL 0 (.postInc 4)) [] := by
  decide

theorem test_decode_sub :
  decode [0b1001_011_000_110001, 0b0_001_0_000_11111110] = .instr (.subEaDnB (.index 0xFE 1 ⟨.data, 1, .word⟩) 3) [] ∧
  decode [0b1001_110_001_111100, 0xABCD] = .instr (.subEaDnW (.imm 0xABCD) 6) [] ∧
  decode [0b1001_001_010_010011] = .instr (.subEaDnL (.ind 3) 1) [] ∧
  decode [0b1001_100_100_111000, 0x8000] = .instr (.subDnEaB 4 (.absShort 0x8000)) [] ∧
  decode [0b1001_111_101_101101, 0xFFFC] = .instr (.subDnEaW 7 (.disp 0xFFFC 5)) [] ∧
  decode [0b1001_010_110_100010] = .instr (.subDnEaL 2 (.preDec 2)) [] := by
  decide

theorem test_decode_adda :
  decode [0b1101_101_011_111001, 0x0001, 0x2000] = .instr (.addaW (.absLong 0x00012000) 5) [] ∧
  decode [0b1101_000_111_011100] = .instr (.addaL (.postInc 4) 0) [] := by
  decide

theorem test_decode_suba :
  decode [0b1001_011_011_110001, 0b0_001_0_000_11111110] = .instr (.subaW (.index 0xFE 1 ⟨.data, 1, .word⟩) 3) [] ∧
  decode [0b1001_110_111_111100, 0x1234, 0x5678] = .instr (.subaL (.imm 0x12345678) 6) [] := by
  decide

theorem test_decode_cmpa :
  decode [0b1011_001_011_010011] = .instr (.cmpaW (.ind 3) 1) [] ∧
  decode [0b1011_100_111_111000, 0x8000] = .instr (.cmpaL (.absShort 0x8000) 4) [] := by
  decide

theorem test_decode_cmp :
  decode [0b1011_111_000_111010, 0x0FFE] = .instr (.cmpB (.pcDisp 0x0FFE) 7) [] ∧
  decode [0b1011_010_001_000010] = .instr (.cmpW (.dn 2) 2) [] ∧
  decode [0b1011_101_010_111011, 0b1_101_1_000_00010000] = .instr (.cmpL (.pcIndex 0x10 ⟨.address, 5, .long⟩) 5) [] := by
  decide

theorem test_decode_addi :
  decode [0b00000110_00_101100, 0xFF80, 0xFFFC] = .instr (.addiB 0x80 (.disp 0xFFFC 4)) [] ∧
  decode [0b00000110_01_100001, 0x8001] = .instr (.addiW 0x8001 (.preDec 1)) [] ∧
  decode [0b00000110_10_111001, 0x1234, 0x5678, 0x0001, 0x2000] = .instr (.addiL 0x12345678 (.absLong 0x00012000)) [] := by
  decide

theorem test_decode_subi :
  decode [0b00000100_00_011011, 0xFF80] = .instr (.subiB 0x80 (.postInc 3)) [] ∧
  decode [0b00000100_01_110000, 0x8001, 0b0_001_0_000_11111110] = .instr (.subiW 0x8001 (.index 0xFE 0 ⟨.data, 1, .word⟩)) [] ∧
  decode [0b00000100_10_010101, 0x1234, 0x5678] = .instr (.subiL 0x12345678 (.ind 5)) [] := by
  decide

theorem test_decode_cmpi :
  decode [0b00001100_00_111000, 0xFF80, 0x8000] = .instr (.cmpiB 0x80 (.absShort 0x8000)) [] ∧
  decode [0b00001100_01_000111, 0x8001] = .instr (.cmpiW 0x8001 (.dn 7)) [] ∧
  decode [0b00001100_10_101100, 0x1234, 0x5678, 0xFFFC] = .instr (.cmpiL 0x12345678 (.disp 0xFFFC 4)) [] := by
  decide

theorem test_decode_addq :
  decode [0b0101_111_0_00_100001] = .instr (.addqB 7 (.preDec 1)) [] ∧
  decode [0b0101_010_0_01_111001, 0x0001, 0x2000] = .instr (.addqW 2 (.absLong 0x00012000)) [] ∧
  decode [0b0101_101_0_10_011011] = .instr (.addqL 5 (.postInc 3)) [] := by
  decide

theorem test_decode_subq :
  decode [0b0101_000_1_00_110000, 0b0_001_0_000_11111110] = .instr (.subqB 8 (.index 0xFE 0 ⟨.data, 1, .word⟩)) [] ∧
  decode [0b0101_011_1_01_010101] = .instr (.subqW 3 (.ind 5)) [] ∧
  decode [0b0101_110_1_10_111000, 0x8000] = .instr (.subqL 6 (.absShort 0x8000)) [] := by
  decide

theorem test_decode_addx :
  decode [0b1101_101_1_00_000_110] = .instr (.addxRegB 6 5) [] ∧
  decode [0b1101_000_1_01_000_011] = .instr (.addxRegW 3 0) [] ∧
  decode [0b1101_011_1_10_000_000] = .instr (.addxRegL 0 3) [] ∧
  decode [0b1101_110_1_00_001_101] = .instr (.addxMemB 5 6) [] ∧
  decode [0b1101_001_1_01_001_010] = .instr (.addxMemW 2 1) [] ∧
  decode [0b1101_100_1_10_001_111] = .instr (.addxMemL 7 4) [] := by
  decide

theorem test_decode_subx :
  decode [0b1001_111_1_00_000_100] = .instr (.subxRegB 4 7) [] ∧
  decode [0b1001_010_1_01_000_001] = .instr (.subxRegW 1 2) [] ∧
  decode [0b1001_101_1_10_000_110] = .instr (.subxRegL 6 5) [] ∧
  decode [0b1001_000_1_00_001_011] = .instr (.subxMemB 3 0) [] ∧
  decode [0b1001_011_1_01_001_000] = .instr (.subxMemW 0 3) [] ∧
  decode [0b1001_110_1_10_001_101] = .instr (.subxMemL 5 6) [] := by
  decide

theorem test_decode_cmpm :
  decode [0b1011_001_1_00_001_010] = .instr (.cmpmB 2 1) [] ∧
  decode [0b1011_100_1_01_001_111] = .instr (.cmpmW 7 4) [] ∧
  decode [0b1011_111_1_10_001_100] = .instr (.cmpmL 4 7) [] := by
  decide

theorem test_decode_divs :
  decode [0b1000_010_111_111010, 0x0FFE] = .instr (.divs (.pcDisp 0x0FFE) 2) [] := by
  decide

theorem test_decode_divu :
  decode [0b1000_101_011_000111] = .instr (.divu (.dn 7) 5) [] := by
  decide

theorem test_decode_muls :
  decode [0b1100_000_111_111011, 0b1_101_1_000_00010000] = .instr (.muls (.pcIndex 0x10 ⟨.address, 5, .long⟩) 0) [] := by
  decide

theorem test_decode_mulu :
  decode [0b1100_011_011_101001, 0xFFFC] = .instr (.mulu (.disp 0xFFFC 1) 3) [] := by
  decide

theorem test_decode_ext :
  decode [0b0100100010000_110] = .instr (.extW 6) [] ∧
  decode [0b0100100011000_001] = .instr (.extL 1) [] := by
  decide

theorem test_decode_neg :
  decode [0b01000100_00_100000] = .instr (.negB (.preDec 0)) [] ∧
  decode [0b01000100_01_111001, 0x0001, 0x2000] = .instr (.negW (.absLong 0x00012000)) [] ∧
  decode [0b01000100_10_011010] = .instr (.negL (.postInc 2)) [] := by
  decide

theorem test_decode_negx :
  decode [0b01000000_00_110111, 0b0_001_0_000_11111110] = .instr (.negxB (.index 0xFE 7 ⟨.data, 1, .word⟩)) [] ∧
  decode [0b01000000_01_010100] = .instr (.negxW (.ind 4)) [] ∧
  decode [0b01000000_10_111000, 0x8000] = .instr (.negxL (.absShort 0x8000)) [] := by
  decide

theorem test_decode_clr :
  decode [0b01000010_00_000110] = .instr (.clrB (.dn 6)) [] ∧
  decode [0b01000010_01_101011, 0xFFFC] = .instr (.clrW (.disp 0xFFFC 3)) [] ∧
  decode [0b01000010_10_100000] = .instr (.clrL (.preDec 0)) [] := by
  decide

theorem test_decode_tst :
  decode [0b01001010_00_111001, 0x0001, 0x2000] = .instr (.tstB (.absLong 0x00012000)) [] ∧
  decode [0b01001010_01_011010] = .instr (.tstW (.postInc 2)) [] ∧
  decode [0b01001010_10_110111, 0b0_001_0_000_11111110] = .instr (.tstL (.index 0xFE 7 ⟨.data, 1, .word⟩)) [] := by
  decide

theorem test_decode_tas :
  decode [0b01001010_11_010100] = .instr (.tas (.ind 4)) [] := by
  decide

/-- Words that are no instruction here (rules R91, R96 point 9, R97): a TAS of mode `111 100`, an exclusive
or, a size field `11` on the CLR line, an `An` with Byte size, an index word with bit 8 set. -/
theorem test_decode_refuses :
    decode [0b01001010_11_111100] = .error (.notInScope 0x4AFC) ∧
    decode [0b1011_000_1_01_000_001] = .error (.notInScope 0xB141) ∧
    decode [0b01000010_11_000000] = .error (.notInScope 0x42C0) ∧
    decode [0b1101_000_000_001000] = .error (.notInScope 0xD008) ∧
    decode [0b01000010_00_110000, 0b0_000_0_001_00000000] = .error (.indexWordReserved 0x0100) := by
  decide

/-- The opcode table's numbering: the second word is bits 31..16. -/
theorem test_decode_table_word :
    decodeTableWord 32 0x8000D0FC = some (.addaW (.imm 0x8000) 0) ∧
    decodeTableWord 16 0xD0FC = some (.addaW (.imm 0) 0) ∧ decodeTableWord 16 0x4AFC = none := by
  decide

/-! ## Vectors of spec/95_test_vectors.md section 2, at most two for an instruction -/

/-- Registers that hold zero but for those listed. -/
def registers (l : List (Reg × Long)) : Vector Long 8 :=
  l.foldl (fun v p => v.set p.1 p.2) (Vector.replicate 8 0)

/-- The flags in the order X N Z V C, as the vectors print them. -/
def fl (x n z v c : Nat) : Flags := { n := n == 1, z := z == 1, v := v == 1, c := c == 1, x := x == 1 }

/-- The state of a vector: the words at $1000, MemMap their bytes and those listed. -/
def vector (ws : List Word) (d a : List (Reg × Long)) (m : List Host.Cell) (f : Flags) : State :=
  let stop := 0x1000 + 2 * ws.length
  { d := registers d
    a := registers a
    pc := 0x1000
    flags := f
    mem := m.foldl (fun m c => Memory.write m c.1 c.2) (placeBytes [] 0x1000 (bytesOfWords ws))
    layout :=
      { memMap := { base := 0x1000, size := 2 * ws.length } :: m.map fun c => { base := c.1, size := 1 }
        textBase := 0x1000
        textEnd := stop
        entryAddr := 0x1000
        endAddr := stop }
    draws := 0 }

/-- The step ends in a next state of which this holds. -/
def after (s : State) (p : State → Bool) : Bool :=
  match step s with
  | .next t => p t
  | _ => false

/-- `ADD.W (A0)+,D0`. -/
theorem test_add_word_postinc :
    after (vector [0xD058] [(0, 0x10001)] [(0, 0x2000)] [(0x2000, 0x7F), (0x2001, 0xFF)] (fl 0 0 0 0 0)) (fun t =>
      t.dreg 0 == 0x18000 && t.areg 0 == 0x2002 && t.flags == fl 0 1 0 1 0 && t.pc == 0x1002) = true := by
  decide

/-- `ADD.L D2,-4(A1)`. -/
theorem test_add_to_memory :
    after (vector [0xD5A9, 0xFFFC] [(2, 0x1)] [(1, 0x2004)] [(0x2000, 0x7F), (0x2001, 0xFF), (0x2002, 0xFF), (0x2003, 0xFF)] (fl 0 0 0 0 0)) (fun t =>
      t.byteAt 0x2000 == 0x80 && t.byteAt 0x2001 == 0x0 && t.byteAt 0x2002 == 0x0 &&
      t.byteAt 0x2003 == 0x0 && t.dreg 2 == 0x1 && t.flags == fl 0 1 0 1 0 && t.pc == 0x1004) = true := by
  decide

/-- `ADDA.W #$8000,A0`. -/
theorem test_adda_sign_extends :
    after (vector [0xD0FC, 0x8000] [] [(0, 0x10000)] [] (fl 1 1 1 1 1)) (fun t =>
      t.areg 0 == 0x8000 && t.flags == fl 1 1 1 1 1 && t.pc == 0x1004) = true := by
  decide

/-- `ADDI.B #$FF,D0`. -/
theorem test_addi_byte :
    after (vector [0x0600, 0x00FF] [(0, 0x1)] [] [] (fl 0 0 0 0 0)) (fun t =>
      t.dreg 0 == 0x0 && t.flags == fl 1 0 1 0 1 && t.pc == 0x1004) = true := by
  decide

/-- `ADDI.W #$1,($2000).W`. -/
theorem test_addi_word_absolute :
    after (vector [0x0678, 0x0001, 0x2000] [] [] [(0x2000, 0x7F), (0x2001, 0xFF)] (fl 0 0 0 0 0)) (fun t =>
      t.byteAt 0x2000 == 0x80 && t.byteAt 0x2001 == 0x0 && t.flags == fl 0 1 0 1 0 && t.pc == 0x1006) = true := by
  decide

/-- `ADDQ.B #8,D0`. -/
theorem test_addq_eight :
    after (vector [0x5000] [(0, 0x1F8)] [] [] (fl 0 0 0 0 0)) (fun t =>
      t.dreg 0 == 0x100 && t.flags == fl 1 0 1 0 1 && t.pc == 0x1002) = true := by
  decide

/-- `ADDQ.W #1,A0`. -/
theorem test_addq_address_register :
    after (vector [0x5248] [] [(0, 0xFFFF)] [] (fl 0 0 1 0 0)) (fun t =>
      t.areg 0 == 0x10000 && t.flags == fl 0 0 1 0 0 && t.pc == 0x1002) = true := by
  decide

/-- `ADDX.L D1,D0`. -/
theorem test_addx_zero_kept_clear :
    after (vector [0xD181] [(0, 0xFFFFFFFF), (1, 0x0)] [] [] (fl 1 0 0 0 0)) (fun t =>
      t.dreg 0 == 0x0 && t.flags == fl 1 0 0 0 1 && t.pc == 0x1002) = true := by
  decide

/-- `ADDX.B -(A0),-(A0)`. -/
theorem test_addx_one_register_twice :
    after (vector [0xD108] [] [(0, 0x2002)] [(0x2000, 0x5), (0x2001, 0x3)] (fl 0 0 1 0 0)) (fun t =>
      t.areg 0 == 0x2000 && t.byteAt 0x2000 == 0x8 && t.flags == fl 0 0 0 0 0 && t.pc == 0x1002) = true := by
  decide

/-- `CLR.W D0`. -/
theorem test_clr_upper_kept :
    after (vector [0x4240] [(0, 0x12345678)] [] [] (fl 1 1 0 1 1)) (fun t =>
      t.dreg 0 == 0x12340000 && t.flags == fl 1 0 1 0 0 && t.pc == 0x1002) = true := by
  decide

/-- `CMP.W A0,D0`. -/
theorem test_cmp_overflow :
    after (vector [0xB048] [(0, 0x7FFF)] [(0, 0xFFFF8000)] [] (fl 0 0 0 0 0)) (fun t =>
      t.dreg 0 == 0x7FFF && t.flags == fl 0 1 0 1 1 && t.pc == 0x1002) = true := by
  decide

/-- `CMPA.W D0,A0`. -/
theorem test_cmpa_sign_extends :
    after (vector [0xB0C0] [(0, 0x18000)] [(0, 0x8000)] [] (fl 0 0 0 0 0)) (fun t =>
      t.dreg 0 == 0x18000 && t.flags == fl 0 0 0 0 1 && t.pc == 0x1002) = true := by
  decide

/-- `CMPA.L A1,A0`. -/
theorem test_cmpa_long :
    after (vector [0xB1C9] [] [(0, 0x1000), (1, 0x2000)] [] (fl 0 0 0 0 0)) (fun t =>
      t.flags == fl 0 1 0 0 1 && t.pc == 0x1002) = true := by
  decide

/-- `CMPI.W #$2,(A0)+`. -/
theorem test_cmpi_postinc :
    after (vector [0x0C58, 0x0002] [] [(0, 0x2000)] [(0x2000, 0x0), (0x2001, 0x1)] (fl 0 0 0 0 0)) (fun t =>
      t.areg 0 == 0x2002 && t.flags == fl 0 1 0 0 1 && t.pc == 0x1004) = true := by
  decide

/-- `CMPM.B (A0)+,(A0)+`. -/
theorem test_cmpm_one_register_twice :
    after (vector [0xB108] [] [(0, 0x2000)] [(0x2000, 0x9), (0x2001, 0x3)] (fl 0 0 0 0 0)) (fun t =>
      t.areg 0 == 0x2002 && t.flags == fl 0 1 0 0 1 && t.pc == 0x1002) = true := by
  decide

/-- `CMPM.B (A7)+,(A0)+`. -/
theorem test_cmpm_stack_pointer :
    after (vector [0xB10F] [] [(7, 0x2000), (0, 0x2001)] [(0x2000, 0x1), (0x2001, 0x2)] (fl 0 0 0 0 0)) (fun t =>
      t.areg 0 == 0x2002 && t.areg 7 == 0x2002 && t.flags == fl 0 0 0 0 0 && t.pc == 0x1002) = true := by
  decide

/-- `DIVS.W #$FFF9,D0`. -/
theorem test_divs_negative :
    after (vector [0x81FC, 0xFFF9] [(0, 0xFFFFFF9C)] [] [] (fl 0 0 0 0 0)) (fun t =>
      t.dreg 0 == 0xFFFE000E && t.flags == fl 0 0 0 0 0 && t.pc == 0x1004) = true := by
  decide

/-- `DIVU.W D1,D0`. -/
theorem test_divu_upper :
    after (vector [0x80C1] [(0, 0xFFFEFFFF), (1, 0xFFFF)] [] [] (fl 0 0 0 0 0)) (fun t =>
      t.dreg 0 == 0xFFFEFFFF && t.flags == fl 0 1 0 0 0 && t.pc == 0x1002) = true := by
  decide

/-- `EXT.W D0`. -/
theorem test_ext_word :
    after (vector [0x4880] [(0, 0x12345680)] [] [] (fl 1 0 0 1 1)) (fun t =>
      t.dreg 0 == 0x1234FF80 && t.flags == fl 1 1 0 0 0 && t.pc == 0x1002) = true := by
  decide

/-- `EXT.L D7`. -/
theorem test_ext_long :
    after (vector [0x48C7] [(7, 0x12348000)] [] [] (fl 0 0 0 0 0)) (fun t =>
      t.dreg 7 == 0xFFFF8000 && t.flags == fl 0 1 0 0 0 && t.pc == 0x1002) = true := by
  decide

/-- `MULS.W D1,D0`. -/
theorem test_muls_negative :
    after (vector [0xC1C1] [(0, 0x8000), (1, 0x7FFF)] [] [] (fl 0 0 0 0 0)) (fun t =>
      t.dreg 0 == 0xC0008000 && t.flags == fl 0 1 0 0 0 && t.pc == 0x1002) = true := by
  decide

/-- `MULS.W #$0,D0`. -/
theorem test_muls_zero :
    after (vector [0xC1FC, 0x0000] [(0, 0xFFFF1234)] [] [] (fl 0 0 0 0 0)) (fun t =>
      t.dreg 0 == 0x0 && t.flags == fl 0 0 1 0 0 && t.pc == 0x1004) = true := by
  decide

/-- `MULU.W D1,D0`. -/
theorem test_mulu_msb :
    after (vector [0xC0C1] [(0, 0xABCDFFFF), (1, 0x1234FFFF)] [] [] (fl 0 0 0 0 0)) (fun t =>
      t.dreg 0 == 0xFFFE0001 && t.flags == fl 0 1 0 0 0 && t.pc == 0x1002) = true := by
  decide

/-- `MULU.W (A0),D0`. -/
theorem test_mulu_memory :
    after (vector [0xC0D0] [(0, 0x10000)] [(0, 0x2000)] [(0x2000, 0xFF), (0x2001, 0xFF)] (fl 0 0 0 0 0)) (fun t =>
      t.dreg 0 == 0x0 && t.flags == fl 0 0 1 0 0 && t.pc == 0x1002) = true := by
  decide

/-- `NEG.B D0`. -/
theorem test_neg_most_negative :
    after (vector [0x4400] [(0, 0x11223380)] [] [] (fl 0 0 0 0 0)) (fun t =>
      t.dreg 0 == 0x11223380 && t.flags == fl 1 1 0 1 1 && t.pc == 0x1002) = true := by
  decide

/-- `NEGX.B D0`. -/
theorem test_negx_zero_kept :
    after (vector [0x4000] [(0, 0x0)] [] [] (fl 0 0 1 0 0)) (fun t =>
      t.dreg 0 == 0x0 && t.flags == fl 0 0 1 0 0 && t.pc == 0x1002) = true := by
  decide

/-- `NEGX.L -(A0)`. -/
theorem test_negx_predecrement :
    after (vector [0x40A0] [] [(0, 0x2004)] [(0x2000, 0xFF), (0x2001, 0xFF), (0x2002, 0xFF), (0x2003, 0xFF)] (fl 1 0 1 0 0)) (fun t =>
      t.areg 0 == 0x2000 && t.byteAt 0x2000 == 0x0 && t.byteAt 0x2001 == 0x0 && t.byteAt 0x2002 == 0x0 &&
      t.byteAt 0x2003 == 0x0 && t.flags == fl 1 0 1 0 1 && t.pc == 0x1002) = true := by
  decide

/-- `TST.W (A0)+`. -/
theorem test_tst_postinc :
    after (vector [0x4A58] [] [(0, 0x2000)] [(0x2000, 0x80), (0x2001, 0x0)] (fl 0 0 0 0 0)) (fun t =>
      t.areg 0 == 0x2002 && t.flags == fl 0 1 0 0 0 && t.pc == 0x1002) = true := by
  decide

/-- `TST.W D0`. -/
theorem test_tst_upper_ignored :
    after (vector [0x4A40] [(0, 0xFFFF0000)] [] [] (fl 0 0 0 0 0)) (fun t =>
      t.dreg 0 == 0xFFFF0000 && t.flags == fl 0 0 1 0 0 && t.pc == 0x1002) = true := by
  decide

/-- `SUB.L 16(PC,A1.L),D0`. -/
theorem test_sub_pc_index :
    after (vector [0x90BB, 0x9810] [(0, 0x100)] [(1, 0x1000)] [(0x2012, 0x0), (0x2013, 0x0), (0x2014, 0x0), (0x2015, 0xFF)] (fl 0 0 0 0 0)) (fun t =>
      t.dreg 0 == 0x1 && t.flags == fl 0 0 0 0 0 && t.pc == 0x1004) = true := by
  decide

/-- `SUB.B -(A7),D0`. -/
theorem test_sub_stack_pointer :
    after (vector [0x9027] [(0, 0x10)] [(7, 0x2002)] [(0x2000, 0xF), (0x2001, 0xEE)] (fl 0 0 0 0 0)) (fun t =>
      t.dreg 0 == 0x1 && t.areg 7 == 0x2000 && t.flags == fl 0 0 0 0 0 && t.pc == 0x1002) = true := by
  decide

/-- `SUBA.W D0,A1`. -/
theorem test_suba_word :
    after (vector [0x92C0] [(0, 0xFFFF0001)] [(1, 0x0)] [] (fl 0 0 0 0 0)) (fun t =>
      t.areg 1 == 0xFFFFFFFF && t.dreg 0 == 0xFFFF0001 && t.flags == fl 0 0 0 0 0 && t.pc == 0x1002) = true := by
  decide

/-- `SUBI.W #$8000,2(A0)`. -/
theorem test_subi_offset :
    after (vector [0x0468, 0x8000, 0x0002] [] [(0, 0x2000)] [(0x2002, 0x7F), (0x2003, 0xFF)] (fl 0 0 0 0 0)) (fun t =>
      t.byteAt 0x2002 == 0xFF && t.flags == fl 1 1 0 1 1 && t.pc == 0x1006) = true := by
  decide

/-- `SUBI.L #$1,($00012000).L`. -/
theorem test_subi_longest :
    after (vector [0x04B9, 0x0000, 0x0001, 0x0001, 0x2000] [] [] [(0x12000, 0x0), (0x12001, 0x0), (0x12002, 0x0), (0x12003, 0x0)] (fl 0 0 0 0 0)) (fun t =>
      t.byteAt 0x12000 == 0xFF && t.byteAt 0x12001 == 0xFF && t.byteAt 0x12002 == 0xFF &&
      t.byteAt 0x12003 == 0xFF && t.flags == fl 1 1 0 0 1 && t.pc == 0x100a) = true := by
  decide

/-- `SUBQ.W #8,(A0)`. -/
theorem test_subq_memory :
    after (vector [0x5150] [] [(0, 0x2000)] [(0x2000, 0x80), (0x2001, 0x7)] (fl 0 0 0 0 0)) (fun t =>
      t.byteAt 0x2000 == 0x7F && t.byteAt 0x2001 == 0xFF && t.flags == fl 0 0 0 1 0 && t.pc == 0x1002) = true := by
  decide

/-- `SUBQ.L #1,A0`. -/
theorem test_subq_address_register :
    after (vector [0x5388] [] [(0, 0x0)] [] (fl 0 0 1 0 0)) (fun t =>
      t.areg 0 == 0xFFFFFFFF && t.flags == fl 0 0 1 0 0 && t.pc == 0x1002) = true := by
  decide

/-- `SUBX.L D1,D0`. -/
theorem test_subx_zero_kept :
    after (vector [0x9181] [(0, 0x5), (1, 0x4)] [] [] (fl 1 0 1 0 0)) (fun t =>
      t.dreg 0 == 0x0 && t.flags == fl 0 0 1 0 0 && t.pc == 0x1002) = true := by
  decide

/-- `SUBX.W -(A0),-(A1)`. -/
theorem test_subx_memory :
    after (vector [0x9348] [] [(0, 0x2002), (1, 0x2006)] [(0x2000, 0x0), (0x2001, 0x1), (0x2002, 0xEE), (0x2003, 0xEE), (0x2004, 0x0), (0x2005, 0x1)] (fl 1 0 1 0 0)) (fun t =>
      t.areg 0 == 0x2000 && t.areg 1 == 0x2004 && t.byteAt 0x2004 == 0xFF && t.byteAt 0x2005 == 0xFF &&
      t.flags == fl 1 1 0 0 1 && t.pc == 0x1002) = true := by
  decide

/-- `TAS.B (A0)`. -/
theorem test_tas_memory :
    after (vector [0x4AD0] [] [(0, 0x2000)] [(0x2000, 0x0)] (fl 1 0 0 1 1)) (fun t =>
      t.byteAt 0x2000 == 0x80 && t.flags == fl 1 0 1 0 0 && t.pc == 0x1002) = true := by
  decide

/-- `TAS.B D0`. -/
theorem test_tas_register :
    after (vector [0x4AC0] [(0, 0x1234567F)] [] [] (fl 0 0 0 0 0)) (fun t =>
      t.dreg 0 == 0x123456FF && t.flags == fl 0 0 0 0 0 && t.pc == 0x1002) = true := by
  decide

/-! Vectors that stop, and overflows, whose N and Z are free. -/

/-- `DIVS.W D1,D0` with D0=$80000000, D1=$0000FFFF: V set, C cleared, D0 kept. -/
theorem test_divs_overflow :
    after (vector [0x81C1] [(0, 0x80000000), (1, 0xFFFF)] [] [] (fl 0 0 0 0 0)) (fun t =>
      t.dreg 0 == 0x80000000 && t.flags.v && !t.flags.c && !t.flags.x && t.pc == 0x1002) = true := by
  decide

/-- `DIVU.W (A0)+,D0` with a zero word at A0 (rule R230): the trap, A0 stepped, pc and X kept. -/
theorem test_trap_zero_divide :
    (match step (vector [0x80D8] [(0, 0x4D)] [(0, 0x2000)] [(0x2000, 0), (0x2001, 0)] (fl 0 0 0 0 0)) with
      | .fault (.zeroDivide t) => t.areg 0 == 0x2002 && t.dreg 0 == 0x4D && t.pc == 0x1000 && !t.flags.x
      | _ => false) = true := by
  decide

/-- `CLR.W (A0)` with A0=$00002001, a vector; `CMPI.W #2,(A0)` with the same A0 (rule R43). -/
theorem test_address_error :
    (match step (vector [0x4250] [] [(0, 0x2001)] [(0x2001, 2), (0x2002, 3)] (fl 0 0 0 0 0)) with
      | .fault (.addressError .write 2 0x2001#32 t) => t.pc == 0x1000 && t.byteAt 0x2001 == 2
      | _ => false) = true ∧
    (match step (vector [0x0C50, 2] [] [(0, 0x2001)] [(0x2001, 0), (0x2002, 0)] (fl 0 0 0 0 0)) with
      | .fault (.addressError .read 2 0x2001#32 t) => t.pc == 0x1000
      | _ => false) = true := by
  decide

/-- `CMP.L ($2000).W,D0` with only $2000 to $2002 in MemMap (rule R45). -/
theorem test_access_fault :
    (match step (vector [0xB0B8, 0x2000] [] [] [(0x2000, 0), (0x2001, 0), (0x2002, 0)] (fl 0 0 0 0 0)) with
      | .fault (.accessFault 0x2000#32 t) => t.pc == 0x1000
      | _ => false) = true := by
  decide

/-- `ADDA.W (A0)+,A0` and `SUBA.L -(A3),A3`: refused, nothing stepped. -/
theorem test_overlap_refused :
    (match step (vector [0xD0D8] [] [(0, 0x2000)] [(0x2000, 0), (0x2001, 2)] (fl 0 0 0 0 0)) with
      | .refused (.overlapUnspecified t) => t.areg 0 == 0x2000 && t.pc == 0x1000
      | _ => false) = true ∧
    (match step (vector [0x97E3] [] [(3, 0x2004)] [(0x2000, 0), (0x2003, 1)] (fl 0 0 0 0 0)) with
      | .refused (.overlapUnspecified t) => t.areg 3 == 0x2004 && t.pc == 0x1000
      | _ => false) = true := by
  decide

/-- Rule R70: `NEG.B ($1000).W` stores into its own program. -/
theorem test_program_text_refused :
    (match step (vector [0x4438, 0x1000] [] [] [] (fl 0 0 0 0 0)) with
      | .refused (.writeToProgramText 0x1000#32 t) => t.pc == 0x1000
      | _ => false) = true := by
  decide

/-! ## Witnesses: states and operands that meet the hypotheses of the obligations, at boundary values -/

/-- MemMap is $0F00 to $2FFF, ProgramText $1000 to $100F.  A0 is $2000, A1 odd, A2 the last Word of MemMap,
A3 the first address after it, A4 and A6 the first and last byte of ProgramText, A5 the first after it. -/
def wit : State :=
  { State.reset with
    d := registers [(1, 0xFFFF0000), (2, 1), (3, 5)]
    a := registers [(0, 0x2000), (1, 0x2001), (2, 0x2FFE), (3, 0x3000), (4, 0x1000), (5, 0x1010),
      (6, 0x100F), (7, 0x2002)]
    layout :=
      { memMap := [{ base := 0xF00, size := 0x2100 }]
        textBase := 0x1000
        textEnd := 0x1010
        entryAddr := 0x1000
        endAddr := 0x1010 } }

/-- How the access to an operand stops in `wit`. -/
def stopOf (kind : AccessKind) (sz : Size) (ea : Ea) : Option Fault :=
  accessStop kind sz (resolveEa sz ea wit).1 (resolveEa sz ea wit).2

/-- How a store to an operand is refused in `wit`. -/
def refusalOf (sz : Size) (ea : Ea) : Option Refusal :=
  textStop sz (resolveEa sz ea wit).1 (resolveEa sz ea wit).2

/-- The premises of the clauses of a statement about an instruction that reads an operand of a size: well
formed and readable at the last address of MemMap and from a register; well formed and stopped one Word
later and, but for a Byte, at an odd address. -/
def readClauses (sz : Size) (mk : Ea → Instr) : Bool :=
  (mk (.dn 7)).wf && (stopOf .read sz (.dn 7)).isNone &&
  (mk (.preDec 3)).wf && (stopOf .read sz (.preDec 3)).isNone &&
  (mk (.ind 3)).wf && (stopOf .read sz (.ind 3)).isSome &&
  (mk (.ind 1)).wf && ((sz == .byte) != (stopOf .read sz (.ind 1)).isSome)

/-- The same for an instruction that stores: also the first address after ProgramText, and refused at its
last. -/
def storeClauses (kind : AccessKind) (sz : Size) (mk : Ea → Instr) : Bool :=
  (mk (.ind 5)).wf && (stopOf kind sz (.ind 5)).isNone && (refusalOf sz (.ind 5)).isNone &&
  (mk (.preDec 3)).wf && (stopOf kind sz (.preDec 3)).isNone && (refusalOf sz (.preDec 3)).isNone &&
  (mk (.ind 3)).wf && (stopOf kind sz (.ind 3)).isSome &&
  (mk (.ind 1)).wf && ((sz == .byte) != (stopOf kind sz (.ind 1)).isSome) &&
  (mk (.preDec 5)).wf && (stopOf kind sz (.preDec 5)).isNone && (refusalOf sz (.preDec 5)).isSome &&
  (mk (.ind 4)).wf && (stopOf kind sz (.ind 4)).isNone && (refusalOf sz (.ind 4)).isSome

/-- A premise for each of the three sizes. -/
def sizes (p : Size → Bool) : Bool := p .byte && p .word && p .long

/-- The premises of the clauses of ADDX, SUBX and CMPM in memory: both read, the source stopped, the destination
stopped, the destination refused. -/
def pairClauses (step : Reg → Ea) (sz : Size) (src dst : Reg) : Bool × Bool × Bool :=
  let p := resolveEa sz (step src) wit
  let q := resolveEa sz (step dst) p.2
  ((accessStop .read sz p.1 p.2).isSome, (accessStop .read sz q.1 q.2).isSome, (textStop sz q.1 q.2).isSome)

theorem wit_AddToDataRegister : sizes (fun sz => readClauses sz fun ea => Instr.addEaDn sz ea 7) = true := by
  decide

theorem wit_AddToMemory : sizes (fun sz => storeClauses .read sz (Instr.addDnEa sz 3)) = true := by
  decide

theorem wit_AddToAddressRegister :
    readClauses .word (fun ea => Instr.adda false ea 7) = true ∧
    readClauses .long (fun ea => Instr.adda true ea 7) = true ∧
    (Instr.adda true (.preDec 0) 0).wf = true ∧ (Instr.adda false (.postInc 7) 7).wf = true := by
  decide

theorem wit_AddImmediate :
    sizes (fun sz => storeClauses .read sz (Instr.addi sz 0xFFFFFFFF)) = true := by
  decide

theorem wit_AddQuick :
    sizes (fun sz => storeClauses .read sz (Instr.addq sz 1) && storeClauses .read sz (Instr.addq sz 8)) = true ∧
    (Instr.addq .word 1 (.an 7)).wf = true ∧ (Instr.addq .long 8 (.an 0)).wf = true := by
  decide

theorem wit_AddExtendedMemory :
    sizes (fun sz => pairClauses .preDec sz 0 3 == (false, false, false)) = true ∧
    pairClauses .preDec .word 0 0 = (false, false, false) ∧ (pairClauses .preDec .word 1 0).1 = true ∧
    pairClauses .preDec .long 0 1 = (false, true, false) ∧
    sizes (fun sz => pairClauses .preDec sz 0 5 == (false, false, true)) = true := by
  decide

theorem wit_ClearOperand : sizes (fun sz => storeClauses .write sz (Instr.clr sz)) = true := by
  decide

theorem wit_CompareDataRegister : sizes (fun sz => readClauses sz fun ea => Instr.cmp sz ea 7) = true := by
  decide

theorem wit_CompareAddressRegister :
    readClauses .word (fun ea => Instr.cmpa false ea 7) = true ∧
    readClauses .long (fun ea => Instr.cmpa true ea 7) = true ∧
    (Instr.cmpa true (.preDec 0) 0).wf = true ∧ (Instr.cmpa false (.postInc 7) 7).wf = true := by
  decide

theorem wit_CompareImmediate : sizes (fun sz => readClauses sz (Instr.cmpi sz 0xFFFFFFFF)) = true := by
  decide

theorem wit_CompareMemory :
    sizes (fun sz => (pairClauses .postInc sz 0 4) == (false, false, true)) = true ∧
    pairClauses .postInc .word 2 0 = (false, false, false) ∧ (pairClauses .postInc .word 3 0).1 = true ∧
    pairClauses .postInc .long 0 2 = (false, true, false) := by
  decide

/-- The instruction completes in a next state of which this holds. -/
def completes (i : Instr) (s : State) (p : State → Bool) : Bool :=
  match exec i s with
  | .next t => p t
  | _ => false

theorem wit_CompareOrders :
    sizes (fun sz => completes (Instr.cmp sz (.dn 2) 3) wit fun t => !t.flags.c) = true := by
  decide

/-- DIVS premises: the quotients at both ends of the 16-bit range and just outside, and a zero divisor. -/
theorem wit_DivideSigned :
    readClauses .word (fun ea => .divs ea 0) = true ∧
    (let v : Word := locValue .word (resolveEa .word (.dn 2) wit).1 wit
     let q := fun n : Long => ((wit.setDreg 0 n).dreg 0).toInt.tdiv v.toInt
     v ≠ 0#16 ∧ q 0xFFFF8000 = -32768 ∧ q 0x00007FFF = 32767 ∧ q 0xFFFF7FFF = -32769 ∧ q 0x00008000 = 32768) ∧
    (locValue .word (resolveEa .word (.dn 1) wit).1 wit : Word) = 0#16 := by
  decide

/-- DIVU premises: the largest quotient, one more, and a zero divisor. -/
theorem wit_DivideUnsigned :
    readClauses .word (fun ea => .divu ea 0) = true ∧
    (let v : Word := locValue .word (resolveEa .word (.dn 2) wit).1 wit
     let q := fun n : Long => ((wit.setDreg 0 n).dreg 0).toNat / v.toNat
     v ≠ 0#16 ∧ q 0xFFFF = 65535 ∧ q 0x10000 = 65536) ∧
    (locValue .word (resolveEa .word (.dn 1) wit).1 wit : Word) = 0#16 := by
  decide

theorem wit_DivideMeaning :
    completes (.divs (.dn 2) 0) (wit.setDreg 0 0xFFFF8000) (fun t => !t.flags.v) = true ∧
    completes (.divs (.dn 2) 0) (wit.setDreg 0 0x8000) (fun t => t.flags.v) = true ∧
    completes (.divu (.dn 2) 0) (wit.setDreg 0 0xFFFF) (fun t => !t.flags.v) = true ∧
    completes (.divu (.dn 2) 0) (wit.setDreg 0 0x10000) (fun t => t.flags.v) = true := by
  decide

theorem wit_ZeroDivideTrap :
    (stopOf .read .word (.dn 1)).isNone = true ∧ (locValue .word (.dreg 1) wit : Word) = 0#16 ∧
    (stopOf .read .word (.dn 2)).isNone = true ∧ (locValue .word (.dreg 2) wit : Word) ≠ 0#16 ∧
    wit.dreg 0 = 0#32 ∧
    (match exec (.divu (.dn 1) 0) wit with
      | .fault (.zeroDivide _) => true
      | _ => false) = true := by
  decide

theorem wit_MultiplySigned : readClauses .word (fun ea => .muls ea 0) = true := by
  decide

theorem wit_MultiplyUnsigned : readClauses .word (fun ea => .mulu ea 0) = true := by
  decide

theorem wit_NegateOperand : sizes (fun sz => storeClauses .read sz (Instr.neg sz)) = true := by
  decide

theorem wit_NegateExtended : sizes (fun sz => storeClauses .read sz (Instr.negx sz)) = true := by
  decide

theorem wit_SubtractFromDataRegister :
    sizes (fun sz => readClauses sz fun ea => Instr.subEaDn sz ea 7) = true := by
  decide

theorem wit_SubtractFromMemory : sizes (fun sz => storeClauses .read sz (Instr.subDnEa sz 3)) = true := by
  decide

theorem wit_SubtractFromAddressRegister :
    readClauses .word (fun ea => Instr.suba false ea 7) = true ∧
    readClauses .long (fun ea => Instr.suba true ea 7) = true ∧
    (Instr.suba true (.preDec 0) 0).wf = true ∧ (Instr.suba false (.postInc 7) 7).wf = true := by
  decide

theorem wit_SubtractImmediate :
    sizes (fun sz => storeClauses .read sz (Instr.subi sz 0xFFFFFFFF)) = true := by
  decide

theorem wit_SubtractQuick :
    sizes (fun sz => storeClauses .read sz (Instr.subq sz 1) && storeClauses .read sz (Instr.subq sz 8)) = true ∧
    (Instr.subq .word 1 (.an 7)).wf = true ∧ (Instr.subq .long 8 (.an 0)).wf = true := by
  decide

/-- The premises do not name the operation: those of ADDX. -/
theorem wit_SubtractExtendedMemory :
    sizes (fun sz => pairClauses .preDec sz 0 3 == (false, false, false)) = true ∧
    (pairClauses .preDec .word 1 0).1 = true ∧ pairClauses .preDec .long 0 1 = (false, true, false) ∧
    sizes (fun sz => pairClauses .preDec sz 0 5 == (false, false, true)) = true := by
  decide

theorem wit_TestAndSetByte : storeClauses .read .byte .tas = true := by
  decide

theorem wit_TestOperand : sizes (fun sz => readClauses sz (Instr.tst sz)) = true := by
  decide

/-- An ill-aligned, an unmapped, a good and a refused address, each next to the boundary. -/
theorem wit_MemoryPrimitives :
    (Size.word ≠ .byte ∧ (0x2FFF : Long).toNat % 2 = 1) ∧
    (¬ (Size.byte ≠ .byte ∧ (0x3001 : Long).toNat % 2 = 1) ∧ wit.layout.admits (0x3001 + BitVec.ofNat 32 0) = false) ∧
    (¬ (Size.long ≠ .byte ∧ (0x2FFE : Long).toNat % 2 = 1) ∧ wit.layout.admits (0x2FFE + BitVec.ofNat 32 2) = false) ∧
    (∀ k < Size.long.bytes, wit.layout.admits (0x2FFC + BitVec.ofNat 32 k) = true) ∧
    (∀ k < Size.long.bytes, wit.layout.inText (0x2FFC + BitVec.ofNat 32 k) = false) ∧
    (∀ k < Size.long.bytes, wit.layout.admits (0x0FFE + BitVec.ofNat 32 k) = true) ∧
    wit.layout.inText (0x0FFE + BitVec.ofNat 32 2) = true := by
  decide

theorem wit_DecodeOfEncode :
    (Instr.addqB 8 (.ind 7)).wf = true ∧ (Instr.addiL 0xFFFFFFFF (.absLong 0xFFFFFFFF)).wf = true ∧
    (Instr.cmpL (.imm 0xFFFFFFFF) 7).wf = true ∧ (Instr.muls (.pcIndex 0xFF ⟨.address, 7, .long⟩) 7).wf = true ∧
    (Instr.subxMemB 7 7).wf = true := by
  decide

theorem wit_EncodeOfDecode :
    decode [0xD07C, 0xFFFF, 0x4E71] = .instr (.addEaDnW (.imm 0xFFFF) 0) [0x4E71] ∧
    (Instr.addEaDnW (.imm 0xFFFF) 0).info.size ≠ .byte ∧
    decode [0xD010] = .instr (.addEaDnB (.ind 0) 0) [] ∧ (Instr.addEaDnB (.ind 0) 0).info.hasImm = false ∧
    (Instr.addEaDnB (.ind 0) 0).info.ea = some (.all, .ind 0) := by
  decide

theorem wit_DecodedIsWellFormed :
    decode [0x06B9, 0, 1, 0, 2, 0x4E71] = .instr (.addiL 1 (.absLong 2)) [0x4E71] := by
  decide

theorem wit_PcAdvancesByLength :
    completes (.extW 0) wit (fun _ => true) = true ∧
    completes (.addiL 1 (.absLong 0x2FFC)) wit (fun _ => true) = true := by
  decide

/-- An instruction that writes X and one that does not. -/
theorem wit_ExtendFlagWriters :
    completes (Instr.addq .byte 1 (.dn 0)) wit (fun _ => true) = true ∧
    completes (Instr.addq .word 1 (.an 0)) wit (fun _ => true) = true ∧
    completes (Instr.clr .long (.dn 0)) wit (fun _ => true) = true := by
  decide

theorem wit_FlagsAreNotRead : completes (.negB (.ind 0)) wit (fun _ => true) = true := by
  decide

theorem wit_UpperBitsKept : completes (.tas (.dn 1)) wit (fun _ => true) = true := by
  decide

/-- Each way an address register changes. -/
theorem wit_AddressRegisterWriters :
    completes (.addaW (.dn 3) 0) wit (fun t => t.areg 0 != wit.areg 0) = true ∧
    completes (.subqL 8 (.an 0)) wit (fun t => t.areg 0 != wit.areg 0) = true ∧
    completes (.tstB (.preDec 0)) wit (fun t => t.areg 0 != wit.areg 0) = true ∧
    completes (.cmpmB 0 4) wit (fun t => t.areg 4 != wit.areg 4) = true := by
  decide

/-- The instruction ends in a fault, or is refused. -/
def stops (fault : Bool) (o : Result State) : Bool :=
  match o with
  | .next _ => false
  | .fault _ => fault
  | .refused _ => !fault

theorem wit_StopCauses :
    (Instr.divs (.dn 1) 0).wf = true ∧ stops true (exec (.divs (.dn 1) 0) wit) = true ∧
    (Instr.tstW (.ind 1)).wf = true ∧ stops true (exec (.tstW (.ind 1)) wit) = true ∧
    (Instr.tstL (.ind 2)).wf = true ∧ stops true (exec (.tstL (.ind 2)) wit) = true ∧
    (Instr.clrB (.ind 6)).wf = true ∧ stops false (exec (.clrB (.ind 6)) wit) = true ∧
    (Instr.cmpaW (.preDec 0) 0).wf = true ∧ stops false (exec (.cmpaW (.preDec 0) 0) wit) = true := by
  decide

theorem wit_StoppedStepKeeps :
    stops true (step (vector [0x80C1] [] [] [] (fl 1 1 1 1 1))) = true ∧
    stops false (step (vector [0xD0D8] [] [] [] (fl 1 1 1 1 1))) = true := by
  decide

/-- `ADD.W 4094(PC),D0`: two words, the second the last of ProgramText. -/
theorem wit_StepRunsDecoded :
    let s := vector [0xD07A, 0x0FFE] [(0, 5)] [] [(0x2000, 0), (0x2001, 7)] (fl 0 0 0 0 0)
    decode [0xD07A, 0x0FFE] = .instr (.addEaDnW (.pcDisp 0x0FFE) 0) [] ∧ s.pc.toNat ≠ s.layout.endAddr ∧
    s.pc.toNat % 2 = 0 ∧
    (∀ k, k ≤ [(0x0FFE : Word)].length →
      allBytes s.layout.inText (fetchAddr s k) 2 = true ∧
      allBytes s.layout.admits (fetchAddr s k) 2 = true ∧
      some (s.valueAt .word (fetchAddr s k) : Word) = [(0xD07A : Word), 0x0FFE][k]?) := by
  decide

/-- ProgramText is $1000 to $1003. -/
def fetchLayout : Layout :=
  { memMap := [{ base := 0, size := 2 ^ 32 }]
    textBase := 0x1000
    textEnd := 0x1004
    entryAddr := 0x1000
    endAddr := 0x1004 }

theorem fetchLayout_ok : fetchLayout.Ok := by
  refine ⟨by decide, by decide, by decide, by decide, by decide, by decide, by decide, by decide, by decide,
    fun addr _ => ?_⟩
  have := addr.isLt
  simp [Layout.admits, fetchLayout]
  omega

/-- A pc and the two words of ProgramText. -/
def fetchState (pc : Long) (ws : List Word) : State :=
  { State.reset with pc := pc, mem := placeBytes [] 0x1000 (bytesOfWords ws), layout := fetchLayout }

/-- The premises of the six clauses: at EndAddr, at an odd pc, before TextBase, no instruction, an extension word
at TextEnd, a reserved index word. -/
theorem wit_FetchStops :
    fetchLayout.Ok ∧
    (fetchState 0x1004 []).pc.toNat = fetchLayout.endAddr ∧
    ((fetchState 0x1001 []).pc.toNat ≠ fetchLayout.endAddr ∧ (fetchState 0x1001 []).pc.toNat % 2 = 1) ∧
    allBytes fetchLayout.inText (fetchAddr (fetchState 0x0FFE []) 0) 2 = false ∧
    (allBytes fetchLayout.inText (fetchAddr (fetchState 0x1000 []) 0) 2 = true ∧
      (decodeOp ((fetchState 0x1000 [0x4AFC]).valueAt .word 0x1000)).isNone = true) ∧
    (let s := fetchState 0x1002 [0, 0x4278]
     (match decodeOp (s.valueAt .word (fetchAddr s 0)) with
       | some f => decide (1 ≤ f.extCount)
       | none => false) = true ∧
     allBytes fetchLayout.inText (fetchAddr s 0) 2 = true ∧
     allBytes fetchLayout.inText (fetchAddr s 1) 2 = false) ∧
    (let s := fetchState 0x1000 [0x4230, 0x0100]
     allBytes fetchLayout.inText (fetchAddr s 1) 2 = true ∧
     decode ((List.range 2).map fun k => s.valueAt .word (fetchAddr s k)) =
       .error (.indexWordReserved 0x0100)) := by
  refine ⟨fetchLayout_ok, ?_⟩
  decide

theorem wit_LoadedInstructionRuns :
    (Instr.addiL 1 (.absLong 0x2FFC)).wf = true ∧ State.reset.pc.toNat % 2 = 0 ∧
    State.reset.pc.toNat + (Instr.addiL 1 (.absLong 0x2FFC)).length < 2 ^ 32 ∧
    ({ State.reset with pc := 0xFFFFFFF4 } : State).pc.toNat % 2 = 0 ∧
    ({ State.reset with pc := 0xFFFFFFF4 } : State).pc.toNat + (Instr.addiL 1 (.absLong 0x2FFC)).length <
      2 ^ 32 := by
  decide

/-- A legal state in which the last instruction of the program is `ADD.W D0,D0`. -/
theorem fetchState_inv : (fetchState 0x1002 [0, 0xD040]).Inv :=
  ⟨fetchLayout_ok, by decide, by decide, by decide, by decide⟩

theorem wit_StepKeepsLegal :
    (fetchState 0x1002 [0, 0xD040]).Inv ∧ ∃ t, step (fetchState 0x1002 [0, 0xD040]) = .next t :=
  ⟨fetchState_inv, _, rfl⟩

theorem wit_ProgramTextIsImmutable :
    (∃ t, Reaches (fetchState 0x1002 [0, 0xD040]) t ∧ t.pc = 0x1004) ∧
    fetchLayout.inText 0x1000 = true ∧ fetchLayout.inText 0x1003 = true :=
  ⟨⟨_, .tail (.refl _) (rfl : step (fetchState 0x1002 [0, 0xD040]) = .next _), rfl⟩, by decide, by decide⟩

theorem wit_RunsAreFinite :
    (fetchState 0x1002 [0, 0xD040]).Inv ∧ after (fetchState 0x1002 [0, 0xD040]) (fun t => t.pc == 0x1004) = true :=
  ⟨fetchState_inv, by decide⟩

/-- Premises of the clauses with hypotheses, the immediate at both sides of its bound, and one form of each
clause as it is assembled. -/
theorem wit_GenericMnemonics :
    ((0xFF : Long).toNat < 2 ^ Size.byte.bits ∧ 2 ^ Size.byte.bits ≤ (0x100 : Long).toNat ∧
      (∀ r, Ea.ind 0 ≠ .dn r) ∧ (∀ r, Ea.ind 0 ≠ .an r)) ∧
    assemble .add (some .byte) [.imm 0xFF, .ind 0] = some (.addiB 0xFF (.ind 0)) ∧
    assemble .add (some .byte) [.imm 0x100, .ind 0] = none ∧
    assemble .add (some .byte) [.imm 0xFF, .pcDisp 0] = none ∧
    assemble .add (some .word) [.dn 1, .ind 0] = some (.addDnEaW 1 (.ind 0)) ∧
    assemble .sub (some .word) [.pcDisp 0, .an 7] = some (.subaW (.pcDisp 0) 7) ∧
    assemble .sub (some .byte) [.dn 0, .an 7] = none ∧
    assemble .cmp (some .long) [.imm 8, .dn 0] = some (.cmpL (.imm 8) 0) ∧
    assemble .cmp (some .long) [.dn 1, .ind 0] = none ∧
    assemble .sub (some .word) [.ind 1, .ind 0] = none ∧ assemble .add (some .word) [.dn 0] = none ∧
    assemble .addq none [.imm 8, .dn 0] = some (.addqW 8 (.dn 0)) := by
  decide

theorem wit_DefaultSize :
    assemble .add (some .word) [.dn 1, .dn 0] = some (.addEaDnW (.dn 1) 0) ∧
    assemble .tas (some .byte) [.ind 7] = some (.tas (.ind 7)) ∧
    assemble .divu (some .word) [.imm 7, .dn 0] = some (.divu (.imm 7) 0) := by
  decide

/-- The first and the last Word of ProgramText as EntryAddr. -/
theorem wit_LaunchIsLegal :
    (fetchState 0x1000 []).IsLaunch ∧
    ({ fetchState 0x1002 [] with layout := { fetchLayout with entryAddr := 0x1002 } } : State).IsLaunch := by
  have ok := fetchLayout_ok
  exact ⟨⟨ok, by decide, by decide, by decide⟩,
    ⟨⟨ok.base_even, ok.end_even, ok.nonempty, ok.end_le, by decide, ok.stop_even, by decide, by decide, ok.stop_end,
      ok.mapped⟩, by decide, by decide, by decide⟩⟩

/-- Rule R260: no launch at TextEnd, which rule R263 admits as EntryAddr. -/
theorem test_launch_inside_text :
    ¬ ({ fetchState 0x1004 [] with layout := { fetchLayout with entryAddr := 0x1004 } } : State).IsLaunch :=
  fun h => absurd h.in_text (by decide)

end Sys2Proof.Tests
end

/-! ## Arithmetic primitives at every width (spec/00_scope.md rules R9, R11) -/

namespace Sys2Proof.Machine

/-- Operands and carry in are too small for the sum to wrap more than once. -/
theorem addN_toNat_wraps_at_most_once {n : Nat} (d s : BitVec n) (xin : Bool) :
    (addN d s xin).value.toNat = d.toNat + s.toNat + xin.toNat ∨
      (addN d s xin).value.toNat + 2 ^ n = d.toNat + s.toNat + xin.toNat := by
  have hd := d.isLt
  have hs := s.isLt
  have hx := Bool.toNat_le xin
  rw [addN, BitVec.toNat_ofNat]
  by_cases hfits : d.toNat + s.toNat + xin.toNat < 2 ^ n
  · exact .inl (Nat.mod_eq_of_lt hfits)
  · rw [Nat.mod_eq_sub_mod (Nat.le_of_not_lt hfits), Nat.mod_eq_of_lt (by omega)]
    omega

theorem outsideSigned_iff (n : Nat) (i : Int) :
    outsideSigned n i = true ↔ i < -(2 ^ (n - 1)) ∨ 2 ^ (n - 1) - 1 < i := by
  rw [outsideSigned, Bool.or_eq_true, decide_eq_true_eq, decide_eq_true_eq, Int.sub_one_lt_iff]

/-- The first form of Vout in rule R9. -/
theorem addN_overflow_iff {n : Nat} (d s : BitVec n) (xin : Bool) :
    (addN d s xin).overflow = true ↔
      d.toInt + s.toInt + xin.toNat < -(2 ^ (n - 1)) ∨ 2 ^ (n - 1) - 1 < d.toInt + s.toInt + xin.toNat :=
  outsideSigned_iff n _

/-- The signed value through the halves of the unsigned range: below the half it is the unsigned value, from the
half on it lies one whole range lower, and the top bit tells which. -/
theorem toInt_of_half_range {n : Nat} (r : BitVec n) :
    (r.msb = false ∧ r.toNat < 2 ^ (n - 1) ∧ r.toInt = r.toNat) ∨
      (r.msb = true ∧ 2 ^ (n - 1) ≤ r.toNat ∧ r.toInt = r.toNat - 2 ^ n) := by
  have hmsb := BitVec.msb_eq_decide r
  rw [BitVec.toInt_eq_msb_cond]
  cases h : r.msb <;> simp_all

/-- The second form of Vout in rule R9: the operands have one sign and the result has the other. -/
theorem addN_overflow_eq_msb {n : Nat} (hn : 0 < n) (d s : BitVec n) (xin : Bool) :
    (addN d s xin).overflow = (d.msb == s.msb && (addN d s xin).value.msb != d.msb) := by
  have hhalf : ((2 ^ (n - 1) : Nat) : Int) = 2 ^ (n - 1) := Nat.cast_pow 2 (n - 1)
  have hfull : ((2 ^ n : Nat) : Int) = 2 ^ n := Nat.cast_pow 2 n
  have hpow : 2 ^ (n - 1) * 2 = 2 ^ n := Nat.two_pow_pred_mul_two hn
  have hsum := addN_toNat_wraps_at_most_once d s xin
  have hx := Bool.toNat_le xin
  have hr := (addN d s xin).value.isLt
  rw [Bool.eq_iff_iff, addN_overflow_iff, BitVec.msb_eq_decide (addN d s xin).value]
  -- By the operands' signs: each negative one takes a whole range off the unsigned sum.
  rcases toInt_of_half_range d with ⟨hd, hdn, hdi⟩ | ⟨hd, hdn, hdi⟩ <;>
    rcases toInt_of_half_range s with ⟨hs, hsn, hsi⟩ | ⟨hs, hsn, hsi⟩ <;>
    simp [hd, hs, hdi, hsi] <;> omega

/-- Settles O7: value and carry are the model's own, both forms of the overflow are
`addN_overflow_iff` and `addN_overflow_eq_msb` at the width of the operand size. -/
theorem additionPrimitive : Obligations.AdditionPrimitive := by
  intro sz d s xin
  refine ⟨BitVec.toNat_ofNat _ _, rfl, ?_, addN_overflow_eq_msb (bits_pos sz) d s xin⟩
  exact Bool.eq_iff_iff.2 ((addN_overflow_iff d s xin).trans decide_eq_true_iff.symm)

/-- Settles O9: N is the top bit by its definition, and a word is zero exactly when its number is. -/
theorem negativeAndZero : Obligations.NegativeAndZero := by
  intro sz r
  refine ⟨BitVec.msb_eq_getLsbD_last r, ?_⟩
  have hzero : r = 0#sz.bits ↔ r.toNat = 0 := by rw [← BitVec.toNat_inj, BitVec.toNat_zero]
  exact decide_eq_decide.2 hzero

end Sys2Proof.Machine

/-! ## Bits 31..n of the data registers (spec/10_state.md rule R21, spec/00_scope.md rule R12) -/

namespace Sys2Proof.Machine

/-! ### What a shape that completes has done, for the shapes that write their operand -/

theorem modifyEa_next {sz : Size} {op : BitVec sz.bits → Alu sz.bits} {flags : Flags → Alu sz.bits → Flags}
    {dst : Ea} {len : Nat} {s t : State} (h : modifyEa sz op flags dst len s = .next t) :
    let p := resolveEa sz dst s
    let out := op (locValue sz p.1 p.2)
    t = ((putLoc sz p.1 out.value p.2).setFlags (flags s.flags out)).advance len := by
  obtain ⟨d, hread, hwrite⟩ := andThen_eq_next.1 h
  rw [readLoc_eq] at hread
  obtain ⟨-, rfl⟩ := orStop_eq_next.1 hread
  obtain ⟨s2, hs2, ht⟩ := andThen_eq_next.1 hwrite
  obtain ⟨-, -, -, rfl⟩ := writeLoc_next hs2
  cases ht
  simp

theorem clear_next {sz : Size} {dst : Ea} {s t : State} (h : clear sz dst s = .next t) :
    t = ((putLoc sz (resolveEa sz dst s).1 0 (resolveEa sz dst s).2).setFlags s.flags.clear).advance
      (2 + dst.extBytes sz) := by
  obtain ⟨s1, hs1, ht⟩ := andThen_eq_next.1 h
  obtain ⟨-, -, -, rfl⟩ := writeLoc_next hs1
  cases ht
  simp

theorem testAndSet_next {dst : Ea} {s t : State} (h : testAndSet dst s = .next t) :
    let p := resolveEa .byte dst s
    let d : Byte := locValue .byte p.1 p.2
    t = ((putLoc .byte p.1 (d ||| 0x80#8) p.2).setFlags (s.flags.test d)).advance (2 + dst.extBytes .byte) := by
  obtain ⟨d, hread, hwrite⟩ := andThen_eq_next.1 h
  rw [readLoc_eq] at hread
  obtain ⟨-, rfl⟩ := orStop_eq_next.1 hread
  obtain ⟨s2, hs2, ht⟩ := andThen_eq_next.1 hwrite
  obtain ⟨-, -, -, rfl⟩ := writeLoc_next hs2
  cases ht
  simp

theorem extendedMem_next {sz : Size} {op : BitVec sz.bits → BitVec sz.bits → Bool → Alu sz.bits}
    {src dst : Reg} {s t : State} (h : extendedMem sz op src dst s = .next t) :
    ∃ v d loc s1, readPair sz (.preDec src) (.preDec dst) s = .next (v, d, loc, s1) ∧
      t = ((putLoc sz loc (op d v s1.flags.x).value s1).setFlags
        (s1.flags.extended (op d v s1.flags.x))).advance 2 := by
  obtain ⟨⟨v, d, loc, s1⟩, hpair, hwrite⟩ := andThen_eq_next.1 h
  obtain ⟨s2, hs2, ht⟩ := andThen_eq_next.1 hwrite
  obtain ⟨-, -, -, rfl⟩ := writeLoc_next hs2
  cases ht
  exact ⟨v, d, loc, s1, hpair, by simp⟩

/-! ### Reading operands changes no data register -/

theorem readEa_next {sz : Size} {ea : Ea} {s s1 : State} {v : BitVec sz.bits}
    (h : readEa sz ea s = .next (v, s1)) : s1 = (resolveEa sz ea s).2 := by
  rw [readEa_eq] at h
  obtain ⟨-, heq⟩ := orStop_eq_next.1 h
  exact (congrArg Prod.snd heq).symm

theorem d_readPair {sz : Size} {src dst : Ea} {s s1 : State} {v d : BitVec sz.bits} {loc : Loc}
    (h : readPair sz src dst s = .next (v, d, loc, s1)) : s1.d = s.d := by
  obtain ⟨⟨v', s'⟩, hsrc, hdst⟩ := andThen_eq_next.1 h
  obtain ⟨d', -, heq⟩ := andThen_eq_next.1 hdst
  cases heq
  rw [d_resolveEa, readEa_next hsrc, d_resolveEa]

theorem d_addressSource {sz : Size} {src : Ea} {dst : Reg} {s s1 : State} {v : Long}
    (h : addressSource sz src dst s = .next (v, s1)) : s1.d = s.d := by
  unfold addressSource at h
  split at h
  next => cases h
  next =>
    obtain ⟨⟨w, s'⟩, hread, heq⟩ := andThen_eq_next.1 h
    cases heq
    rw [readEa_next hread, d_resolveEa]

/-! ### The rule for each update of a data register -/

/-- Bits 31..n of every data register are the same in both states. -/
def SameUpper (sz : Size) (s t : State) : Prop := ∀ q, t.dreg q >>> sz.bits = s.dreg q >>> sz.bits

theorem SameUpper.of_d_eq {sz : Size} {s t : State} (h : t.d = s.d) : SameUpper sz s t := fun q => by
  rw [State.dreg, State.dreg, h]

theorem sameUpper_putLoc (sz : Size) (loc : Loc) (v : BitVec sz.bits) (s : State) :
    SameUpper sz s (putLoc sz loc v s) := by
  cases loc with
  | dreg r =>
    intro q
    rw [putLoc, dreg_setDlow]
    split
    next hq => rw [hq, upper_mergeLow]
    next => rfl
  | _ => exact .of_d_eq rfl

/-- The end of every shape that stores a result: the store, then flags and pc. -/
theorem sameUpper_stored {sz : Size} {s s1 : State} (h : s1.d = s.d) (loc : Loc) (v : BitVec sz.bits)
    (f : Flags) (len : Nat) : SameUpper sz s (((putLoc sz loc v s1).setFlags f).advance len) := fun q =>
  (sameUpper_putLoc sz loc v s1 q).trans (SameUpper.of_d_eq h q)

/-- No bit of a register lies above a Long. -/
theorem sameUpper_long (s t : State) : SameUpper .long s t := fun q => by
  rw [BitVec.ushiftRight_eq_zero (Nat.le_refl 32), BitVec.ushiftRight_eq_zero (Nat.le_refl 32)]

/-! ### Shapes that write a low part -/

theorem sameUpper_sourceToDn {sz : Size} {op : BitVec sz.bits → BitVec sz.bits → Alu sz.bits} {src : Ea}
    {dst : Reg} {s t : State} (h : sourceToDn sz op src dst s = .next t) : SameUpper sz s t := by
  rw [sourceToDn_eq] at h
  obtain ⟨-, rfl⟩ := orStop_eq_next.1 h
  exact sameUpper_stored (d_resolveEa sz src s) (.dreg dst) _ _ _

theorem sameUpper_modifyEa {sz : Size} {op : BitVec sz.bits → Alu sz.bits}
    {flags : Flags → Alu sz.bits → Flags} {dst : Ea} {len : Nat} {s t : State}
    (h : modifyEa sz op flags dst len s = .next t) : SameUpper sz s t := by
  rw [modifyEa_next h]
  exact sameUpper_stored (d_resolveEa sz dst s) _ _ _ _

theorem sameUpper_quick {sz : Size} {onAn : Long → Long → Long}
    {op : BitVec sz.bits → BitVec sz.bits → Alu sz.bits} {n : Nat} {dst : Ea} {s t : State}
    (h : quick sz onAn op n dst s = .next t) : SameUpper sz s t := by
  unfold quick at h
  split at h
  next => cases h; exact .of_d_eq rfl
  next => exact sameUpper_modifyEa h

theorem sameUpper_clear {sz : Size} {dst : Ea} {s t : State} (h : clear sz dst s = .next t) :
    SameUpper sz s t := by
  rw [clear_next h]
  exact sameUpper_stored (d_resolveEa sz dst s) _ _ _ _

theorem sameUpper_testAndSet {dst : Ea} {s t : State} (h : testAndSet dst s = .next t) :
    SameUpper .byte s t := by
  rw [testAndSet_next h]
  exact sameUpper_stored (d_resolveEa .byte dst s) _ _ _ _

theorem sameUpper_extendedDn {sz : Size} {op : BitVec sz.bits → BitVec sz.bits → Bool → Alu sz.bits}
    {src dst : Reg} {s t : State} (h : extendedDn sz op src dst s = .next t) : SameUpper sz s t := by
  cases h
  exact sameUpper_stored rfl (.dreg dst) _ _ _

theorem sameUpper_extendedMem {sz : Size} {op : BitVec sz.bits → BitVec sz.bits → Bool → Alu sz.bits}
    {src dst : Reg} {s t : State} (h : extendedMem sz op src dst s = .next t) : SameUpper sz s t := by
  obtain ⟨v, d, loc, s1, hpair, rfl⟩ := extendedMem_next h
  exact sameUpper_stored (d_readPair hpair) loc _ _ _

theorem sameUpper_extendByte (dst : Reg) (s : State) : SameUpper .word s (extendByte dst s) :=
  sameUpper_stored (sz := .word) rfl (.dreg dst) _ _ _

/-! ### Shapes that write no data register -/

theorem d_sourceToAn {sz : Size} {op : Long → Long → Long} {src : Ea} {dst : Reg} {s t : State}
    (h : sourceToAn sz op src dst s = .next t) : t.d = s.d := by
  obtain ⟨⟨v, s1⟩, hsrc, ht⟩ := andThen_eq_next.1 h
  have hd := d_addressSource hsrc
  cases ht
  exact hd

theorem d_compareDn {sz : Size} {src : Ea} {dst : Reg} {s t : State} (h : compareDn sz src dst s = .next t) :
    t.d = s.d := by
  rw [compareDn_eq] at h
  obtain ⟨-, rfl⟩ := orStop_eq_next.1 h
  simp

theorem d_compareAn {sz : Size} {src : Ea} {dst : Reg} {s t : State} (h : compareAn sz src dst s = .next t) :
    t.d = s.d := by
  obtain ⟨⟨v, s1⟩, hsrc, ht⟩ := andThen_eq_next.1 h
  have hd := d_addressSource hsrc
  cases ht
  exact hd

theorem d_compareImm {sz : Size} {imm : BitVec sz.bits} {dst : Ea} {s t : State}
    (h : compareImm sz imm dst s = .next t) : t.d = s.d := by
  rw [compareImm_eq] at h
  obtain ⟨-, rfl⟩ := orStop_eq_next.1 h
  simp

theorem d_compareMem {sz : Size} {src dst : Reg} {s t : State} (h : compareMem sz src dst s = .next t) :
    t.d = s.d := by
  obtain ⟨⟨v, w, loc, s1⟩, hpair, ht⟩ := andThen_eq_next.1 h
  have hd := d_readPair hpair
  cases ht
  exact hd

theorem d_testEa {sz : Size} {dst : Ea} {s t : State} (h : testEa sz dst s = .next t) : t.d = s.d := by
  rw [testEa_eq] at h
  obtain ⟨-, rfl⟩ := orStop_eq_next.1 h
  simp

/-! ### Every instruction -/

theorem sameUpper_exec {i : Instr} {s t : State}
    (hi : ∀ src dst, i ≠ .muls src dst ∧ i ≠ .mulu src dst ∧ i ≠ .divs src dst ∧ i ≠ .divu src dst)
    (h : exec i s = .next t) : SameUpper i.info.size s t := by
  cases i with
  | addEaDnB | addEaDnW | addEaDnL | subEaDnB | subEaDnW | subEaDnL => exact sameUpper_sourceToDn h
  | addDnEaB | addDnEaW | addDnEaL | subDnEaB | subDnEaW | subDnEaL | addiB | addiW | addiL | subiB | subiW
  | subiL | negB | negW | negL | negxB | negxW | negxL => exact sameUpper_modifyEa h
  | addqB | addqW | addqL | subqB | subqW | subqL => exact sameUpper_quick h
  | addxRegB | addxRegW | addxRegL | subxRegB | subxRegW | subxRegL => exact sameUpper_extendedDn h
  | addxMemB | addxMemW | addxMemL | subxMemB | subxMemW | subxMemL => exact sameUpper_extendedMem h
  | clrB | clrW | clrL => exact sameUpper_clear h
  | tas => exact sameUpper_testAndSet h
  | addaW | addaL | subaW | subaL => exact .of_d_eq (d_sourceToAn h)
  | cmpB | cmpW | cmpL => exact .of_d_eq (d_compareDn h)
  | cmpaW | cmpaL => exact .of_d_eq (d_compareAn h)
  | cmpiB | cmpiW | cmpiL => exact .of_d_eq (d_compareImm h)
  | cmpmB | cmpmW | cmpmL => exact .of_d_eq (d_compareMem h)
  | tstB | tstW | tstL => exact .of_d_eq (d_testEa h)
  | extW dst => cases h; exact sameUpper_extendByte dst s
  | extL => exact sameUpper_long s t
  | muls src dst => obtain ⟨hne, -, -, -⟩ := hi src dst; exact absurd rfl hne
  | mulu src dst => obtain ⟨-, hne, -, -⟩ := hi src dst; exact absurd rfl hne
  | divs src dst => obtain ⟨-, -, hne, -⟩ := hi src dst; exact absurd rfl hne
  | divu src dst => obtain ⟨-, -, -, hne⟩ := hi src dst; exact absurd rfl hne

/-- Settles O48, by the rule of the shape that each instruction is. -/
theorem upperBitsKept : Obligations.UpperBitsKept :=
  fun _ _ _ q hi h => sameUpper_exec hi h q

end Sys2Proof.Machine

/-! ## What an instruction that completes has done: pc, parameters, memory's form, X, address registers
(spec/10_state.md rules R22, R26, R28; spec/20_memory.md rules R53, R54) -/

namespace Sys2Proof.Machine

/-! ### Before flags and pc are written -/

/-- The mode steps address register `q` (rules R53, R54). -/
def eaSteps (ea : Ea) (q : Reg) : Prop := ea = .postInc q ∨ ea = .preDec q

theorem eaSteps_of_eaAreg_ne {sz : Size} {ea : Ea} {s : State} {q : Reg} (h : eaAreg sz ea s q ≠ s.areg q) :
    eaSteps ea q := by
  cases ea with
  | postInc r =>
    by_cases hq : q = r
    · exact .inl (congrArg Ea.postInc hq.symm)
    · exact absurd (if_neg hq) h
  | preDec r =>
    by_cases hq : q = r
    · exact .inr (congrArg Ea.preDec hq.symm)
    · exact absurd (if_neg hq) h
  | _ => exact absurd rfl h

/-- `s1` is a state inside an instruction started in `s`: operands are read or stored, flags and pc are not yet
written, and of the address registers only those in `touched` may differ. -/
structure Midway (touched : Reg → Prop) (s s1 : State) : Prop where
  pc     : s1.pc = s.pc
  layout : s1.layout = s.layout
  flags  : s1.flags = s.flags
  mem_wf : s.mem.wf = true → s1.mem.wf = true
  areg   : ∀ q, s1.areg q ≠ s.areg q → touched q

section
variable {touched : Reg → Prop} {s s1 s2 : State}

theorem Midway.refl (touched : Reg → Prop) (s : State) : Midway touched s s :=
  ⟨rfl, rfl, rfl, id, fun _ h => absurd rfl h⟩

theorem Midway.resolveEa (h : Midway touched s s1) (sz : Size) {ea : Ea} (hea : ∀ q, eaSteps ea q → touched q) :
    Midway touched s (resolveEa sz ea s1).2 where
  pc := (pc_resolveEa sz ea s1).trans h.pc
  layout := (layout_resolveEa sz ea s1).trans h.layout
  flags := (flags_resolveEa sz ea s1).trans h.flags
  mem_wf hm := by rw [mem_resolveEa]; exact h.mem_wf hm
  areg q hq := by
    rw [areg_resolveEa] at hq
    by_cases hstep : eaAreg sz ea s1 q = s1.areg q
    · exact h.areg q (hstep ▸ hq)
    · exact hea q (eaSteps_of_eaAreg_ne hstep)

theorem Midway.readEa (h : Midway touched s s1) {sz : Size} {ea : Ea} {v : BitVec sz.bits}
    (hread : readEa sz ea s1 = .next (v, s2)) (hea : ∀ q, eaSteps ea q → touched q) : Midway touched s s2 := by
  rw [readEa_next hread]
  exact h.resolveEa sz hea

theorem Midway.addressSource (h : Midway touched s s1) {sz : Size} {src : Ea} {dst : Reg} {v : Long}
    (hread : addressSource sz src dst s1 = .next (v, s2)) (hea : ∀ q, eaSteps src q → touched q) :
    Midway touched s s2 := by
  unfold Machine.addressSource at hread
  split at hread
  next => cases hread
  next =>
    obtain ⟨⟨w, s'⟩, hsrc, heq⟩ := andThen_eq_next.1 hread
    cases heq
    exact h.readEa hsrc hea

theorem Midway.readPair (h : Midway touched s s1) {sz : Size} {src dst : Ea} {v d : BitVec sz.bits} {loc : Loc}
    (hread : readPair sz src dst s1 = .next (v, d, loc, s2)) (hsrc : ∀ q, eaSteps src q → touched q)
    (hdst : ∀ q, eaSteps dst q → touched q) : Midway touched s s2 := by
  obtain ⟨⟨v', s'⟩, hfirst, hsecond⟩ := andThen_eq_next.1 hread
  obtain ⟨d', -, heq⟩ := andThen_eq_next.1 hsecond
  cases heq
  exact (h.readEa hfirst hsrc).resolveEa sz hdst

theorem Midway.putLoc (h : Midway touched s s1) (sz : Size) (loc : Loc) (v : BitVec sz.bits) :
    Midway touched s (putLoc sz loc v s1) where
  pc := (pc_putLoc sz loc v s1).trans h.pc
  layout := (layout_putLoc sz loc v s1).trans h.layout
  flags := (flags_putLoc sz loc v s1).trans h.flags
  mem_wf hm := putLoc_wf sz loc v s1 (h.mem_wf hm)
  areg q hq := h.areg q (areg_putLoc sz loc v s1 q ▸ hq)

theorem Midway.setDreg (h : Midway touched s s1) (r : Reg) (v : Long) : Midway touched s (s1.setDreg r v) :=
  ⟨h.pc, h.layout, h.flags, h.mem_wf, h.areg⟩

theorem Midway.setAreg (h : Midway touched s s1) {r : Reg} (hr : touched r) (v : Long) :
    Midway touched s (s1.setAreg r v) where
  pc := h.pc
  layout := h.layout
  flags := h.flags
  mem_wf := h.mem_wf
  areg q hq := by
    by_cases hqr : q = r
    · exact hqr ▸ hr
    · exact h.areg q (by simpa [hqr] using hq)

end

/-! ### After flags and pc are written -/

/-- What every instruction of length `len` that completes has done: pc advanced by it, the parameters and the
form of memory kept, X set to C or left alone, no address register written but those in `touched`. -/
structure Completed (len : Nat) (writesX : Bool) (touched : Reg → Prop) (s t : State) : Prop where
  pc     : t.pc = s.pc + BitVec.ofNat 32 len
  layout : t.layout = s.layout
  mem_wf : s.mem.wf = true → t.mem.wf = true
  x      : t.flags.x = if writesX then t.flags.c else s.flags.x
  areg   : ∀ q, t.areg q ≠ s.areg q → touched q

section
variable {touched : Reg → Prop} {s s1 : State}

theorem Midway.advance (h : Midway touched s s1) (len : Nat) : Completed len false touched s (s1.advance len) :=
  ⟨congrArg (· + BitVec.ofNat 32 len) h.pc, h.layout, h.mem_wf, congrArg Flags.x h.flags, h.areg⟩

theorem Midway.finish_keepX (h : Midway touched s s1) (len : Nat) {f : Flags} (hx : f.x = s1.flags.x) :
    Completed len false touched s ((s1.setFlags f).advance len) :=
  ⟨congrArg (· + BitVec.ofNat 32 len) h.pc, h.layout, h.mem_wf, hx.trans (congrArg Flags.x h.flags), h.areg⟩

theorem Midway.finish_writeX (h : Midway touched s s1) (len : Nat) {f : Flags} (hx : f.x = f.c) :
    Completed len true touched s ((s1.setFlags f).advance len) :=
  ⟨congrArg (· + BitVec.ofNat 32 len) h.pc, h.layout, h.mem_wf, hx, h.areg⟩

end

theorem Completed.mono {len : Nat} {w : Bool} {touched touched' : Reg → Prop} {s t : State}
    (h : Completed len w touched s t) (hsub : ∀ q, touched q → touched' q) : Completed len w touched' s t :=
  ⟨h.pc, h.layout, h.mem_wf, h.x, fun q hq => hsub q (h.areg q hq)⟩

/-! ### Every shape -/

section
variable {sz : Size} {src dst : Ea} {r r' : Reg} {s t : State}

theorem completed_sourceToDn {op : BitVec sz.bits → BitVec sz.bits → Alu sz.bits}
    (h : sourceToDn sz op src r s = .next t) : Completed (2 + src.extBytes sz) true (eaSteps src) s t := by
  obtain ⟨⟨v, s1⟩, hread, ht⟩ := andThen_eq_next.1 h
  cases ht
  exact (((Midway.refl _ s).readEa hread fun _ => id).putLoc sz (.dreg r) _).finish_writeX _ rfl

theorem completed_modifyEa {op : BitVec sz.bits → Alu sz.bits} {flags : Flags → Alu sz.bits → Flags} {len : Nat}
    (hx : ∀ f out, (flags f out).x = (flags f out).c) (h : modifyEa sz op flags dst len s = .next t) :
    Completed len true (eaSteps dst) s t := by
  rw [modifyEa_next h]
  exact (((Midway.refl _ s).resolveEa sz fun _ => id).putLoc sz _ _).finish_writeX _ (hx _ _)

theorem quick_eq_modifyEa {onAn : Long → Long → Long} {op : BitVec sz.bits → BitVec sz.bits → Alu sz.bits} {n : Nat}
    (hdst : ∀ q, dst ≠ .an q) (s : State) : quick sz onAn op n dst s =
      modifyEa sz (fun d => op d (BitVec.ofNat sz.bits n)) Flags.arith dst (2 + dst.extBytes sz) s := by
  cases dst with
  | an q => exact absurd rfl (hdst q)
  | _ => rfl

/-- ADDQ and SUBQ: the one shape whose destination decides whether X is written. -/
theorem completed_quick {onAn : Long → Long → Long} {op : BitVec sz.bits → BitVec sz.bits → Alu sz.bits} {n : Nat}
    (h : quick sz onAn op n dst s = .next t) :
    Completed (2 + dst.extBytes sz) (dst.mode != .an) (fun q => dst = .an q ∨ eaSteps dst q) s t := by
  by_cases hdst : ∃ q, dst = .an q
  · obtain ⟨q, rfl⟩ := hdst
    cases h
    exact ((Midway.refl _ s).setAreg (.inl rfl) _).advance 2
  · have hne : ∀ q, dst ≠ .an q := fun q hq => hdst ⟨q, hq⟩
    have hmode : (dst.mode != .an) = true := by
      cases dst with
      | an q => exact absurd rfl (hne q)
      | _ => rfl
    rw [quick_eq_modifyEa hne] at h
    exact hmode ▸ (completed_modifyEa (fun _ _ => rfl) h).mono fun _ => .inr

theorem completed_sourceToAn {op : Long → Long → Long} (h : sourceToAn sz op src r s = .next t) :
    Completed (2 + src.extBytes sz) false (fun q => q = r ∨ eaSteps src q) s t := by
  obtain ⟨⟨v, s1⟩, hread, ht⟩ := andThen_eq_next.1 h
  cases ht
  exact (((Midway.refl _ s).addressSource hread fun _ => .inr).setAreg (.inl rfl) _).advance _

theorem completed_extendedDn {op : BitVec sz.bits → BitVec sz.bits → Bool → Alu sz.bits}
    (h : extendedDn sz op r r' s = .next t) : Completed 2 true (fun _ => False) s t := by
  cases h
  exact ((Midway.refl _ s).putLoc sz (.dreg r') _).finish_writeX 2 rfl

theorem completed_extendedMem {op : BitVec sz.bits → BitVec sz.bits → Bool → Alu sz.bits}
    (h : extendedMem sz op r r' s = .next t) :
    Completed 2 true (fun q => eaSteps (.preDec r) q ∨ eaSteps (.preDec r') q) s t := by
  obtain ⟨v, d, loc, s1, hread, rfl⟩ := extendedMem_next h
  exact (((Midway.refl _ s).readPair hread (fun _ => .inl) fun _ => .inr).putLoc sz loc _).finish_writeX 2 rfl

theorem completed_compareMem (h : compareMem sz r r' s = .next t) :
    Completed 2 false (fun q => eaSteps (.postInc r) q ∨ eaSteps (.postInc r') q) s t := by
  obtain ⟨⟨v, d, loc, s1⟩, hread, ht⟩ := andThen_eq_next.1 h
  cases ht
  exact ((Midway.refl _ s).readPair hread (fun _ => Or.inl) fun _ => Or.inr).finish_keepX 2 rfl

theorem completed_compareDn (h : compareDn sz src r s = .next t) :
    Completed (2 + src.extBytes sz) false (eaSteps src) s t := by
  obtain ⟨⟨v, s1⟩, hread, ht⟩ := andThen_eq_next.1 h
  cases ht
  exact ((Midway.refl _ s).readEa hread fun _ => id).finish_keepX _ rfl

theorem completed_compareAn (h : compareAn sz src r s = .next t) :
    Completed (2 + src.extBytes sz) false (eaSteps src) s t := by
  obtain ⟨⟨v, s1⟩, hread, ht⟩ := andThen_eq_next.1 h
  cases ht
  exact ((Midway.refl _ s).addressSource hread fun _ => id).finish_keepX _ rfl

theorem completed_compareImm {imm : BitVec sz.bits} (h : compareImm sz imm dst s = .next t) :
    Completed (2 + immBytes sz + dst.extBytes sz) false (eaSteps dst) s t := by
  obtain ⟨⟨v, s1⟩, hread, ht⟩ := andThen_eq_next.1 h
  cases ht
  exact ((Midway.refl _ s).readEa hread fun _ => id).finish_keepX _ rfl

theorem completed_testEa (h : testEa sz dst s = .next t) :
    Completed (2 + dst.extBytes sz) false (eaSteps dst) s t := by
  obtain ⟨⟨v, s1⟩, hread, ht⟩ := andThen_eq_next.1 h
  cases ht
  exact ((Midway.refl _ s).readEa hread fun _ => id).finish_keepX _ rfl

theorem completed_clear (h : clear sz dst s = .next t) :
    Completed (2 + dst.extBytes sz) false (eaSteps dst) s t := by
  rw [clear_next h]
  exact (((Midway.refl _ s).resolveEa sz fun _ => id).putLoc sz _ _).finish_keepX _ (by simp [Flags.clear])

theorem completed_testAndSet (h : testAndSet dst s = .next t) :
    Completed (2 + dst.extBytes .byte) false (eaSteps dst) s t := by
  rw [testAndSet_next h]
  exact (((Midway.refl _ s).resolveEa .byte fun _ => id).putLoc .byte _ _).finish_keepX _ (by simp [Flags.test])

theorem Midway.finishDn {touched : Reg → Prop} {s s1 : State} (h : Midway touched s s1) {n : Nat} (dst : Reg)
    (result : Long) (tested : BitVec n) (len : Nat) :
    Completed len false touched s (finishDn dst result tested len s1) :=
  (h.setDreg dst result).finish_keepX len rfl

theorem completed_multiply {product : Word → Word → Long} (h : multiply product src r s = .next t) :
    Completed (2 + src.extBytes .word) false (eaSteps src) s t := by
  obtain ⟨⟨v, s1⟩, hread, ht⟩ := andThen_eq_next.1 h
  cases ht
  exact ((Midway.refl _ s).readEa hread fun _ => id).finishDn r _ _ _

theorem Midway.divideOverflow {touched : Reg → Prop} {s s1 : State} (h : Midway touched s s1) (signed : Bool)
    (dividend : Long) (divisor : Word) (len : Nat) :
    Completed len false touched s ((divideOverflow signed dividend divisor s1).advance len) where
  pc := congrArg (· + BitVec.ofNat 32 len) h.pc
  layout := h.layout
  mem_wf := h.mem_wf
  x := show s1.flags.x = s.flags.x from congrArg Flags.x h.flags
  areg := h.areg

theorem divideSigned_overflow {v : Word} {len : Nat} (h : outsideSigned 16 (quotS (s.dreg r) v) = true) :
    divideSigned v r len s = (divideOverflow true (s.dreg r) v s).advance len := if_pos h

theorem divideSigned_fits {v : Word} {len : Nat} (h : ¬ outsideSigned 16 (quotS (s.dreg r) v) = true) :
    divideSigned v r len s = finishDn r (packDivide (BitVec.ofInt 16 (remS (s.dreg r) v))
      (BitVec.ofInt 16 (quotS (s.dreg r) v))) (BitVec.ofInt 16 (quotS (s.dreg r) v)) len s := if_neg h

theorem divideUnsigned_overflow {v : Word} {len : Nat} (h : 65535 < quotU (s.dreg r) v) :
    divideUnsigned v r len s = (divideOverflow false (s.dreg r) v s).advance len := if_pos h

theorem divideUnsigned_fits {v : Word} {len : Nat} (h : ¬ 65535 < quotU (s.dreg r) v) :
    divideUnsigned v r len s = finishDn r (packDivide (BitVec.ofNat 16 (remU (s.dreg r) v))
      (BitVec.ofNat 16 (quotU (s.dreg r) v))) (BitVec.ofNat 16 (quotU (s.dreg r) v)) len s := if_neg h

theorem Midway.divideSigned {touched : Reg → Prop} {s s1 : State} (h : Midway touched s s1) (divisor : Word)
    (dst : Reg) (len : Nat) : Completed len false touched s (divideSigned divisor dst len s1) := by
  by_cases hover : outsideSigned 16 (quotS (s1.dreg dst) divisor) = true
  · rw [divideSigned_overflow hover]
    exact h.divideOverflow _ _ _ _
  · rw [divideSigned_fits hover]
    exact h.finishDn _ _ _ _

theorem Midway.divideUnsigned {touched : Reg → Prop} {s s1 : State} (h : Midway touched s s1) (divisor : Word)
    (dst : Reg) (len : Nat) : Completed len false touched s (divideUnsigned divisor dst len s1) := by
  by_cases hover : 65535 < quotU (s1.dreg dst) divisor
  · rw [divideUnsigned_overflow hover]
    exact h.divideOverflow _ _ _ _
  · rw [divideUnsigned_fits hover]
    exact h.finishDn _ _ _ _

theorem divide_next {how : Word → Reg → Nat → State → State} (h : divide how src r s = .next t) :
    ∃ v s1, readEa .word src s = .next (v, s1) ∧ v ≠ 0#16 ∧ t = how v r (2 + src.extBytes .word) s1 := by
  obtain ⟨⟨v, s1⟩, hread, ht⟩ := andThen_eq_next.1 h
  dsimp only at ht
  split at ht
  next => cases ht
  next hv => cases ht; exact ⟨v, s1, hread, hv, rfl⟩

theorem completed_divs (h : divide divideSigned src r s = .next t) :
    Completed (2 + src.extBytes .word) false (eaSteps src) s t := by
  obtain ⟨v, s1, hread, -, rfl⟩ := divide_next h
  exact ((Midway.refl _ s).readEa hread fun _ => id).divideSigned v r _

theorem completed_divu (h : divide divideUnsigned src r s = .next t) :
    Completed (2 + src.extBytes .word) false (eaSteps src) s t := by
  obtain ⟨v, s1, hread, -, rfl⟩ := divide_next h
  exact ((Midway.refl _ s).readEa hread fun _ => id).divideUnsigned v r _

theorem completed_extendByte (r : Reg) (s : State) : Completed 2 false (fun _ => False) s (extendByte r s) :=
  ((Midway.refl _ s).putLoc .word (.dreg r) _).finish_keepX 2 rfl

theorem completed_extendWord (r : Reg) (s : State) : Completed 2 false (fun _ => False) s (extendWord r s) :=
  (Midway.refl _ s).finishDn r _ _ 2

end

/-! ### Every instruction -/

/-- Does the instruction set X to C (the column X of rule R28)?  ADDQ and SUBQ do unless they write An. -/
def writesExtend : Instr → Bool
  | .addEaDnB _ _ | .addEaDnW _ _ | .addEaDnL _ _ | .subEaDnB _ _ | .subEaDnW _ _ | .subEaDnL _ _
  | .addDnEaB _ _ | .addDnEaW _ _ | .addDnEaL _ _ | .subDnEaB _ _ | .subDnEaW _ _ | .subDnEaL _ _
  | .addiB _ _ | .addiW _ _ | .addiL _ _ | .subiB _ _ | .subiW _ _ | .subiL _ _
  | .addxRegB _ _ | .addxRegW _ _ | .addxRegL _ _ | .subxRegB _ _ | .subxRegW _ _ | .subxRegL _ _
  | .addxMemB _ _ | .addxMemW _ _ | .addxMemL _ _ | .subxMemB _ _ | .subxMemW _ _ | .subxMemL _ _
  | .negB _ | .negW _ | .negL _ | .negxB _ | .negxW _ | .negxL _ => true
  | .addqB _ dst | .addqW _ dst | .addqL _ dst | .subqB _ dst | .subqW _ dst | .subqL _ dst => dst.mode != .an
  | _ => false

/-- The ways an instruction can change address register `q` (rules R22, R53, R54). -/
def writesAreg (i : Instr) (q : Reg) : Prop :=
  (∃ long src, i = Instr.adda long src q ∨ i = Instr.suba long src q) ∨
  (∃ sz n, i = Instr.addq sz n (.an q) ∨ i = Instr.subq sz n (.an q)) ∨ stepsRegister i q

theorem writesAreg_of_eaSteps {i : Instr} {cat : Category} {ea : Ea} (hea : i.info.ea = some (cat, ea)) (q : Reg)
    (h : eaSteps ea q) : writesAreg i q := by
  refine .inr (.inr (.inl ⟨cat, ?_⟩))
  rw [hea]
  exact h.imp (congrArg fun e => some (cat, e)) (congrArg fun e => some (cat, e))

section
variable {i : Instr} {len : Nat} {w : Bool} {s t : State}

theorem Completed.onEa {cat : Category} {ea : Ea} (h : Completed len w (eaSteps ea) s t)
    (hea : i.info.ea = some (cat, ea)) : Completed len w (writesAreg i) s t :=
  h.mono (writesAreg_of_eaSteps hea)

theorem Completed.onAn {cat : Category} {src : Ea} {dst : Reg}
    (h : Completed len w (fun q => q = dst ∨ eaSteps src q) s t) (hea : i.info.ea = some (cat, src)) (long : Bool)
    (hi : i = Instr.adda long src dst ∨ i = Instr.suba long src dst) : Completed len w (writesAreg i) s t := by
  refine h.mono fun q hq => ?_
  rcases hq with rfl | hq
  · exact .inl ⟨long, src, hi⟩
  · exact writesAreg_of_eaSteps hea q hq

theorem Completed.onQuick {cat : Category} {n : Nat} {dst : Ea}
    (h : Completed len w (fun q => dst = .an q ∨ eaSteps dst q) s t) (hea : i.info.ea = some (cat, dst))
    (hi : i = Instr.addq i.info.size n dst ∨ i = Instr.subq i.info.size n dst) :
    Completed len w (writesAreg i) s t := by
  refine h.mono fun q hq => ?_
  rcases hq with rfl | hq
  · exact .inr (.inl ⟨_, n, hi⟩)
  · exact writesAreg_of_eaSteps hea q hq

theorem Completed.onPair {src dst : Reg} {step : Reg → Ea} (hstep : step = .preDec ∨ step = .postInc)
    (h : Completed len w (fun q => eaSteps (step src) q ∨ eaSteps (step dst) q) s t)
    (hi : i = Instr.addxMem i.info.size src dst ∨ i = Instr.subxMem i.info.size src dst ∨
      i = Instr.cmpm i.info.size src dst) : Completed len w (writesAreg i) s t := by
  refine h.mono fun q hq => .inr (.inr (.inr ?_))
  have hreg : src = q ∨ dst = q := by
    rcases hstep with rfl | rfl <;> simpa [eaSteps] using hq
  rcases hreg with rfl | rfl
  · exact ⟨_, dst, hi.elim .inl fun hi => .inr (.inr (hi.elim .inl fun hi => .inr (.inr (.inl hi))))⟩
  · exact ⟨_, src, .inr (hi.elim .inl fun hi => .inr (.inr (hi.imp_right .inr)))⟩

/-- The inversion of `exec`, shape by shape: the statements of rules R22, R25, R26 and R28 are read off it. -/
theorem completed_exec (h : exec i s = .next t) : Completed i.length (writesExtend i) (writesAreg i) s t := by
  cases i with
  | addEaDnB | addEaDnW | addEaDnL | subEaDnB | subEaDnW | subEaDnL => exact (completed_sourceToDn h).onEa rfl
  | addDnEaB | addDnEaW | addDnEaL | subDnEaB | subDnEaW | subDnEaL | addiB | addiW | addiL | subiB | subiW
  | subiL | negB | negW | negL | negxB | negxW | negxL => exact (completed_modifyEa (fun _ _ => rfl) h).onEa rfl
  | addqB | addqW | addqL => exact (completed_quick h).onQuick rfl (.inl rfl)
  | subqB | subqW | subqL => exact (completed_quick h).onQuick rfl (.inr rfl)
  | addxRegB | addxRegW | addxRegL | subxRegB | subxRegW | subxRegL =>
    exact (completed_extendedDn h).mono fun _ => False.elim
  | addxMemB | addxMemW | addxMemL => exact (completed_extendedMem h).onPair (.inl rfl) (.inl rfl)
  | subxMemB | subxMemW | subxMemL => exact (completed_extendedMem h).onPair (.inl rfl) (.inr (.inl rfl))
  | cmpmB | cmpmW | cmpmL => exact (completed_compareMem h).onPair (.inr rfl) (.inr (.inr rfl))
  | addaW => exact (completed_sourceToAn h).onAn rfl false (.inl rfl)
  | addaL => exact (completed_sourceToAn h).onAn rfl true (.inl rfl)
  | subaW => exact (completed_sourceToAn h).onAn rfl false (.inr rfl)
  | subaL => exact (completed_sourceToAn h).onAn rfl true (.inr rfl)
  | cmpB | cmpW | cmpL => exact (completed_compareDn h).onEa rfl
  | cmpaW | cmpaL => exact (completed_compareAn h).onEa rfl
  | cmpiB | cmpiW | cmpiL => exact (completed_compareImm h).onEa rfl
  | tstB | tstW | tstL => exact (completed_testEa h).onEa rfl
  | clrB | clrW | clrL => exact (completed_clear h).onEa rfl
  | tas => exact (completed_testAndSet h).onEa rfl
  | muls | mulu => exact (completed_multiply h).onEa rfl
  | divs => exact (completed_divs h).onEa rfl
  | divu => exact (completed_divu h).onEa rfl
  | extW dst => cases h; exact (completed_extendByte dst s).mono fun _ => False.elim
  | extL dst => cases h; exact (completed_extendWord dst s).mono fun _ => False.elim

end

/-- Settles O45: the advance is the shape's own, the length is even and from 2 to 10. -/
theorem pcAdvancesByLength : Obligations.PcAdvancesByLength := by
  intro i s t h
  refine ⟨(completed_exec h).pc, ?_⟩
  obtain ⟨heven, hlow, hhigh⟩ := Laws.LengthBounds.of_info i
  simp only [List.mem_cons, List.not_mem_nil, or_false]
  omega

/-- Settles O49, by the registers that each instruction's shape touches. -/
theorem addressRegisterWriters : Obligations.AddressRegisterWriters :=
  fun _ _ _ q h hq => (completed_exec h).areg q hq

/-! ### The column X (spec/10_state.md rule R28) -/

/-- The instructions that rule R28 has set X with C, in the spec's forms: the reading of `writesExtend`. -/
def ExtendWriter (i : Instr) : Prop :=
  (∃ sz src dst, i = Instr.addEaDn sz src dst ∨ i = Instr.subEaDn sz src dst) ∨
  (∃ sz src dst, i = Instr.addDnEa sz src dst ∨ i = Instr.subDnEa sz src dst) ∨
  (∃ sz imm dst, i = Instr.addi sz imm dst ∨ i = Instr.subi sz imm dst) ∨
  (∃ sz q dst, (∀ r, dst ≠ .an r) ∧ (i = Instr.addq sz q dst ∨ i = Instr.subq sz q dst)) ∨
  (∃ sz src dst, i = Instr.addxReg sz src dst ∨ i = Instr.subxReg sz src dst ∨
    i = Instr.addxMem sz src dst ∨ i = Instr.subxMem sz src dst) ∨
  (∃ sz dst, i = Instr.neg sz dst ∨ i = Instr.negx sz dst)

theorem mode_bne_an_iff (ea : Ea) : (ea.mode != .an) = true ↔ ∀ r, ea ≠ .an r := by
  cases ea <;> simp [Ea.mode]

theorem writesExtend_of_extendWriter {i : Instr} (h : ExtendWriter i) : writesExtend i = true := by
  rcases h with h | h | h | h | h | h
  · obtain ⟨sz, src, dst, rfl | rfl⟩ := h <;> cases sz <;> rfl
  · obtain ⟨sz, src, dst, rfl | rfl⟩ := h <;> cases sz <;> rfl
  · obtain ⟨sz, imm, dst, rfl | rfl⟩ := h <;> cases sz <;> rfl
  · obtain ⟨sz, q, dst, hdst, rfl | rfl⟩ := h <;> cases sz <;> exact (mode_bne_an_iff dst).2 hdst
  · obtain ⟨sz, src, dst, rfl | rfl | rfl | rfl⟩ := h <;> cases sz <;> rfl
  · obtain ⟨sz, dst, rfl | rfl⟩ := h <;> cases sz <;> rfl

theorem extendWriter_of_writesExtend {i : Instr} (h : writesExtend i = true) : ExtendWriter i := by
  obtain ⟨sz, hsz⟩ : ∃ sz, i.info.size = sz := ⟨_, rfl⟩
  cases i with
  | addEaDnB src dst | addEaDnW src dst | addEaDnL src dst => exact .inl ⟨sz, src, dst, .inl (hsz ▸ rfl)⟩
  | subEaDnB src dst | subEaDnW src dst | subEaDnL src dst => exact .inl ⟨sz, src, dst, .inr (hsz ▸ rfl)⟩
  | addDnEaB src dst | addDnEaW src dst | addDnEaL src dst => exact .inr (.inl ⟨sz, src, dst, .inl (hsz ▸ rfl)⟩)
  | subDnEaB src dst | subDnEaW src dst | subDnEaL src dst => exact .inr (.inl ⟨sz, src, dst, .inr (hsz ▸ rfl)⟩)
  | addiB imm dst | addiW imm dst | addiL imm dst =>
    exact .inr (.inr (.inl ⟨sz, imm.setWidth 32, dst, .inl (by simp [← hsz, Instr.info, Instr.addi])⟩))
  | subiB imm dst | subiW imm dst | subiL imm dst =>
    exact .inr (.inr (.inl ⟨sz, imm.setWidth 32, dst, .inr (by simp [← hsz, Instr.info, Instr.subi])⟩))
  | addqB q dst | addqW q dst | addqL q dst =>
    exact .inr (.inr (.inr (.inl ⟨sz, q, dst, (mode_bne_an_iff dst).1 h, .inl (hsz ▸ rfl)⟩)))
  | subqB q dst | subqW q dst | subqL q dst =>
    exact .inr (.inr (.inr (.inl ⟨sz, q, dst, (mode_bne_an_iff dst).1 h, .inr (hsz ▸ rfl)⟩)))
  | addxRegB src dst | addxRegW src dst | addxRegL src dst =>
    exact .inr (.inr (.inr (.inr (.inl ⟨sz, src, dst, .inl (hsz ▸ rfl)⟩))))
  | subxRegB src dst | subxRegW src dst | subxRegL src dst =>
    exact .inr (.inr (.inr (.inr (.inl ⟨sz, src, dst, .inr (.inl (hsz ▸ rfl))⟩))))
  | addxMemB src dst | addxMemW src dst | addxMemL src dst =>
    exact .inr (.inr (.inr (.inr (.inl ⟨sz, src, dst, .inr (.inr (.inl (hsz ▸ rfl)))⟩))))
  | subxMemB src dst | subxMemW src dst | subxMemL src dst =>
    exact .inr (.inr (.inr (.inr (.inl ⟨sz, src, dst, .inr (.inr (.inr (hsz ▸ rfl)))⟩))))
  | negB dst | negW dst | negL dst => exact .inr (.inr (.inr (.inr (.inr ⟨sz, dst, .inl (hsz ▸ rfl)⟩))))
  | negxB dst | negxW dst | negxL dst => exact .inr (.inr (.inr (.inr (.inr ⟨sz, dst, .inr (hsz ▸ rfl)⟩))))
  | _ => cases h

/-- Settles O46: `writesExtend` decides whether X is C or the old X, and its true cases are the listed forms. -/
theorem extendFlagWriters : Obligations.ExtendFlagWriters := by
  intro i s t h
  have hx := (completed_exec h).x
  constructor
  · intro hi
    rw [writesExtend_of_extendWriter hi] at hx
    exact hx
  · intro hi
    rw [Bool.eq_false_iff.2 fun hw => hi (extendWriter_of_writesExtend hw)] at hx
    exact hx

end Sys2Proof.Machine

/-! ## Legal states (spec/10_state.md rule R25, spec/70_reset_and_hazards.md rule R263) -/

namespace Sys2Proof.Machine

/-! ### The words an operation word asks for are the instruction's length (spec/30_encoding.md rules R80, R81) -/

theorem extBytes_eq_extCount (sz : Size) (ea : Ea) : ea.extBytes sz = 2 * ea.mode.extCount sz := by
  cases ea with
  | imm v => cases sz <;> rfl
  | _ => rfl

theorem immBytes_eq_extCount (sz : Size) : immBytes sz = 2 * Mode.imm.extCount sz := by cases sz <;> rfl

/-- The operand is of the mode that the operation word selects, if it selects one. -/
def FitsMode (f : OpForm) (ea : Ea) : Prop := ∀ p, f.ea = some p → ea.mode = p.1

/-- What the operation word decodes to, if it is in scope, builds instructions as long as the words it asks for. -/
def LengthFits (o : Option OpForm) : Prop :=
  ∀ f, o = some f → ∀ v ea, FitsMode f ea → (f.build v ea).length = 2 + 2 * f.extCount

theorem LengthFits.none : LengthFits none := fun _ h => nomatch h

theorem LengthFits.ite {c : Prop} [Decidable c] {a b : Option OpForm} (ha : LengthFits a) (hb : LengthFits b) :
    LengthFits (if c then a else b) := by
  split
  · exact ha
  · exact hb

theorem LengthFits.noEa {i : Instr} (hi : i.length = 2) : LengthFits (noEa i) := by
  rintro f ⟨⟩ v ea -
  exact hi

theorem onEa_eq_some {w : Word} {cat : Category} {sz : Size} {build : Ea → Instr} {f : OpForm}
    (h : onEa w cat sz build = some f) :
    ∃ m r, f = { size := sz, hasImm := false, ea := some (m, r), build := fun _ ea => build ea } := by
  unfold onEa at h
  split at h
  next m _ =>
    split at h
    next => cases h; exact ⟨m, _, rfl⟩
    next => cases h
  next => cases h

theorem LengthFits.onEa {w : Word} {cat : Category} {sz : Size} {build : Ea → Instr}
    (hb : ∀ ea, (build ea).length = 2 + ea.extBytes sz) : LengthFits (onEa w cat sz build) := by
  intro f h v ea hea
  obtain ⟨m, r, rfl⟩ := onEa_eq_some h
  have hmode : ea.mode = m := hea _ rfl
  simp [hb, extBytes_eq_extCount, hmode, OpForm.extCount]

theorem LengthFits.immOnEa {w : Word} {sz : Size} {build : Long → Ea → Instr}
    (hb : ∀ v ea, (build v ea).length = 2 + immBytes sz + ea.extBytes sz) :
    LengthFits (immOnEa w sz build) := by
  intro f h v ea hea
  unfold Sys2Proof.immOnEa at h
  split at h
  next g hg =>
    obtain ⟨m, r, rfl⟩ := onEa_eq_some hg
    cases h
    have hmode : ea.mode = m := hea _ rfl
    simp only [hb, extBytes_eq_extCount, immBytes_eq_extCount, hmode, OpForm.extCount, if_true]
    omega
  next => cases h

theorem lengthFits_decodeSized (w : Word) (sz : Size) : LengthFits (decodeSized w sz) := by
  refine .ite ?negx <| .ite ?clr <| .ite ?neg <| .ite ?tst <| .ite ?subi <| .ite ?addi <| .ite ?cmpi <|
    .ite (.ite ?subq ?addq) <| .ite (.ite (.ite ?subx ?subDnEa) ?subEaDn) <|
    .ite (.ite (.ite ?addx ?addDnEa) ?addEaDn) <| .ite (.ite (.ite ?cmpm .none) ?cmp) .none
  case negx | clr | neg | tst | subq | addq | subDnEa | subEaDn | addDnEa | addEaDn | cmp =>
    exact .onEa fun ea => by cases sz <;> rfl
  case subi | addi | cmpi => exact .immOnEa fun v ea => by cases sz <;> rfl
  case subx | addx => exact .noEa (by cases w.getLsbD 3 <;> cases sz <;> rfl)
  case cmpm => exact .noEa (by cases sz <;> rfl)

theorem lengthFits_decodeUnsized (w : Word) : LengthFits (decodeUnsized w) := by
  refine .ite ?div <| .ite ?mul <| .ite ?suba <| .ite ?adda <| .ite ?cmpa .none
  all_goals exact .onEa fun ea => by cases w.getLsbD 8 <;> rfl

theorem lengthFits_decodeOp (w : Word) : LengthFits (decodeOp w) := by
  refine .ite ?ext <| .ite ?tas ?rest
  case ext => exact .noEa (by cases w.getLsbD 6 <;> rfl)
  case tas => exact .onEa fun _ => rfl
  case rest =>
    split
    · exact lengthFits_decodeSized w _
    · exact lengthFits_decodeUnsized w

theorem mode_of_takeEa {sz : Size} {m : Mode} {r : Reg} {ws rest : List Word} {ea : Ea}
    (h : takeEa sz m r ws = .ok (ea, rest)) : ea.mode = m := by
  cases m with
  | dn | an | ind | postInc | preDec => cases h; rfl
  | disp | absShort | pcDisp =>
    cases ws with
    | nil => cases h
    | cons w ws => cases h; rfl
  | index | pcIndex =>
    cases ws with
    | nil => cases h
    | cons w ws =>
      dsimp only [takeEa] at h
      split at h
      next => cases h; rfl
      next => cases h
  | absLong =>
    cases ws with
    | nil => cases h
    | cons hi ws =>
      cases ws with
      | nil => cases h
      | cons lo ws => cases h; rfl
  | imm =>
    dsimp only [takeEa] at h
    split at h
    next => cases h; rfl
    next => cases h

theorem finish_eq_instr {f : OpForm} {ws rest : List Word} {i : Instr} (h : f.finish ws = .instr i rest) :
    ∃ v ea, FitsMode f ea ∧ i = f.build v ea := by
  unfold OpForm.finish at h
  split at h
  next => cases h
  next v ws' _ =>
    split at h
    next hea =>
      cases h
      exact ⟨v, .dn 0, fun p hp => (nomatch hea.symm.trans hp), rfl⟩
    next m r hea =>
      split at h
      next ea _ htake =>
        cases h
        refine ⟨v, ea, fun p hp => ?_, rfl⟩
        cases hea.symm.trans hp
        exact mode_of_takeEa htake
      next => cases h

/-- A fetched instruction's length counts the words that were fetched for it. -/
theorem fetchInstr_words {s : State} {i : Instr} (h : fetchInstr s = .next i) :
    ∃ n, i.length = 2 + 2 * n ∧ ∀ k ≤ n, ∃ w, fetchWord s k = .next w := by
  obtain ⟨op, f, ws, rest, hop, hf, hws, hfin⟩ := fetchInstr_eq_next.1 h
  obtain ⟨v, ea, hea, rfl⟩ := finish_eq_instr hfin
  refine ⟨f.extCount, lengthFits_decodeOp op f hf v ea hea, fun k hk => ?_⟩
  rcases Nat.eq_zero_or_pos k with rfl | hpos
  · exact ⟨op, hop⟩
  · obtain ⟨-, hall⟩ := fetchWords_eq_next.1 hws
    exact ⟨_, hall k hpos (by omega)⟩

/-! ### Fetched words lie before TextEnd -/

/-- A fetched word does not wrap around the address space: rule R263 keeps TextEnd below its top. -/
theorem fetchWord_le_textEnd {s : State} (hl : s.layout.Ok) {k : Nat} {w : Word} (h : fetchWord s k = .next w) :
    (fetchAddr s k).toNat + 2 ≤ s.layout.textEnd := by
  obtain ⟨-, htext, -, -⟩ := fetchWord_eq_next.1 h
  have hend := hl.end_le
  simp [allBytes, Layout.inText, BitVec.toNat_add] at htext
  omega

theorem fetchWords_le_textEnd {s : State} (hl : s.layout.Ok) (n : Nat)
    (h : ∀ k ≤ n, ∃ w, fetchWord s k = .next w) : s.pc.toNat + (2 + 2 * n) ≤ s.layout.textEnd := by
  obtain ⟨w, hw⟩ := h n (Nat.le_refl n)
  have hlast := fetchWord_le_textEnd hl hw
  cases n with
  | zero => rwa [fetchAddr_zero] at hlast
  | succ n =>
    have hbefore := fetchWords_le_textEnd hl n fun k hk => h k (Nat.le_succ_of_le hk)
    have hend := hl.end_le
    simp only [fetchAddr, BitVec.toNat_add, BitVec.toNat_ofNat] at hlast
    omega

/-- An instruction that is fetched lies before TextEnd with all its bytes. -/
theorem fetchInstr_le_textEnd {s : State} (hl : s.layout.Ok) {i : Instr} (h : fetchInstr s = .next i) :
    s.pc.toNat + i.length ≤ s.layout.textEnd := by
  obtain ⟨n, hlen, hwords⟩ := fetchInstr_words h
  rw [hlen]
  exact fetchWords_le_textEnd hl n hwords

/-- A step from a legal state advances pc by the length of the instruction there, without wrapping. -/
theorem pc_toNat_of_exec {s t : State} (hl : s.layout.Ok) {i : Instr} (hf : fetchInstr s = .next i)
    (h : exec i s = .next t) : t.pc.toNat = s.pc.toNat + i.length := by
  have hfit := fetchInstr_le_textEnd hl hf
  have hend := hl.end_le
  rw [(completed_exec h).pc, BitVec.toNat_add, BitVec.toNat_ofNat]
  omega

/-- Settles O55: every instruction keeps the parameters and the form of memory, and one that could be fetched ends
at an even address not above TextEnd. -/
theorem stepKeepsLegal : Obligations.StepKeepsLegal := by
  intro s t hs hstep
  obtain ⟨-, i, hfetch, hexec⟩ := step_eq_next.1 hstep
  have hdone := completed_exec hexec
  have hpc := pc_toNat_of_exec hs.layout hfetch hexec
  have hfit := fetchInstr_le_textEnd hs.layout hfetch
  have heven := hs.pc_even
  have hentry := hs.entry_le
  obtain ⟨hlen, -, -⟩ := Laws.LengthBounds.of_info i
  exact
    { layout := hdone.layout ▸ hs.layout
      mem := hdone.mem_wf hs.mem
      pc_even := by omega
      entry_le := by rw [hdone.layout]; omega
      le_end := by rw [hdone.layout]; omega }

end Sys2Proof.Machine

/-! ## What other flags can change (spec/10_state.md rule R29) -/

namespace Sys2Proof.Machine

/-! ### Operands are the same under other flags -/

theorem resolveEa_setFlags (sz : Size) (ea : Ea) (s : State) (f : Flags) :
    resolveEa sz ea (s.setFlags f) = ((resolveEa sz ea s).1, (resolveEa sz ea s).2.setFlags f) := by
  cases ea <;> rfl

theorem accessStop_setFlags_eq_none {kind : AccessKind} {sz : Size} {loc : Loc} {s : State} (f : Flags) :
    accessStop kind sz loc (s.setFlags f) = none ↔ accessStop kind sz loc s = none := by
  cases loc with
  | mem addr =>
    unfold accessStop
    cases h : aligned sz addr <;> cases h2 : allBytes s.layout.admits addr sz.bytes <;> simp [h, h2]
  | _ => exact Iff.rfl

theorem textStop_setFlags_eq_none {sz : Size} {loc : Loc} {s : State} (f : Flags) :
    textStop sz loc (s.setFlags f) = none ↔ textStop sz loc s = none := by
  cases loc with
  | mem addr =>
    unfold textStop
    cases h : anyByte s.layout.inText addr sz.bytes <;> simp [h]
  | _ => exact Iff.rfl

theorem putLoc_setFlags (sz : Size) (loc : Loc) (v : BitVec sz.bits) (s : State) (f : Flags) :
    putLoc sz loc v (s.setFlags f) = (putLoc sz loc v s).setFlags f := by
  cases loc <;> rfl

section
variable {sz : Size} {s s1 : State} {v d : BitVec sz.bits} {loc : Loc}

theorem readLoc_setFlags (h : readLoc sz loc s = .next v) (f : Flags) :
    readLoc sz loc (s.setFlags f) = .next v := by
  rw [readLoc_eq] at h ⊢
  obtain ⟨hstop, rfl⟩ := orStop_eq_next.1 h
  exact orStop_eq_next.2 ⟨(accessStop_setFlags_eq_none f).2 hstop, by cases loc <;> rfl⟩

theorem writeLoc_setFlags (h : writeLoc sz loc v s = .next s1) (f : Flags) :
    writeLoc sz loc v (s.setFlags f) = .next (s1.setFlags f) := by
  obtain ⟨hloc, hstop, htext, rfl⟩ := writeLoc_next h
  rw [writeLoc_eq _ _ _ _ hloc, (accessStop_setFlags_eq_none f).2 hstop, (textStop_setFlags_eq_none f).2 htext,
    putLoc_setFlags]

theorem readEa_setFlags {ea : Ea} (h : readEa sz ea s = .next (v, s1)) (f : Flags) :
    readEa sz ea (s.setFlags f) = .next (v, s1.setFlags f) := by
  obtain ⟨v', hread, heq⟩ := andThen_eq_next.1 h
  cases heq
  simp only [readEa, resolveEa_setFlags, readLoc_setFlags hread f, andThen_next]

theorem addressSource_setFlags {src : Ea} {dst : Reg} {v : Long} (h : addressSource sz src dst s = .next (v, s1))
    (f : Flags) : addressSource sz src dst (s.setFlags f) = .next (v, s1.setFlags f) := by
  unfold addressSource at h ⊢
  split at h
  next => cases h
  next hne =>
    obtain ⟨⟨w, s'⟩, hread, heq⟩ := andThen_eq_next.1 h
    cases heq
    rw [if_neg hne, readEa_setFlags hread f, andThen_next]

theorem readPair_setFlags {src dst : Ea} (h : readPair sz src dst s = .next (v, d, loc, s1)) (f : Flags) :
    readPair sz src dst (s.setFlags f) = .next (v, d, loc, s1.setFlags f) := by
  obtain ⟨⟨v', s'⟩, hsrc, hrest⟩ := andThen_eq_next.1 h
  obtain ⟨d', hdst, heq⟩ := andThen_eq_next.1 hrest
  cases heq
  simp only [readPair, readEa_setFlags hsrc f, andThen_next, resolveEa_setFlags, readLoc_setFlags hdst f]

end

/-! ### How two runs from different flags compare -/

/-- One flag after two runs: the same, or in both runs the one it started with. -/
def FlagAgrees (old new old' new' : Bool) : Prop := new' = new ∨ new' = old' ∧ new = old

/-- The flags after two runs, each the same or in both runs the one it started with. -/
structure FlagsAgree (old new old' new' : Flags) : Prop where
  n : FlagAgrees old.n new.n old'.n new'.n
  z : FlagAgrees old.z new.z old'.z new'.z
  v : FlagAgrees old.v new.v old'.v new'.v
  c : FlagAgrees old.c new.c old'.c new'.c
  x : FlagAgrees old.x new.x old'.x new'.x

theorem FlagsAgree.same (old new old' : Flags) : FlagsAgree old new old' new :=
  ⟨.inl rfl, .inl rfl, .inl rfl, .inl rfl, .inl rfl⟩

theorem FlagsAgree.kept (old old' : Flags) : FlagsAgree old old old' old' :=
  ⟨.inr ⟨rfl, rfl⟩, .inr ⟨rfl, rfl⟩, .inr ⟨rfl, rfl⟩, .inr ⟨rfl, rfl⟩, .inr ⟨rfl, rfl⟩⟩

theorem FlagsAgree.sameButX (old old' : Flags) (n z v c : Bool) :
    FlagsAgree old ⟨n, z, v, c, old.x⟩ old' ⟨n, z, v, c, old'.x⟩ :=
  ⟨.inl rfl, .inl rfl, .inl rfl, .inl rfl, .inr ⟨rfl, rfl⟩⟩

/-- The outcome `r` of a run started with flags `f` instead of those of `s` completes as the run from `s` to `t`
did, but for flags that it kept. -/
def CompletesAs (f : Flags) (s t : State) (r : Result State) : Prop :=
  ∃ g, r = .next (t.setFlags g) ∧ FlagsAgree s.flags t.flags f g

section
variable {sz : Size} {src dst : Ea} {r r' : Reg} {s s1 t : State}

/-- The end of every shape that computes N, Z, V and C and keeps X: that the state reached first, `s1`, is the same
under other flags is `hr`. -/
theorem CompletesAs.of_keepX {f : Flags} {len : Nat} {n z v c : Bool} {o : Result State}
    (hflags : s1.flags = s.flags) (hr : o = .next (((s1.setFlags f).setFlags ⟨n, z, v, c, f.x⟩).advance len)) :
    CompletesAs f s ((s1.setFlags ⟨n, z, v, c, s1.flags.x⟩).advance len) o :=
  ⟨_, hr, hflags ▸ .sameButX _ _ _ _ _ _⟩

theorem flags_readEa {ea : Ea} {v : BitVec sz.bits} (h : readEa sz ea s = .next (v, s1)) : s1.flags = s.flags :=
  ((Midway.refl (eaSteps ea) s).readEa h fun _ => id).flags

theorem flags_addressSource {v : Long} (h : addressSource sz src r s = .next (v, s1)) : s1.flags = s.flags :=
  ((Midway.refl (eaSteps src) s).addressSource h fun _ => id).flags

theorem flags_readPair {v d : BitVec sz.bits} {loc : Loc} (h : readPair sz src dst s = .next (v, d, loc, s1)) :
    s1.flags = s.flags :=
  ((Midway.refl (fun q => eaSteps src q ∨ eaSteps dst q) s).readPair h (fun _ => .inl) fun _ => .inr).flags

theorem flags_writeLoc {loc : Loc} {v : BitVec sz.bits} (h : writeLoc sz loc v s = .next s1) :
    s1.flags = s.flags := by
  obtain ⟨-, -, -, rfl⟩ := writeLoc_next h
  exact flags_putLoc sz loc v s

theorem sourceToDn_completesAs {op : BitVec sz.bits → BitVec sz.bits → Alu sz.bits}
    (h : sourceToDn sz op src r s = .next t) (f : Flags) :
    CompletesAs f s t (sourceToDn sz op src r (s.setFlags f)) := by
  obtain ⟨⟨v, s1⟩, hread, ht⟩ := andThen_eq_next.1 h
  cases ht
  exact ⟨_, andThen_eq_next.2 ⟨_, readEa_setFlags hread f, rfl⟩, .same _ _ _⟩

theorem modifyEa_completesAs {op : BitVec sz.bits → Alu sz.bits} {len : Nat}
    (h : modifyEa sz op Flags.arith dst len s = .next t) (f : Flags) :
    CompletesAs f s t (modifyEa sz op Flags.arith dst len (s.setFlags f)) := by
  obtain ⟨d, hread, hwrite⟩ := andThen_eq_next.1 h
  obtain ⟨s2, hs2, ht⟩ := andThen_eq_next.1 hwrite
  cases ht
  refine ⟨_, ?_, .same _ _ _⟩
  simp only [modifyEa, resolveEa_setFlags, readLoc_setFlags hread f, andThen_next, writeLoc_setFlags hs2 f]
  rfl

theorem quick_completesAs {onAn : Long → Long → Long} {op : BitVec sz.bits → BitVec sz.bits → Alu sz.bits} {n : Nat}
    (h : quick sz onAn op n dst s = .next t) (f : Flags) :
    CompletesAs f s t (quick sz onAn op n dst (s.setFlags f)) := by
  by_cases hdst : ∃ q, dst = .an q
  · obtain ⟨q, rfl⟩ := hdst
    cases h
    exact ⟨f, rfl, .kept _ _⟩
  · have hne : ∀ q, dst ≠ .an q := fun q hq => hdst ⟨q, hq⟩
    rw [quick_eq_modifyEa hne] at h ⊢
    exact modifyEa_completesAs h f

theorem sourceToAn_completesAs {op : Long → Long → Long} (h : sourceToAn sz op src r s = .next t) (f : Flags) :
    CompletesAs f s t (sourceToAn sz op src r (s.setFlags f)) := by
  obtain ⟨⟨v, s1⟩, hread, ht⟩ := andThen_eq_next.1 h
  cases ht
  refine ⟨f, andThen_eq_next.2 ⟨_, addressSource_setFlags hread f, rfl⟩, ?_⟩
  rw [← flags_addressSource hread]
  exact .kept _ _

theorem compareDn_completesAs (h : compareDn sz src r s = .next t) (f : Flags) :
    CompletesAs f s t (compareDn sz src r (s.setFlags f)) := by
  obtain ⟨⟨v, s1⟩, hread, ht⟩ := andThen_eq_next.1 h
  cases ht
  exact .of_keepX (flags_readEa hread) (andThen_eq_next.2 ⟨_, readEa_setFlags hread f, rfl⟩)

theorem compareAn_completesAs (h : compareAn sz src r s = .next t) (f : Flags) :
    CompletesAs f s t (compareAn sz src r (s.setFlags f)) := by
  obtain ⟨⟨v, s1⟩, hread, ht⟩ := andThen_eq_next.1 h
  cases ht
  exact .of_keepX (flags_addressSource hread) (andThen_eq_next.2 ⟨_, addressSource_setFlags hread f, rfl⟩)

theorem compareImm_completesAs {imm : BitVec sz.bits} (h : compareImm sz imm dst s = .next t) (f : Flags) :
    CompletesAs f s t (compareImm sz imm dst (s.setFlags f)) := by
  obtain ⟨⟨v, s1⟩, hread, ht⟩ := andThen_eq_next.1 h
  cases ht
  exact .of_keepX (flags_readEa hread) (andThen_eq_next.2 ⟨_, readEa_setFlags hread f, rfl⟩)

theorem compareMem_completesAs (h : compareMem sz r r' s = .next t) (f : Flags) :
    CompletesAs f s t (compareMem sz r r' (s.setFlags f)) := by
  obtain ⟨⟨v, d, loc, s1⟩, hread, ht⟩ := andThen_eq_next.1 h
  cases ht
  exact .of_keepX (flags_readPair hread) (andThen_eq_next.2 ⟨_, readPair_setFlags hread f, rfl⟩)

theorem testEa_completesAs (h : testEa sz dst s = .next t) (f : Flags) :
    CompletesAs f s t (testEa sz dst (s.setFlags f)) := by
  obtain ⟨⟨v, s1⟩, hread, ht⟩ := andThen_eq_next.1 h
  cases ht
  exact .of_keepX (flags_readEa hread) (andThen_eq_next.2 ⟨_, readEa_setFlags hread f, rfl⟩)

theorem clear_completesAs (h : clear sz dst s = .next t) (f : Flags) :
    CompletesAs f s t (clear sz dst (s.setFlags f)) := by
  obtain ⟨s1, hwrite, ht⟩ := andThen_eq_next.1 h
  cases ht
  refine .of_keepX ((flags_writeLoc hwrite).trans (flags_resolveEa sz dst s)) ?_
  simp only [clear, resolveEa_setFlags, writeLoc_setFlags hwrite f, andThen_next]
  rfl

theorem testAndSet_completesAs (h : testAndSet dst s = .next t) (f : Flags) :
    CompletesAs f s t (testAndSet dst (s.setFlags f)) := by
  obtain ⟨d, hread, hrest⟩ := andThen_eq_next.1 h
  obtain ⟨s1, hwrite, ht⟩ := andThen_eq_next.1 hrest
  cases ht
  refine .of_keepX ((flags_writeLoc hwrite).trans (flags_resolveEa .byte dst s)) ?_
  simp only [testAndSet, resolveEa_setFlags, readLoc_setFlags hread f, writeLoc_setFlags hwrite f, andThen_next]
  rfl

theorem finishDn_completesAs (hflags : s1.flags = s.flags) {n : Nat} (result : Long) (tested : BitVec n) (len : Nat)
    (f : Flags) :
    CompletesAs f s (finishDn r result tested len s1) (.next (finishDn r result tested len (s1.setFlags f))) :=
  .of_keepX (s1 := s1.setDreg r result) hflags rfl

theorem multiply_completesAs {product : Word → Word → Long} (h : multiply product src r s = .next t) (f : Flags) :
    CompletesAs f s t (multiply product src r (s.setFlags f)) := by
  obtain ⟨⟨v, s1⟩, hread, ht⟩ := andThen_eq_next.1 h
  cases ht
  rw [multiply, readEa_setFlags hread f, andThen_next]
  exact finishDn_completesAs (flags_readEa hread) _ _ _ f

theorem divideOverflow_completesAs (hflags : s1.flags = s.flags) (signed : Bool) (dividend : Long) (divisor : Word)
    (len : Nat) (f : Flags) :
    CompletesAs f s ((divideOverflow signed dividend divisor s1).advance len)
      (.next ((divideOverflow signed dividend divisor (s1.setFlags f)).advance len)) :=
  .of_keepX (s1 := { s1 with draws := s1.draws + 1 }) hflags rfl

theorem divideSigned_completesAs (hflags : s1.flags = s.flags) (divisor : Word) (len : Nat) (f : Flags) :
    CompletesAs f s (divideSigned divisor r len s1) (.next (divideSigned divisor r len (s1.setFlags f))) := by
  by_cases hover : outsideSigned 16 (quotS (s1.dreg r) divisor) = true
  · rw [divideSigned_overflow hover, divideSigned_overflow (s := s1.setFlags f) hover]
    exact divideOverflow_completesAs hflags _ _ _ _ f
  · rw [divideSigned_fits hover, divideSigned_fits (s := s1.setFlags f) hover]
    exact finishDn_completesAs hflags _ _ _ f

theorem divideUnsigned_completesAs (hflags : s1.flags = s.flags) (divisor : Word) (len : Nat) (f : Flags) :
    CompletesAs f s (divideUnsigned divisor r len s1) (.next (divideUnsigned divisor r len (s1.setFlags f))) := by
  by_cases hover : 65535 < quotU (s1.dreg r) divisor
  · rw [divideUnsigned_overflow hover, divideUnsigned_overflow (s := s1.setFlags f) hover]
    exact divideOverflow_completesAs hflags _ _ _ _ f
  · rw [divideUnsigned_fits hover, divideUnsigned_fits (s := s1.setFlags f) hover]
    exact finishDn_completesAs hflags _ _ _ f

theorem divide_setFlags {how : Word → Reg → Nat → State → State} {v : Word}
    (hread : readEa .word src s = .next (v, s1)) (hv : v ≠ 0#16) (f : Flags) :
    divide how src r (s.setFlags f) = .next (how v r (2 + src.extBytes .word) (s1.setFlags f)) :=
  andThen_eq_next.2 ⟨_, readEa_setFlags hread f, if_neg hv⟩

theorem divs_completesAs (h : divide divideSigned src r s = .next t) (f : Flags) :
    CompletesAs f s t (divide divideSigned src r (s.setFlags f)) := by
  obtain ⟨v, s1, hread, hv, rfl⟩ := divide_next h
  rw [divide_setFlags hread hv f]
  exact divideSigned_completesAs (flags_readEa hread) v _ f

theorem divu_completesAs (h : divide divideUnsigned src r s = .next t) (f : Flags) :
    CompletesAs f s t (divide divideUnsigned src r (s.setFlags f)) := by
  obtain ⟨v, s1, hread, hv, rfl⟩ := divide_next h
  rw [divide_setFlags hread hv f]
  exact divideUnsigned_completesAs (flags_readEa hread) v _ f

theorem extendByte_completesAs (r : Reg) (s : State) (f : Flags) :
    CompletesAs f s (extendByte r s) (.next (extendByte r (s.setFlags f))) :=
  .of_keepX (s1 := s.setDlow .word r ((lowPart .byte (s.dreg r)).signExtend 16)) rfl rfl

end

/-! ### Every instruction -/

theorem exec_completesAs {i : Instr} {s t : State}
    (hx : ∀ sz src dst, i ≠ Instr.addxReg sz src dst ∧ i ≠ Instr.addxMem sz src dst ∧
      i ≠ Instr.subxReg sz src dst ∧ i ≠ Instr.subxMem sz src dst)
    (hn : ∀ sz dst, i ≠ Instr.negx sz dst) (h : exec i s = .next t) (f : Flags) :
    CompletesAs f s t (exec i (s.setFlags f)) := by
  replace hx := hx i.info.size
  replace hn := hn i.info.size
  cases i with
  | addEaDnB | addEaDnW | addEaDnL | subEaDnB | subEaDnW | subEaDnL => exact sourceToDn_completesAs h f
  | addDnEaB | addDnEaW | addDnEaL | subDnEaB | subDnEaW | subDnEaL | addiB | addiW | addiL | subiB | subiW
  | subiL | negB | negW | negL => exact modifyEa_completesAs h f
  | addqB | addqW | addqL | subqB | subqW | subqL => exact quick_completesAs h f
  | addaW | addaL | subaW | subaL => exact sourceToAn_completesAs h f
  | cmpB | cmpW | cmpL => exact compareDn_completesAs h f
  | cmpaW | cmpaL => exact compareAn_completesAs h f
  | cmpiB | cmpiW | cmpiL => exact compareImm_completesAs h f
  | cmpmB | cmpmW | cmpmL => exact compareMem_completesAs h f
  | tstB | tstW | tstL => exact testEa_completesAs h f
  | clrB | clrW | clrL => exact clear_completesAs h f
  | tas => exact testAndSet_completesAs h f
  | muls | mulu => exact multiply_completesAs h f
  | divs => exact divs_completesAs h f
  | divu => exact divu_completesAs h f
  | extW dst => cases h; exact extendByte_completesAs dst s f
  | extL dst => cases h; exact finishDn_completesAs rfl _ _ _ f
  | addxRegB src dst | addxRegW src dst | addxRegL src dst =>
    obtain ⟨hne, -, -, -⟩ := hx src dst
    exact absurd rfl hne
  | addxMemB src dst | addxMemW src dst | addxMemL src dst =>
    obtain ⟨-, hne, -, -⟩ := hx src dst
    exact absurd rfl hne
  | subxRegB src dst | subxRegW src dst | subxRegL src dst =>
    obtain ⟨-, -, hne, -⟩ := hx src dst
    exact absurd rfl hne
  | subxMemB src dst | subxMemW src dst | subxMemL src dst =>
    obtain ⟨-, -, -, hne⟩ := hx src dst
    exact absurd rfl hne
  | negxB dst | negxW dst | negxL dst => exact absurd rfl (hn dst)

/-- Settles O47: the second run ends in the first one's state with flags that agree. -/
theorem flagsAreNotRead : Obligations.FlagsAreNotRead := by
  intro i s t f hx hn h
  obtain ⟨g, hrun, hg⟩ := exec_completesAs hx hn h f
  exact ⟨t.setFlags g, hrun, rfl, rfl, rfl, rfl, rfl, rfl, hg.n, hg.z, hg.v, hg.c, hg.x⟩

end Sys2Proof.Machine

/-! ## Memory accesses (spec/20_memory.md rules R40 to R45, R70) -/

namespace Sys2Proof.Machine

/-! ### A value is its bytes, the highest first -/

theorem toNat_append_eq_mul_add {n m : Nat} (hi : BitVec n) (lo : BitVec m) :
    (hi ++ lo).toNat = hi.toNat * 2 ^ m + lo.toNat := by
  rw [BitVec.toNat_append, ← Nat.shiftLeft_add_eq_or_of_lt lo.isLt, Nat.shiftLeft_eq]

theorem toNat_valueAt (s : State) (sz : Size) (addr : Long) :
    (s.valueAt sz addr).toNat = readBE s.mem addr sz.bytes := by
  have hlt := readBE_lt s.mem addr sz.bytes
  have hpow : 256 ^ sz.bytes = 2 ^ sz.bits := by cases sz <;> rfl
  rw [State.valueAt, BitVec.toNat_ofNat, Nat.mod_eq_of_lt (hpow ▸ hlt)]

theorem readBE_succ (s : State) (addr : Long) (k : Nat) :
    readBE s.mem addr (k + 1) = (s.byteAt addr).toNat * 256 ^ k + readBE s.mem (addr + 1) k := rfl

theorem valueAt_byte (s : State) (addr : Long) : (s.valueAt .byte addr : Byte) = s.byteAt addr := by
  apply BitVec.eq_of_toNat_eq
  rw [toNat_valueAt, readBE_succ]
  simp [readBE]

theorem valueAt_word (s : State) (addr : Long) :
    (s.valueAt .word addr : Word) = (s.byteAt addr ++ s.byteAt (addr + 1) : Word) := by
  apply BitVec.eq_of_toNat_eq
  rw [toNat_valueAt, toNat_append_eq_mul_add, readBE_succ, readBE_succ]
  simp [readBE]

theorem valueAt_long (s : State) (addr : Long) :
    (s.valueAt .long addr : Long) =
      (s.byteAt addr ++ s.byteAt (addr + 1) ++ s.byteAt (addr + 2) ++ s.byteAt (addr + 3) : Long) := by
  have h2 : addr + 1 + 1 = addr + 2 := BitVec.add_assoc addr 1 1
  have h3 : addr + 2 + 1 = addr + 3 := BitVec.add_assoc addr 2 1
  apply BitVec.eq_of_toNat_eq
  rw [toNat_valueAt]
  simp only [toNat_append_eq_mul_add, readBE_succ, h2, h3]
  simp only [readBE]
  omega

/-! ### The bytes of a stored value, from `valueAt_withValue` -/

theorem byteAt_withValue_byte (s : State) (addr : Long) (v : Byte) :
    (s.withValue .byte addr v).byteAt addr = v :=
  (valueAt_byte _ addr).symm.trans (valueAt_withValue s .byte addr v)

theorem halves_of_append_eq {hi lo : Byte} {v : BitVec (8 + 8)} (h : hi ++ lo = v) :
    hi = v.extractLsb' 8 8 ∧ lo = v.extractLsb' 0 8 := by
  subst h
  exact ⟨BitVec.extractLsb'_append_eq_left.symm, BitVec.extractLsb'_append_eq_right.symm⟩

theorem extractLsb'_append_above_byte {n : Nat} (hi : BitVec n) (lo : Byte) (k : Nat) :
    (hi ++ lo).extractLsb' (k + 8) 8 = hi.extractLsb' k 8 :=
  BitVec.extractLsb'_append_eq_of_le (Nat.le_add_left 8 k)

theorem quarters_of_append_eq {b3 b2 b1 b0 : Byte} {v : BitVec (8 + 8 + 8 + 8)} (h : b3 ++ b2 ++ b1 ++ b0 = v) :
    b3 = v.extractLsb' 24 8 ∧ b2 = v.extractLsb' 16 8 ∧ b1 = v.extractLsb' 8 8 ∧ b0 = v.extractLsb' 0 8 := by
  subst h
  refine ⟨?_, ?_, ?_, BitVec.extractLsb'_append_eq_right.symm⟩
  · rw [extractLsb'_append_above_byte _ b0 16, extractLsb'_append_above_byte _ b1 8,
      BitVec.extractLsb'_append_eq_left]
  · rw [extractLsb'_append_above_byte _ b0 8, extractLsb'_append_above_byte _ b1 0,
      BitVec.extractLsb'_append_eq_right]
  · rw [extractLsb'_append_above_byte _ b0 0, BitVec.extractLsb'_append_eq_right]

theorem byteAt_withValue_word (s : State) (addr : Long) (v : Word) :
    (s.withValue .word addr v).byteAt addr = v.extractLsb' 8 8 ∧
      (s.withValue .word addr v).byteAt (addr + 1) = v.extractLsb' 0 8 :=
  halves_of_append_eq ((valueAt_word _ addr).symm.trans (valueAt_withValue s .word addr v))

theorem byteAt_withValue_long (s : State) (addr : Long) (v : Long) :
    (s.withValue .long addr v).byteAt addr = v.extractLsb' 24 8 ∧
      (s.withValue .long addr v).byteAt (addr + 1) = v.extractLsb' 16 8 ∧
      (s.withValue .long addr v).byteAt (addr + 2) = v.extractLsb' 8 8 ∧
      (s.withValue .long addr v).byteAt (addr + 3) = v.extractLsb' 0 8 :=
  quarters_of_append_eq ((valueAt_long _ addr).symm.trans (valueAt_withValue s .long addr v))

/-! ### The checks of an access -/

theorem add_one_add_ofNat (addr : Long) (j : Nat) :
    addr + 1 + BitVec.ofNat 32 j = addr + BitVec.ofNat 32 (j + 1) := by
  rw [BitVec.add_assoc, Nat.add_comm j 1, BitVec.ofNat_add]
  rfl

theorem allBytes_eq_false_iff (p : Long → Bool) (addr : Long) (k : Nat) :
    allBytes p addr k = false ↔ ∃ j < k, p (addr + BitVec.ofNat 32 j) = false := by
  induction k generalizing addr with
  | zero => simp [allBytes]
  | succ k ih =>
    rw [allBytes, Bool.and_eq_false_iff, ih, Nat.exists_lt_succ_left, BitVec.add_zero]
    simp only [add_one_add_ofNat]

theorem anyByte_eq_true_iff (p : Long → Bool) (addr : Long) (k : Nat) :
    anyByte p addr k = true ↔ ∃ j < k, p (addr + BitVec.ofNat 32 j) = true := by
  induction k generalizing addr with
  | zero => simp [anyByte]
  | succ k ih =>
    rw [anyByte, Bool.or_eq_true, ih, Nat.exists_lt_succ_left, BitVec.add_zero]
    simp only [add_one_add_ofNat]

theorem aligned_eq_false_iff (sz : Size) (addr : Long) :
    aligned sz addr = false ↔ sz ≠ .byte ∧ addr.toNat % 2 = 1 := by
  simp [aligned]

theorem accessStop_misaligned {kind : AccessKind} {sz : Size} {addr : Long} {s : State}
    (h : aligned sz addr = false) :
    accessStop kind sz (.mem addr) s = some (.addressError kind sz.bytes addr s) := if_pos h

theorem accessStop_unmapped {kind : AccessKind} {sz : Size} {addr : Long} {s : State}
    (ha : ¬ aligned sz addr = false) (h : allBytes s.layout.admits addr sz.bytes = false) :
    accessStop kind sz (.mem addr) s = some (.accessFault addr s) := (if_neg ha).trans (if_pos h)

theorem accessStop_mapped {kind : AccessKind} {sz : Size} {addr : Long} {s : State}
    (ha : ¬ aligned sz addr = false) (h : ¬ allBytes s.layout.admits addr sz.bytes = false) :
    accessStop kind sz (.mem addr) s = none := (if_neg ha).trans (if_neg h)

theorem memWrite_eq (sz : Size) (addr : Long) (v : BitVec sz.bits) (s : State) :
    memWrite sz addr v s = andThen (orStop (accessStop .write sz (.mem addr) s) ()) fun _ =>
      if anyByte s.layout.inText addr sz.bytes then .refused (.writeToProgramText addr s)
      else .next (s.withValue sz addr v) := by
  rw [memWrite, checkAccess_eq]

/-- Settles O11: the bytes of a value are read off `readBE`, those of a stored one off reading it back, and the checks
are `accessStop`'s and `memWrite`'s in their order. -/
theorem memoryPrimitives : Obligations.MemoryPrimitives := by
  intro s addr
  refine ⟨valueAt_byte s addr, valueAt_word s addr, valueAt_long s addr, byteAt_withValue_byte s addr,
    byteAt_withValue_word s addr,
    byteAt_withValue_long s addr, fun sz v => ⟨sameMemOutside_withValue s sz addr v, ?_⟩⟩
  dsimp only
  simp only [← aligned_eq_false_iff, ← allBytes_eq_false_iff, ← anyByte_eq_true_iff, memRead_eq, memWrite_eq]
  refine ⟨fun hmis => ?_, fun hal hun => ?_, fun hal hmap => ?_⟩
  · simp only [accessStop_misaligned hmis, orStop_some, andThen_fault, and_self]
  · simp only [accessStop_unmapped hal hun, orStop_some, andThen_fault, and_self]
  · simp only [accessStop_mapped hal hmap, orStop_none, andThen_next]
    exact ⟨trivial, fun ht => if_pos ht, fun ht => if_neg ht⟩

end Sys2Proof.Machine

/-! ## Operands (spec/20_memory.md rules R50 to R61) -/

namespace Sys2Proof.Machine

/-- Settles O12: mode by mode, `resolveEa` is written as the rule's location and register step. -/
theorem addressingModes : Obligations.AddressingModes := by
  intro sz s r
  exact ⟨rfl, rfl, rfl, rfl, rfl, fun _d16 => rfl, fun _d8 _ix => rfl, fun _w => rfl, fun _addr => rfl,
    fun _d16 => rfl, fun _d8 _ix => rfl, fun _v => rfl⟩

theorem stepSize_byte_a7 : stepSize .byte 7 = 2 := rfl

/-- A Byte operand in memory is the one byte at its address, whatever register its mode stepped. -/
theorem locValue_byte_resolveEa (ea : Ea) (s : State) (addr : Long) :
    (locValue .byte (.mem addr) (resolveEa .byte ea s).2 : Byte) = s.byteAt addr :=
  (valueAt_resolveEa .byte addr .byte ea s).trans (valueAt_byte s addr)

/-- Settles O13: the register step is `eaAreg`'s with a step size of 2, the value that of the resolved byte. -/
theorem stackPointerStepsByTwo : Obligations.StackPointerStepsByTwo := by
  intro s
  refine ⟨⟨rfl, ?_, locValue_byte_resolveEa (.postInc 7) s _⟩, ⟨rfl, ?_, locValue_byte_resolveEa (.preDec 7) s _⟩⟩
  · rw [areg_resolveEa, eaAreg, if_pos rfl, stepSize_byte_a7]
    rfl
  · rw [areg_resolveEa, eaAreg, if_pos rfl, stepSize_byte_a7]
    rfl

end Sys2Proof.Machine

/-! ## Fetching (spec/20_memory.md rules R44, R63, R69, spec/30_encoding.md rules R80, R91, R97) -/

namespace Sys2Proof.Machine

/-! ### How the fetch of words, of an instruction, and so a step, stops -/

section
variable {s : State}

/-- The word that memory holds at the k-th fetch address. -/
def wordAt (s : State) (k : Nat) : Word := s.valueAt .word (fetchAddr s k)

theorem allBytes_mono {p q : Long → Bool} (hpq : ∀ a, p a = true → q a = true) {addr : Long} {k : Nat}
    (h : allBytes p addr k = true) : allBytes q addr k = true := by
  induction k generalizing addr with
  | zero => rfl
  | succ k ih =>
    obtain ⟨hfirst, hrest⟩ := Bool.and_eq_true_iff.1 h
    exact Bool.and_eq_true_iff.2 ⟨hpq addr hfirst, ih hrest⟩

/-- ProgramText lies in MemMap (rule R263), so that an even fetch inside it does not fault. -/
theorem fetchWord_inText (hl : s.layout.Ok) (hpc : s.pc.toNat % 2 = 0) {k : Nat}
    (h : allBytes s.layout.inText (fetchAddr s k) 2 = true) : fetchWord s k = .next (wordAt s k) :=
  fetchWord_eq_next.2 ⟨fetchAddr_even hpc k, h, allBytes_mono hl.mapped h, rfl⟩

/-- The first word that is refused stops the fetch. -/
theorem fetchWords_refused {k n m : Nat} {r : Refusal} (hm : m < n)
    (hbefore : ∀ j, k ≤ j → j < k + m → ∃ w, fetchWord s j = .next w)
    (hstop : fetchWord s (k + m) = .refused r) : fetchWords s k n = .refused r := by
  induction m generalizing k n with
  | zero =>
    obtain ⟨n, rfl⟩ := Nat.exists_eq_add_one.2 hm
    rw [fetchWords, show fetchWord s k = .refused r from hstop, andThen_refused]
  | succ m ih =>
    obtain ⟨n, rfl⟩ := Nat.exists_eq_add_one.2 (Nat.zero_lt_of_lt hm)
    obtain ⟨w, hw⟩ := hbefore k (Nat.le_refl k) (by omega)
    have hrest : fetchWords s (k + 1) n = .refused r :=
      ih (by omega) (fun j hj hjm => hbefore j (by omega) (by omega)) (by rwa [Nat.add_right_comm])
    rw [fetchWords, hw, andThen_next, hrest, andThen_refused]

theorem fetchInstr_fault {f : Fault} (h : fetchWord s 0 = .fault f) : fetchInstr s = .fault f := by
  rw [fetchInstr, h, andThen_fault]

theorem fetchInstr_refused {r : Refusal} (h : fetchWord s 0 = .refused r) : fetchInstr s = .refused r := by
  rw [fetchInstr, h, andThen_refused]

theorem fetchInstr_notInScope {op : Word} (h : fetchWord s 0 = .next op) (hop : decodeOp op = none) :
    fetchInstr s = .refused (.notInScope op s) := by
  simp only [fetchInstr, h, andThen_next, hop]

theorem fetchInstr_extension_refused {op : Word} {f : OpForm} {r : Refusal} (h : fetchWord s 0 = .next op)
    (hop : decodeOp op = some f) (hws : fetchWords s 1 f.extCount = .refused r) : fetchInstr s = .refused r := by
  simp only [fetchInstr, h, andThen_next, hop, hws, andThen_refused]

theorem fetchInstr_indexWordReserved {op x : Word} {f : OpForm} {ws : List Word} (h : fetchWord s 0 = .next op)
    (hop : decodeOp op = some f) (hws : fetchWords s 1 f.extCount = .next ws)
    (hdec : decode (op :: ws) = .error (.indexWordReserved x)) :
    fetchInstr s = .refused (.indexWordReserved x s) := by
  simp only [fetchInstr, h, andThen_next, hop, hws, hdec, refuseDecode]

theorem step_fault {f : Fault} (hp : s.pc.toNat ≠ s.layout.endAddr) (h : fetchInstr s = .fault f) :
    step s = .fault f := by
  rw [step, if_neg hp, h, andThen_fault]

theorem step_refused {r : Refusal} (hp : s.pc.toNat ≠ s.layout.endAddr) (h : fetchInstr s = .refused r) :
    step s = .refused r := by
  rw [step, if_neg hp, h, andThen_refused]

end

/-- Settles O53: each clause is the first thing that `step` meets, the words before it being fetched. -/
theorem fetchStops : Obligations.FetchStops := by
  intro s hl
  dsimp only
  refine ⟨fun hend => if_pos hend, fun hp => ⟨fun hodd => ?odd, fun heven hout => ?outside,
    fun heven hin hop => ?scope, fun f k heven hop hk hkn hin hout => ?extension,
    fun f x heven hop hin hdec => ?index⟩⟩
  case odd =>
    rw [← fetchAddr_zero s] at hodd
    have hstop := fetchWord_odd hodd
    rw [fetchAddr_zero] at hstop
    exact step_fault hp (fetchInstr_fault hstop)
  case outside =>
    have hstop := fetchWord_outside (fetchAddr_even heven 0) (Bool.eq_false_iff.2 hout)
    rw [fetchAddr_zero] at hstop
    exact step_refused hp (fetchInstr_refused hstop)
  case scope => exact step_refused hp (fetchInstr_notInScope (fetchWord_inText hl heven hin) hop)
  case extension =>
    have hfetched : ∀ j, j < k → fetchWord s j = .next (wordAt s j) :=
      fun j hj => fetchWord_inText hl heven (hin j hj)
    obtain ⟨m, rfl⟩ := Nat.exists_eq_add_of_le hk
    have hstop := fetchWord_outside (fetchAddr_even heven (1 + m)) (Bool.eq_false_iff.2 hout)
    have hwords : fetchWords s 1 f.extCount = .refused (.fetchOutsideProgram (fetchAddr s (1 + m)) s) :=
      fetchWords_refused (by omega) (fun j _ hj => ⟨_, hfetched j hj⟩) hstop
    exact step_refused hp (fetchInstr_extension_refused (hfetched 0 hk) hop hwords)
  case index =>
    have hfetched : ∀ j, j ≤ f.extCount → fetchWord s j = .next (wordAt s j) :=
      fun j hj => fetchWord_inText hl heven (hin j hj)
    have hwords : fetchWords s 1 f.extCount = .next ((List.range' 1 f.extCount).map (wordAt s)) :=
      fetchWords_eq_next.2 ⟨rfl, fun j _ hj => hfetched j (by omega)⟩
    rw [List.range_eq_range', List.range'_succ, List.map_cons] at hdec
    exact step_refused hp (fetchInstr_indexWordReserved (hfetched 0 (Nat.zero_le _)) hop hwords hdec)

/-! ### A decoded instruction is fetched -/

theorem length_of_takeImm {sz : Size} {ws rest : List Word} {v : Long} (h : takeImm sz ws = some (v, rest)) :
    ws.length = Mode.imm.extCount sz + rest.length := by
  cases sz with
  | byte | word =>
    cases ws with
    | nil => cases h
    | cons w ws => cases h; exact Nat.add_comm _ _
  | long =>
    match ws, h with
    | hi :: lo :: ws, h => cases h; exact Nat.add_comm _ 2

/-- An operand takes as many extension words as its mode has (rule R85). -/
theorem length_of_takeEa {sz : Size} {m : Mode} {r : Reg} {ws rest : List Word} {ea : Ea}
    (h : takeEa sz m r ws = .ok (ea, rest)) : ws.length = m.extCount sz + rest.length := by
  cases m with
  | dn | an | ind | postInc | preDec => cases h; exact (Nat.zero_add _).symm
  | disp | absShort | pcDisp =>
    cases ws with
    | nil => cases h
    | cons w ws => cases h; exact Nat.add_comm _ _
  | index | pcIndex =>
    cases ws with
    | nil => cases h
    | cons w ws =>
      dsimp only [takeEa] at h
      split at h
      next => cases h; exact Nat.add_comm _ _
      next => cases h
  | absLong =>
    match ws, h with
    | hi :: lo :: ws, h => cases h; exact Nat.add_comm _ 2
  | imm =>
    dsimp only [takeEa] at h
    split at h
    next himm => cases h; exact length_of_takeImm himm
    next => cases h

/-- Decoding consumes the words that the operation word asks for (rule R80). -/
theorem length_of_finish {f : OpForm} {ws rest : List Word} {i : Instr} (h : f.finish ws = .instr i rest) :
    ws.length = f.extCount + rest.length := by
  unfold OpForm.finish at h
  split at h
  next => cases h
  next v ws' himm =>
    have hfirst : ws.length = (if f.hasImm then Mode.imm.extCount f.size else 0) + ws'.length := by
      split at himm
      next hf => rw [if_pos hf]; exact length_of_takeImm himm
      next hf => cases himm; rw [if_neg hf, Nat.zero_add]
    rw [hfirst, OpForm.extCount, Nat.add_assoc]
    split at h
    next hea => cases h; simp [hea]
    next m r hea =>
      split at h
      next htake => cases h; rw [length_of_takeEa htake, hea]
      next => cases h

theorem decode_cons_eq_instr {w : Word} {ws rest : List Word} {i : Instr} (h : decode (w :: ws) = .instr i rest) :
    ∃ f, decodeOp w = some f ∧ f.finish ws = .instr i rest := by
  cases hop : decodeOp w with
  | none => simp only [decode, hop] at h; cases h
  | some f => simp only [decode, hop] at h; exact ⟨f, rfl, h⟩

/-- Settles O52: the words decode as one operation word and just the extension words it asks for, so these are what
the step fetches. -/
theorem stepRunsDecoded : Obligations.StepRunsDecoded := by
  intro s i w ws hdec hp heven hwords
  obtain ⟨f, hop, hfin⟩ := decode_cons_eq_instr hdec
  have hlen : ws.length = f.extCount := length_of_finish hfin
  have hfetched : ∀ k, k ≤ ws.length → fetchWord s k = .next (wordAt s k) := fun k hk => by
    obtain ⟨htext, hadm, -⟩ := hwords k hk
    exact fetchWord_eq_next.2 ⟨fetchAddr_even heven k, htext, hadm, rfl⟩
  have hvalue : ∀ k, k ≤ ws.length → some (wordAt s k) = (w :: ws)[k]? := fun k hk => by
    obtain ⟨-, -, hw⟩ := hwords k hk
    exact hw
  have hw : wordAt s 0 = w := Option.some.inj (hvalue 0 (Nat.zero_le _))
  have hws : ws = (List.range' 1 f.extCount).map (wordAt s) := by
    refine List.ext_getElem (by simp [hlen]) fun k hk _ => ?_
    have hk' := hvalue (k + 1) hk
    rw [List.getElem?_cons_succ, List.getElem?_eq_getElem hk] at hk'
    rw [List.getElem_map, List.getElem_range', Nat.one_mul, Nat.add_comm]
    exact (Option.some.inj hk').symm
  have hext : fetchWords s 1 f.extCount = .next ws :=
    fetchWords_eq_next.2 ⟨hws, fun k _ hk => hfetched k (by omega)⟩
  exact step_of_fetch hp (fetchInstr_eq_next.2 ⟨w, f, ws, [], hw ▸ hfetched 0 (Nat.zero_le _), hop, hext, hfin⟩)

end Sys2Proof.Machine

/-! ## ProgramText is never written (spec/20_memory.md rule R70, spec/70_reset_and_hazards.md rule R263) -/

namespace Sys2Proof.Machine

/-! ### The relation that every step keeps -/

/-- The parameters are those of `s` and every byte of ProgramText reads as in `s`. -/
def SameText (s t : State) : Prop :=
  t.layout = s.layout ∧ ∀ addr : Long, s.layout.inText addr = true → t.byteAt addr = s.byteAt addr

theorem SameText.of_mem_eq {s t : State} (hl : t.layout = s.layout) (hm : t.mem = s.mem) : SameText s t :=
  ⟨hl, fun addr _ => congrArg (Memory.read · addr.toNat) hm⟩

theorem SameText.refl (s : State) : SameText s s := .of_mem_eq rfl rfl

theorem SameText.trans {s t u : State} (hst : SameText s t) (htu : SameText t u) : SameText s u := by
  obtain ⟨hl, ht⟩ := hst
  obtain ⟨hl', hu⟩ := htu
  exact ⟨hl'.trans hl, fun addr ha => (hu addr (hl.symm ▸ ha)).trans (ht addr ha)⟩

theorem sameText_resolveEa (sz : Size) (ea : Ea) (s : State) : SameText s (resolveEa sz ea s).2 :=
  .of_mem_eq (layout_resolveEa sz ea s) (mem_resolveEa sz ea s)

/-- A store that is not refused has no byte in ProgramText. -/
theorem inText_eq_false_of_textStop {sz : Size} {addr : Long} {s : State}
    (h : textStop sz (.mem addr) s = none) {k : Nat} (hk : k < sz.bytes) :
    s.layout.inText (addr + BitVec.ofNat 32 k) = false := by
  cases hin : s.layout.inText (addr + BitVec.ofNat 32 k) with
  | false => rfl
  | true =>
    have hany := (anyByte_eq_true_iff s.layout.inText addr sz.bytes).2 ⟨k, hk, hin⟩
    cases (if_pos hany).symm.trans h

/-- The key fact: what is written outside ProgramText leaves its bytes alone. -/
theorem sameText_putLoc {sz : Size} {loc : Loc} {v : BitVec sz.bits} {s : State}
    (h : textStop sz loc s = none) : SameText s (putLoc sz loc v s) := by
  cases loc with
  | mem addr =>
    refine ⟨rfl, fun a ha => sameMemOutside_withValue s sz addr v a fun k hk hak => ?_⟩
    have hout := inText_eq_false_of_textStop h hk
    rw [← hak, ha] at hout
    cases hout
  | _ => exact .of_mem_eq rfl rfl

/-! ### The parts of a step, composed -/

/-- If the part of a step that started in `s` answers, the state it goes on with has the ProgramText of `s`. -/
def KeepsText {α : Type} (after : α → State) (s : State) (o : Result α) : Prop :=
  ∀ x, o = .next x → SameText s (after x)

section
variable {α β : Type} {s : State}

theorem KeepsText.next {after : α → State} {x : α} (h : SameText s (after x)) : KeepsText after s (.next x) := by
  rintro _ ⟨⟩
  exact h

theorem KeepsText.fault {after : α → State} {f : Fault} : KeepsText after s (.fault f) := fun _ h => nomatch h

theorem KeepsText.refused {after : α → State} {r : Refusal} : KeepsText after s (.refused r) := fun _ h => nomatch h

theorem KeepsText.andThen {midway : α → State} {after : β → State} {m : Result α} {k : α → Result β}
    (hm : KeepsText midway s m) (hk : ∀ x, KeepsText after (midway x) (k x)) :
    KeepsText after s (andThen m k) := by
  intro y hy
  obtain ⟨x, hx, hkx⟩ := andThen_eq_next.1 hy
  exact (hm x hx).trans (hk x y hkx)

end

section
variable {sz : Size} {src dst : Ea} {r r' : Reg}

theorem keepsText_readLoc_resolveEa (sz : Size) (ea : Ea) (s : State) :
    KeepsText (fun _ => (resolveEa sz ea s).2) s
      (readLoc sz (resolveEa sz ea s).1 (resolveEa sz ea s).2) :=
  fun _ _ => sameText_resolveEa sz ea s

theorem keepsText_writeLoc (sz : Size) (loc : Loc) (v : BitVec sz.bits) (s : State) :
    KeepsText id s (writeLoc sz loc v s) := by
  intro t h
  obtain ⟨-, -, htext, rfl⟩ := writeLoc_next h
  exact sameText_putLoc htext

theorem keepsText_readEa (sz : Size) (ea : Ea) (s : State) : KeepsText Prod.snd s (readEa sz ea s) := by
  rintro ⟨v, s1⟩ h
  rw [readEa_next h]
  exact sameText_resolveEa sz ea s

theorem keepsText_addressSource (sz : Size) (src : Ea) (dst : Reg) (s : State) :
    KeepsText Prod.snd s (addressSource sz src dst s) := by
  unfold addressSource
  split
  next => exact .refused
  next => exact (keepsText_readEa sz src s).andThen fun _ => .next (.refl _)

theorem keepsText_readPair (sz : Size) (src dst : Ea) (s : State) :
    KeepsText (fun x => x.2.2.2) s (readPair sz src dst s) :=
  (keepsText_readEa sz src s).andThen fun x => (keepsText_readLoc_resolveEa sz dst x.2).andThen fun _ => .next (.refl _)

/-! ### Every shape -/

theorem keepsText_sourceToDn (op : BitVec sz.bits → BitVec sz.bits → Alu sz.bits) (s : State) :
    KeepsText id s (sourceToDn sz op src r s) :=
  (keepsText_readEa sz src s).andThen fun _ => .next (.of_mem_eq rfl rfl)

theorem keepsText_modifyEa (op : BitVec sz.bits → Alu sz.bits) (flags : Flags → Alu sz.bits → Flags) (len : Nat)
    (s : State) : KeepsText id s (modifyEa sz op flags dst len s) :=
  (keepsText_readLoc_resolveEa sz dst s).andThen fun _ =>
    (keepsText_writeLoc sz _ _ _).andThen fun _ => .next (.of_mem_eq rfl rfl)

theorem keepsText_quick (onAn : Long → Long → Long) (op : BitVec sz.bits → BitVec sz.bits → Alu sz.bits) (n : Nat)
    (s : State) : KeepsText id s (quick sz onAn op n dst s) := by
  unfold quick
  split
  next => exact .next (.of_mem_eq rfl rfl)
  next => exact keepsText_modifyEa _ _ _ s

theorem keepsText_sourceToAn (op : Long → Long → Long) (s : State) :
    KeepsText id s (sourceToAn sz op src r s) :=
  (keepsText_addressSource sz src r s).andThen fun _ => .next (.of_mem_eq rfl rfl)

theorem keepsText_extendedDn (op : BitVec sz.bits → BitVec sz.bits → Bool → Alu sz.bits) (s : State) :
    KeepsText id s (extendedDn sz op r r' s) :=
  .next (.of_mem_eq rfl rfl)

theorem keepsText_extendedMem (op : BitVec sz.bits → BitVec sz.bits → Bool → Alu sz.bits) (s : State) :
    KeepsText id s (extendedMem sz op r r' s) :=
  (keepsText_readPair sz _ _ s).andThen fun _ =>
    (keepsText_writeLoc sz _ _ _).andThen fun _ => .next (.of_mem_eq rfl rfl)

theorem keepsText_compareMem (s : State) : KeepsText id s (compareMem sz r r' s) :=
  (keepsText_readPair sz _ _ s).andThen fun _ => .next (.of_mem_eq rfl rfl)

theorem keepsText_compareDn (s : State) : KeepsText id s (compareDn sz src r s) :=
  (keepsText_readEa sz src s).andThen fun _ => .next (.of_mem_eq rfl rfl)

theorem keepsText_compareAn (s : State) : KeepsText id s (compareAn sz src r s) :=
  (keepsText_addressSource sz src r s).andThen fun _ => .next (.of_mem_eq rfl rfl)

theorem keepsText_compareImm (imm : BitVec sz.bits) (s : State) : KeepsText id s (compareImm sz imm dst s) :=
  (keepsText_readEa sz dst s).andThen fun _ => .next (.of_mem_eq rfl rfl)

theorem keepsText_testEa (s : State) : KeepsText id s (testEa sz dst s) :=
  (keepsText_readEa sz dst s).andThen fun _ => .next (.of_mem_eq rfl rfl)

theorem keepsText_clear (s : State) : KeepsText id s (clear sz dst s) := by
  have hstore : KeepsText id s (writeLoc sz (resolveEa sz dst s).1 0 (resolveEa sz dst s).2) := fun t h =>
    (sameText_resolveEa sz dst s).trans (keepsText_writeLoc sz _ _ _ t h)
  exact hstore.andThen fun _ => .next (.of_mem_eq rfl rfl)

theorem keepsText_testAndSet (s : State) : KeepsText id s (testAndSet dst s) :=
  (keepsText_readLoc_resolveEa .byte dst s).andThen fun _ =>
    (keepsText_writeLoc .byte _ _ _).andThen fun _ => .next (.of_mem_eq rfl rfl)

theorem keepsText_multiply (product : Word → Word → Long) (s : State) :
    KeepsText id s (multiply product src r s) :=
  (keepsText_readEa .word src s).andThen fun _ => .next (.of_mem_eq rfl rfl)

theorem keepsText_divide {how : Word → Reg → Nat → State → State}
    (hhow : ∀ v len s1, SameText s1 (how v r len s1)) (s : State) : KeepsText id s (divide how src r s) :=
  (keepsText_readEa .word src s).andThen fun ⟨v, s1⟩ => by
    dsimp only
    split
    next => exact .fault
    next => exact .next (hhow v _ s1)

theorem sameText_divideSigned (v : Word) (len : Nat) (s : State) : SameText s (divideSigned v r len s) := by
  by_cases hover : outsideSigned 16 (quotS (s.dreg r) v) = true
  · rw [divideSigned_overflow hover]; exact .of_mem_eq rfl rfl
  · rw [divideSigned_fits hover]; exact .of_mem_eq rfl rfl

theorem sameText_divideUnsigned (v : Word) (len : Nat) (s : State) : SameText s (divideUnsigned v r len s) := by
  by_cases hover : 65535 < quotU (s.dreg r) v
  · rw [divideUnsigned_overflow hover]; exact .of_mem_eq rfl rfl
  · rw [divideUnsigned_fits hover]; exact .of_mem_eq rfl rfl

end

/-! ### Every instruction, step and run -/

theorem keepsText_exec (i : Instr) (s : State) : KeepsText id s (exec i s) := by
  cases i with
  | addEaDnB | addEaDnW | addEaDnL | subEaDnB | subEaDnW | subEaDnL => exact keepsText_sourceToDn _ s
  | addDnEaB | addDnEaW | addDnEaL | subDnEaB | subDnEaW | subDnEaL | addiB | addiW | addiL | subiB | subiW
  | subiL | negB | negW | negL | negxB | negxW | negxL => exact keepsText_modifyEa _ _ _ s
  | addqB | addqW | addqL | subqB | subqW | subqL => exact keepsText_quick _ _ _ s
  | addxRegB | addxRegW | addxRegL | subxRegB | subxRegW | subxRegL => exact keepsText_extendedDn _ s
  | addxMemB | addxMemW | addxMemL | subxMemB | subxMemW | subxMemL => exact keepsText_extendedMem _ s
  | cmpmB | cmpmW | cmpmL => exact keepsText_compareMem s
  | addaW | addaL | subaW | subaL => exact keepsText_sourceToAn _ s
  | cmpB | cmpW | cmpL => exact keepsText_compareDn s
  | cmpaW | cmpaL => exact keepsText_compareAn s
  | cmpiB | cmpiW | cmpiL => exact keepsText_compareImm _ s
  | tstB | tstW | tstL => exact keepsText_testEa s
  | clrB | clrW | clrL => exact keepsText_clear s
  | tas => exact keepsText_testAndSet s
  | muls | mulu => exact keepsText_multiply _ s
  | divs => exact keepsText_divide sameText_divideSigned s
  | divu => exact keepsText_divide sameText_divideUnsigned s
  | extW | extL => exact .next (.of_mem_eq rfl rfl)

theorem sameText_step {s t : State} (h : step s = .next t) : SameText s t := by
  obtain ⟨-, i, -, hexec⟩ := step_eq_next.1 h
  exact keepsText_exec i s t hexec

/-- Settles O56, by induction on the run: every step keeps ProgramText and the parameters. -/
theorem programTextIsImmutable : Obligations.ProgramTextIsImmutable := by
  intro s t h
  induction h with
  | refl => exact SameText.refl s
  | tail _ hstep ih => exact SameText.trans ih (sameText_step hstep)

end Sys2Proof.Machine

/-! ## Operation words by their fields (spec/30_encoding.md rules R82, R83, R86) -/

namespace Sys2Proof
open Machine

/-- The word `llll xxx d ss mmmnnn`, the fields in which formats RM, QK, UN, IM and XR agree. -/
def opFields (line : BitVec 4) (x : BitVec 3) (d : Bool) (ss : BitVec 2) (low : BitVec 6) : Word :=
  line ++ x ++ BitVec.ofBool d ++ ss ++ low

theorem toNat_extractLsb' (w : Word) (lo n : Nat) : (w.extractLsb' lo n).toNat = w.toNat / 2 ^ lo % 2 ^ n := by
  rw [BitVec.extractLsb'_toNat, Nat.shiftRight_eq_div_pow]

theorem toNat_getLsbD (w : Word) (k : Nat) : (w.getLsbD k).toNat = w.toNat / 2 ^ k % 2 := by
  rw [BitVec.getLsbD, Nat.testBit_eq_decide_div_mod_eq]
  rcases Nat.mod_two_eq_zero_or_one (w.toNat / 2 ^ k) with h | h <;> rw [h] <;> rfl

theorem getLsbD_eq_of_toNat {w : Word} {k : Nat} {b : Bool} (h : w.toNat / 2 ^ k % 2 = b.toNat) :
    w.getLsbD k = b := by
  rw [BitVec.getLsbD, Nat.testBit_eq_decide_div_mod_eq, h]
  cases b <;> rfl

section
variable {line : BitVec 4} {x : BitVec 3} {d : Bool} {ss : BitVec 2} {low : BitVec 6}

theorem toNat_opFields : (opFields line x d ss low).toNat =
    line.toNat * 4096 + x.toNat * 512 + d.toNat * 256 + ss.toNat * 64 + low.toNat := by
  simp only [opFields, toNat_append_eq_mul_add, BitVec.toNat_ofBool]
  omega

theorem extractLsb'_opFields {lo n : Nat} {v : BitVec n}
    (h : (line.toNat * 4096 + x.toNat * 512 + d.toNat * 256 + ss.toNat * 64 + low.toNat) / 2 ^ lo % 2 ^ n =
      v.toNat) : (opFields line x d ss low).extractLsb' lo n = v :=
  BitVec.eq_of_toNat_eq (by rw [toNat_extractLsb', toNat_opFields, h])

@[simp] theorem line_opFields : (opFields line x d ss low).extractLsb' 12 4 = line :=
  extractLsb'_opFields (by have := d.toNat_lt; omega)

@[simp] theorem reg_opFields : (opFields line x d ss low).extractLsb' 9 3 = x :=
  extractLsb'_opFields (by have := d.toNat_lt; omega)

@[simp] theorem size_opFields : (opFields line x d ss low).extractLsb' 6 2 = ss :=
  extractLsb'_opFields (by omega)

@[simp] theorem low_opFields : (opFields line x d ss low).extractLsb' 0 6 = low :=
  extractLsb'_opFields (by omega)

@[simp] theorem extractLsb'_opFields_of_low {lo n : Nat} (h : lo + n ≤ 6) :
    (opFields line x d ss low).extractLsb' lo n = low.extractLsb' lo n :=
  BitVec.extractLsb'_append_eq_of_add_le h

theorem bit8_opFields : (opFields line x d ss low).getLsbD 8 = d := by
  apply getLsbD_eq_of_toNat
  rw [toNat_opFields]
  have := d.toNat_lt
  omega

theorem bit6_opFields : (opFields line x d ss low).getLsbD 6 = ss.getLsbD 0 := by
  rw [← size_opFields (line := line) (x := x) (d := d) (ss := ss) (low := low), BitVec.getLsbD_extractLsb']
  simp

theorem bit3_opFields : (opFields line x d ss low).getLsbD 3 = low.getLsbD 3 := by
  rw [← low_opFields (line := line) (x := x) (d := d) (ss := ss) (low := low), BitVec.getLsbD_extractLsb',
    low_opFields]
  simp

/-- `simp` writes the test of a bit as an element of the word. -/
@[simp] theorem getElem_eight_opFields : (opFields line x d ss low)[8] = d := bit8_opFields

@[simp] theorem getElem_three_opFields : (opFields line x d ss low)[3] = low[3] := bit3_opFields

@[simp] theorem regField9_opFields : regField (opFields line x d ss low) 9 = x.toFin :=
  congrArg BitVec.toFin reg_opFields

theorem regField0_opFields : regField (opFields line x d ss low) 0 = (low.extractLsb' 0 3).toFin :=
  congrArg BitVec.toFin (extractLsb'_opFields_of_low (by decide))

end

/-- Every word has these fields. -/
theorem exists_opFields (w : Word) : ∃ line x d ss low, w = opFields line x d ss low := by
  refine ⟨w.extractLsb' 12 4, w.extractLsb' 9 3, w.getLsbD 8, w.extractLsb' 6 2, w.extractLsb' 0 6, ?_⟩
  apply BitVec.eq_of_toNat_eq
  simp only [toNat_opFields, toNat_extractLsb', toNat_getLsbD]
  omega

section
variable {line : BitVec 4} {x : BitVec 3} {d : Bool} {ss : BitVec 2} {low : BitVec 6} {mask c : Word}

/-- Words are equal when their fields are. -/
theorem opFields_eq_iff : opFields line x d ss low = c ↔
    line = c.extractLsb' 12 4 ∧ x = c.extractLsb' 9 3 ∧ d = c.getLsbD 8 ∧ ss = c.extractLsb' 6 2 ∧
      low = c.extractLsb' 0 6 := by
  obtain ⟨line', x', d', ss', low', rfl⟩ := exists_opFields c
  simp only [line_opFields, reg_opFields, bit8_opFields, size_opFields, low_opFields]
  constructor
  · intro h
    have hline := congrArg (BitVec.extractLsb' 12 4) h
    have hx := congrArg (BitVec.extractLsb' 9 3) h
    have hd := congrArg (BitVec.getLsbD · 8) h
    have hss := congrArg (BitVec.extractLsb' 6 2) h
    have hlow := congrArg (BitVec.extractLsb' 0 6) h
    simp only [line_opFields, reg_opFields, bit8_opFields, size_opFields, low_opFields] at hline hx hd hss hlow
    exact ⟨hline, hx, hd, hss, hlow⟩
  · rintro ⟨rfl, rfl, rfl, rfl, rfl⟩
    rfl

theorem opFields_and : opFields line x d ss low &&& mask =
    opFields (line &&& mask.extractLsb' 12 4) (x &&& mask.extractLsb' 9 3) (d && mask.getLsbD 8)
      (ss &&& mask.extractLsb' 6 2) (low &&& mask.extractLsb' 0 6) := by
  rw [eq_comm, opFields_eq_iff]
  simp only [BitVec.extractLsb'_and, BitVec.getLsbD_and, line_opFields, reg_opFields, bit8_opFields, size_opFields,
    low_opFields, and_self]

/-- A test of the word against a mask is a test of the fields against the mask's. -/
@[simp] theorem opFields_and_eq_iff : opFields line x d ss low &&& mask = c ↔
    line &&& mask.extractLsb' 12 4 = c.extractLsb' 12 4 ∧ x &&& mask.extractLsb' 9 3 = c.extractLsb' 9 3 ∧
      (d && mask.getLsbD 8) = c.getLsbD 8 ∧ ss &&& mask.extractLsb' 6 2 = c.extractLsb' 6 2 ∧
      low &&& mask.extractLsb' 0 6 = c.extractLsb' 0 6 := by
  rw [opFields_and, opFields_eq_iff]

/-! ### What the decoder's masks say of the fields (rule R96) -/

theorem line_of_mask (h : opFields line x d ss low &&& 0xF000#16 = c) : line = c.extractLsb' 12 4 := by
  obtain ⟨hline, -, -, -, -⟩ := opFields_and_eq_iff.1 h
  exact BitVec.and_allOnes.symm.trans hline

theorem page_of_mask (h : opFields line x d ss low &&& 0xFF00#16 = c) :
    line = c.extractLsb' 12 4 ∧ x = c.extractLsb' 9 3 ∧ d = c.getLsbD 8 := by
  obtain ⟨hline, hx, hd, -, -⟩ := opFields_and_eq_iff.1 h
  exact ⟨BitVec.and_allOnes.symm.trans hline, BitVec.and_allOnes.symm.trans hx, (Bool.and_true d).symm.trans hd⟩

theorem ext_of_mask (h : opFields line x d ss low &&& 0xFFB8#16 = 0x4880#16) :
    line = 4#4 ∧ x = 4#3 ∧ d = false ∧ ss &&& 2#2 = 2#2 ∧ low &&& 0x38#6 = 0#6 := by
  obtain ⟨hline, hx, hd, hss, hlow⟩ := opFields_and_eq_iff.1 h
  exact ⟨BitVec.and_allOnes.symm.trans hline, BitVec.and_allOnes.symm.trans hx, (Bool.and_true d).symm.trans hd,
    hss, hlow⟩

theorem tas_of_mask (h : opFields line x d ss low &&& 0xFFC0#16 = 0x4AC0#16) :
    line = 4#4 ∧ x = 5#3 ∧ d = false ∧ ss = 3#2 := by
  obtain ⟨hline, hx, hd, hss, -⟩ := opFields_and_eq_iff.1 h
  exact ⟨BitVec.and_allOnes.symm.trans hline, BitVec.and_allOnes.symm.trans hx, (Bool.and_true d).symm.trans hd,
    BitVec.and_allOnes.symm.trans hss⟩

end

/-! ### The formats' words by their fields (spec/30_encoding.md rules R82 to R88) -/

@[simp] theorem toFin_regBits (r : Reg) : (regBits r).toFin = r := rfl

section
variable (line : BitVec 4) (x y : Reg) (d : Bool) (ss : BitVec 2) (ttt : BitVec 3)

/-- Format RM has its `ooo` across two of the fields. -/
theorem opRM_eq_opFields (ea : Ea) :
    opRM line x (BitVec.ofBool d ++ ss) ea = opFields line (regBits x) d ss ea.field := by
  apply BitVec.eq_of_toNat_eq
  simp only [opRM, toNat_opFields, toNat_append_eq_mul_add, BitVec.toNat_ofBool]
  omega

theorem opXR_eq_opFields : opXR line x ss ttt y = opFields line (regBits x) true ss (ttt ++ regBits y) := by
  apply BitVec.eq_of_toNat_eq
  simp only [opXR, toNat_opFields, toNat_append_eq_mul_add, BitVec.toNat_ofNat, Bool.toNat_true]
  omega

end

theorem encode_ext (long : Bool) (r : Reg) :
    encode (Instr.ext long r) = [opFields 4#4 4#3 false (if long then 3#2 else 2#2) (0#3 ++ regBits r)] := by
  revert r
  cases long <;> decide

/-- The size field is that of a size (rule R83). -/
theorem decodeSize_eq_some_iff {w : Word} {sz : Size} :
    decodeSize w = some sz ↔ w.extractLsb' 6 2 = sizeCode sz := by
  unfold decodeSize
  generalize w.extractLsb' 6 2 = ss
  cases sz <;> revert ss <;> decide

theorem decodeSize_eq_none_iff {w : Word} : decodeSize w = none ↔ w.extractLsb' 6 2 = 3#2 := by
  unfold decodeSize
  generalize w.extractLsb' 6 2 = ss
  revert ss
  decide

/-- Every quick field codes data 1 to 8 (rule R87). -/
theorem exists_quick (x : BitVec 3) : ∃ q, (1 ≤ q ∧ q ≤ 8) ∧ x = BitVec.ofNat 3 q := by
  refine ⟨if x = 0#3 then 8 else x.toNat, ?_⟩
  revert x
  decide

theorem decodeQuick_ofNat {line : BitVec 4} {q : Nat} {d : Bool} {ss : BitVec 2} {low : BitVec 6}
    (h : 1 ≤ q ∧ q ≤ 8) : decodeQuick (opFields line (BitVec.ofNat 3 q) d ss low) = q := by
  rw [decodeQuick, reg_opFields]
  obtain ⟨hpos, hle⟩ := h
  interval_cases q <;> rfl

end Sys2Proof

/-! ## Extension words (spec/30_encoding.md rules R85, R91, R92) -/

namespace Sys2Proof
open Machine

/-- The field `mmmnnn` of a mode and a register (rule R85). -/
def Mode.field (m : Mode) (r : Reg) : BitVec 6 :=
  match m with
  | .dn => 0b000#3 ++ regBits r
  | .an => 0b001#3 ++ regBits r
  | .ind => 0b010#3 ++ regBits r
  | .postInc => 0b011#3 ++ regBits r
  | .preDec => 0b100#3 ++ regBits r
  | .disp => 0b101#3 ++ regBits r
  | .index => 0b110#3 ++ regBits r
  | .absShort => 0b111000#6
  | .absLong => 0b111001#6
  | .pcDisp => 0b111010#6
  | .pcIndex => 0b111011#6
  | .imm => 0b111100#6

/-- The decoder's table of modes is the encoder's, read backwards. -/
theorem decodeMode_eq_some_iff (low : BitVec 6) (m : Mode) :
    decodeMode (low.extractLsb' 3 3) (low.extractLsb' 0 3).toFin = some m ↔
      m.field (low.extractLsb' 0 3).toFin = low := by
  cases m <;> revert low <;> decide

theorem Ea.field_eq_mode_field (ea : Ea) : ea.field = ea.mode.field (ea.field.extractLsb' 0 3).toFin := by
  cases ea with
  | absShort | absLong | pcDisp | pcIndex | imm => rfl
  | _ => exact congrArg (_ ++ ·) BitVec.extractLsb'_append_eq_right.symm

/-! ### Index words (rule R91) -/

theorem toNat_indexWord (d8 : Byte) (ix : Index) : (indexWord d8 ix).toNat =
    (decide (ix.file = .address)).toNat * 32768 + ix.reg.val * 4096 + (decide (ix.size = .long)).toNat * 2048 +
      d8.toNat := by
  obtain ⟨file, reg, size⟩ := ix
  rw [indexWord, toNat_append_eq_mul_add]
  simp only [toNat_append_eq_mul_add, regBits, BitVec.toNat_ofFin]
  cases file <;> cases size <;> simp <;> omega

theorem indexWord_reserved (d8 : Byte) (ix : Index) : (indexWord d8 ix).extractLsb' 8 3 = 0#3 := by
  apply BitVec.eq_of_toNat_eq
  rw [toNat_extractLsb', toNat_indexWord]
  simp only [BitVec.toNat_ofNat]
  omega

theorem setWidth_indexWord (d8 : Byte) (ix : Index) : (indexWord d8 ix).setWidth 8 = d8 := by
  apply BitVec.eq_of_toNat_eq
  rw [BitVec.toNat_setWidth, toNat_indexWord]
  omega

theorem decodeIndex_indexWord (d8 : Byte) (ix : Index) : decodeIndex (indexWord d8 ix) = ix := by
  have hbit15 := Bool.toNat_lt (decide (ix.file = .address))
  have hbit11 := Bool.toNat_lt (decide (ix.size = .long))
  have hfile : (indexWord d8 ix).getLsbD 15 = decide (ix.file = .address) :=
    getLsbD_eq_of_toNat (by rw [toNat_indexWord]; omega)
  have hreg : regField (indexWord d8 ix) 12 = ix.reg := by
    apply Fin.eq_of_val_eq
    rw [regField, BitVec.val_toFin, toNat_extractLsb', toNat_indexWord]
    omega
  have hsize : (indexWord d8 ix).getLsbD 11 = decide (ix.size = .long) :=
    getLsbD_eq_of_toNat (by rw [toNat_indexWord]; omega)
  obtain ⟨file, reg, size⟩ := ix
  rw [decodeIndex, hfile, hreg, hsize]
  cases file <;> cases size <;> rfl

theorem indexWord_decodeIndex {w : Word} (h : w.extractLsb' 8 3 = 0#3) :
    indexWord (w.setWidth 8) (decodeIndex w) = w := by
  have hreserved := congrArg BitVec.toNat h
  rw [toNat_extractLsb'] at hreserved
  apply BitVec.eq_of_toNat_eq
  have hfile : decide ((decodeIndex w).file = .address) = w.getLsbD 15 := by
    rw [decodeIndex]; cases w.getLsbD 15 <;> rfl
  have hsize : decide ((decodeIndex w).size = .long) = w.getLsbD 11 := by
    rw [decodeIndex]; cases w.getLsbD 11 <;> rfl
  have hreg : (decodeIndex w).reg.val = w.toNat / 2 ^ 12 % 2 ^ 3 := toNat_extractLsb' w 12 3
  rw [toNat_indexWord, hfile, hsize, hreg, toNat_getLsbD, toNat_getLsbD, BitVec.toNat_setWidth]
  rw [BitVec.toNat_ofNat] at hreserved
  omega

/-! ### A Long in two words (rules R61, R92) -/

theorem halves_append (v : Long) : (v.extractLsb' 16 16 ++ v.extractLsb' 0 16 : Long) = v :=
  (BitVec.extractLsb'_append_extractLsb'_eq_extractLsb' rfl).trans BitVec.extractLsb'_eq_self

theorem high_append (hi lo : Word) : (hi ++ lo : Long).extractLsb' 16 16 = hi := BitVec.extractLsb'_append_eq_left

theorem low_append (hi lo : Word) : (hi ++ lo : Long).extractLsb' 0 16 = lo := BitVec.extractLsb'_append_eq_right

theorem setWidth_setWidth_of_lt {n : Nat} {v : Long} (h : v.toNat < 2 ^ n) : (v.setWidth n).setWidth 32 = v := by
  apply BitVec.eq_of_toNat_eq
  rw [BitVec.toNat_setWidth, BitVec.toNat_setWidth, Nat.mod_eq_of_lt h, Nat.mod_eq_of_lt v.isLt]

theorem toNat_setWidth_lt {n : Nat} (b : BitVec n) (h : n ≤ 32) : (b.setWidth 32).toNat < 2 ^ n := by
  rw [BitVec.toNat_setWidth_of_le h]
  exact b.isLt

/-! ### Immediates (rule R92) -/

theorem takeImm_immWords {sz : Size} {v : Long} (h : v.toNat < 2 ^ sz.bits) (rest : List Word) :
    takeImm sz (immWords sz v ++ rest) = some (v, rest) := by
  cases sz with
  | byte =>
    have hword : ((v.setWidth 8).setWidth 16).setWidth 8 = v.setWidth 8 := by simp
    simp only [immWords, List.cons_append, List.nil_append, takeImm, hword, setWidth_setWidth_of_lt h]
  | word => simp only [immWords, List.cons_append, List.nil_append, takeImm, setWidth_setWidth_of_lt h]
  | long => simp only [immWords, List.cons_append, List.nil_append, takeImm, halves_append]

/-- What is read fits the size, and is written back as it was read but for a Byte, whose word has an ignored upper
byte. -/
theorem immWords_of_takeImm {sz : Size} {ws rest : List Word} {v : Long} (h : takeImm sz ws = some (v, rest)) :
    v.toNat < 2 ^ sz.bits ∧ (sz ≠ .byte → ws = immWords sz v ++ rest) := by
  match sz, ws, h with
  | .byte, w :: ws, h =>
    cases h
    exact ⟨toNat_setWidth_lt _ (by decide), fun hne => absurd rfl hne⟩
  | .word, w :: ws, h =>
    cases h
    exact ⟨toNat_setWidth_lt w (by decide), fun _ => by simp [immWords]⟩
  | .long, hi :: lo :: ws, h =>
    cases h
    exact ⟨BitVec.isLt _, fun _ => by rw [immWords, high_append, low_append]; rfl⟩

/-! ### Operands (rules R51 to R61, R85) -/

theorem reg_eq_of_field_eq {mmm : BitVec 3} {q r : Reg} (h : (mmm ++ regBits q : BitVec 6) = mmm ++ regBits r) :
    q = r :=
  congrArg BitVec.toFin ((BitVec.append_right_inj mmm).1 h)

theorem takeEa_extWords {sz : Size} {ea : Ea} {r : Reg} (hfield : ea.field = ea.mode.field r)
    (hfit : ea.immFits sz = true) (rest : List Word) :
    takeEa sz ea.mode r (ea.extWords sz ++ rest) = .ok (ea, rest) := by
  cases ea with
  | dn q | an q | ind q | postInc q | preDec q | disp d16 q => rw [reg_eq_of_field_eq hfield]; rfl
  | index d8 q ix =>
    rw [reg_eq_of_field_eq hfield]
    simp only [takeEa, Ea.mode, Ea.extWords, List.cons_append, List.nil_append, indexWord_reserved, if_true,
      setWidth_indexWord, decodeIndex_indexWord]
  | absShort w | pcDisp d16 => rfl
  | pcIndex d8 ix =>
    simp only [takeEa, Ea.mode, Ea.extWords, List.cons_append, List.nil_append, indexWord_reserved, if_true,
      setWidth_indexWord, decodeIndex_indexWord]
  | absLong addr => simp only [takeEa, Ea.mode, Ea.extWords, List.cons_append, List.nil_append, halves_append]
  | imm v => simp only [takeEa, Ea.mode, Ea.extWords, takeImm_immWords (of_decide_eq_true hfit)]

/-- The operand read is of the mode and register asked for, its immediate fits, and its words are written back as they
were read but for a Byte immediate. -/
structure TakenFrom (sz : Size) (m : Mode) (r : Reg) (ea : Ea) (ws rest : List Word) : Prop where
  field : ea.field = m.field r
  fits  : ea.immFits sz = true
  words : ¬ (sz = .byte ∧ m = .imm) → ws = ea.extWords sz ++ rest

theorem takenFrom_of_takeEa {sz : Size} {m : Mode} {r : Reg} {ws rest : List Word} {ea : Ea}
    (h : takeEa sz m r ws = .ok (ea, rest)) : TakenFrom sz m r ea ws rest := by
  cases m with
  | dn | an | ind | postInc | preDec => cases h; exact ⟨rfl, rfl, fun _ => rfl⟩
  | disp | absShort | pcDisp =>
    cases ws with
    | nil => cases h
    | cons w ws => cases h; exact ⟨rfl, rfl, fun _ => rfl⟩
  | index | pcIndex =>
    cases ws with
    | nil => cases h
    | cons w ws =>
      dsimp only [takeEa] at h
      split at h
      next hres =>
        cases h
        exact ⟨rfl, rfl, fun _ => by rw [Ea.extWords, indexWord_decodeIndex hres]; rfl⟩
      next => cases h
  | absLong =>
    match ws, h with
    | hi :: lo :: ws, h =>
      cases h
      exact ⟨rfl, rfl, fun _ => by rw [Ea.extWords, high_append, low_append]; rfl⟩
  | imm =>
    dsimp only [takeEa] at h
    split at h
    next v rest' himm =>
      cases h
      obtain ⟨hlt, hwords⟩ := immWords_of_takeImm himm
      exact ⟨rfl, decide_eq_true hlt, fun hbyte => hwords fun hsz => hbyte ⟨hsz, rfl⟩⟩
    next => cases h

/-! ### The words after an operation word (rules R80, R90) -/

/-- The operands that the words after an operation word of this form can hold. -/
structure OpForm.Fits (f : OpForm) (v : Long) (ea : Ea) : Prop where
  imm    : f.hasImm = true → v.toNat < 2 ^ f.size.bits
  no_imm : f.hasImm = false → v = 0
  mode   : FitsMode f ea
  field  : ∀ m r, f.ea = some (m, r) → ea.field = m.field r ∧ ea.immFits f.size = true
  no_ea  : f.ea = none → ea = .dn 0

/-- The words of the immediate that this form has, if it has one. -/
def OpForm.immPart (f : OpForm) (v : Long) : List Word := if f.hasImm then immWords f.size v else []

/-- The words of the `<ea>` that this form has, if it has one. -/
def OpForm.eaPart (f : OpForm) (ea : Ea) : List Word := if f.ea.isSome then ea.extWords f.size else []

/-- No operand is a Byte immediate, the one operand that two lists of words stand for. -/
def OpForm.ByteImmFree (f : OpForm) : Prop := f.size = .byte → f.hasImm = false ∧ ∀ r, f.ea ≠ some (.imm, r)

theorem OpForm.Fits.takeImm {f : OpForm} {v : Long} {ea : Ea} (h : f.Fits v ea) (rest : List Word) :
    (if f.hasImm then takeImm f.size (f.immPart v ++ rest) else some (0, f.immPart v ++ rest)) = some (v, rest) := by
  cases himm : f.hasImm with
  | true => simp only [immPart, himm, if_true, takeImm_immWords (h.imm himm)]
  | false => simp [immPart, himm, h.no_imm himm]

/-- Operands written after an operation word are read back. -/
theorem OpForm.Fits.finish {f : OpForm} {v : Long} {ea : Ea} (h : f.Fits v ea) (rest : List Word) :
    f.finish (f.immPart v ++ (f.eaPart ea ++ rest)) = .instr (f.build v ea) rest := by
  rw [OpForm.finish, h.takeImm]
  cases hea : f.ea with
  | none => simp [eaPart, hea, h.no_ea hea]
  | some p =>
    obtain ⟨m, r⟩ := p
    obtain ⟨hfield, hfits⟩ := h.field m r hea
    obtain rfl : ea.mode = m := h.mode _ hea
    simp [eaPart, hea, takeEa_extWords hfield hfits]

theorem OpForm.immPart_of_takeImm {f : OpForm} {ws rest : List Word} {v : Long}
    (h : (if f.hasImm then Sys2Proof.takeImm f.size ws else some (0, ws)) = some (v, rest)) :
    (f.hasImm = true → v.toNat < 2 ^ f.size.bits) ∧ (f.hasImm = false → v = 0) ∧
      (f.ByteImmFree → ws = f.immPart v ++ rest) := by
  cases himm : f.hasImm with
  | true =>
    rw [himm, if_pos rfl] at h
    obtain ⟨hlt, hwords⟩ := immWords_of_takeImm h
    refine ⟨fun _ => hlt, fun h => Bool.noConfusion h, fun hfree => ?_⟩
    rw [immPart, himm, if_pos rfl]
    refine hwords fun hbyte => ?_
    rw [(hfree hbyte).1] at himm
    cases himm
  | false =>
    rw [himm, if_neg Bool.false_ne_true] at h
    cases h
    exact ⟨fun h => Bool.noConfusion h, fun _ => rfl, fun _ => by simp [immPart, himm]⟩

/-- Operands that were read fit their form, and but for a Byte immediate they are written back as they were read. -/
theorem OpForm.fits_of_finish {f : OpForm} {ws rest : List Word} {i : Instr} (h : f.finish ws = .instr i rest) :
    ∃ v ea, f.Fits v ea ∧ i = f.build v ea ∧ (f.ByteImmFree → ws = f.immPart v ++ (f.eaPart ea ++ rest)) := by
  unfold OpForm.finish at h
  split at h
  next => cases h
  next v ws' htakeImm =>
    obtain ⟨himm, hno, hwords⟩ := immPart_of_takeImm htakeImm
    split at h
    next hea =>
      cases h
      refine ⟨v, .dn 0, ⟨himm, hno, fun p hp => ?_, fun m r hp => ?_, fun _ => rfl⟩, rfl, fun hfree => ?_⟩
      · exact nomatch hea.symm.trans hp
      · exact nomatch hea.symm.trans hp
      · rw [hwords hfree, eaPart, hea]
        rfl
    next m r hea =>
      split at h
      next ea ws'' htake =>
        cases h
        have htaken := takenFrom_of_takeEa htake
        refine ⟨v, ea, ⟨himm, hno, fun p hp => ?_, fun m' r' hp => ?_, fun hp => ?_⟩, rfl, fun hfree => ?_⟩
        · cases hea.symm.trans hp
          exact mode_of_takeEa htake
        · cases hea.symm.trans hp
          exact ⟨htaken.field, htaken.fits⟩
        · exact nomatch hea.symm.trans hp
        · have hfreeEa : ¬ (f.size = .byte ∧ m = .imm) := by
            rintro ⟨hbyte, rfl⟩
            exact (hfree hbyte).2 r hea
          rw [hwords hfree, htaken.words hfreeEa, eaPart, hea]
          rfl
      next => cases h

end Sys2Proof

/-! ## Operation words and what they build (spec/30_encoding.md rules R82 to R88, R96) -/

namespace Sys2Proof
open Machine

theorem low_of_extended {low : BitVec 6} (h : low.extractLsb' 4 2 = 0#2) :
    low = (if low.getLsbD 3 then 1#3 else 0#3) ++ low.extractLsb' 0 3 := by
  revert low
  decide

theorem low_eq_append (low : BitVec 6) : low.extractLsb' 3 3 ++ low.extractLsb' 0 3 = low := by
  revert low
  decide

/-! ### What an operation word's form builds is coded by the word -/

/-- The instruction has no Byte immediate (rule R92). -/
def Instr.ByteImmFree (i : Instr) : Prop :=
  i.info.size = .byte → i.info.hasImm = false ∧ ∀ cat v, i.info.ea ≠ some (cat, .imm v)

/-- With operands that fit, the form builds well-formed instructions that the word and the operands' words encode. -/
structure OpForm.CodedBy (f : OpForm) (w : Word) : Prop where
  encode : ∀ v ea, f.Fits v ea → encode (f.build v ea) = w :: (f.immPart v ++ f.eaPart ea)
  wf     : ∀ v ea, f.Fits v ea → (f.build v ea).wf = true
  free   : ∀ v ea, f.Fits v ea → (f.build v ea).ByteImmFree → f.ByteImmFree

/-- What the operation word decodes to, if it is in scope, is coded by it. -/
def Coded (w : Word) (o : Option OpForm) : Prop := ∀ f, o = some f → f.CodedBy w

theorem Coded.none {w : Word} : Coded w none := fun _ h => nomatch h

theorem Coded.ite {w : Word} {c : Prop} [Decidable c] {a b : Option OpForm} (ha : c → Coded w a)
    (hb : ¬ c → Coded w b) : Coded w (if c then a else b) := by
  split
  next h => exact ha h
  next h => exact hb h

theorem Coded.ite_bit8 {w : Word} {line : BitVec 4} {x : BitVec 3} {d : Bool} {ss : BitVec 2} {low : BitVec 6}
    {a b : Option OpForm} (ha : d = true → Coded w a) (hb : d = false → Coded w b) :
    Coded w (if (opFields line x d ss low).getLsbD 8 then a else b) := by
  rw [bit8_opFields]
  exact .ite ha fun hd => hb (Bool.eq_false_iff.2 hd)

theorem coded_noEa {w : Word} {i : Instr} (henc : encode i = [w]) (hwf : i.wf = true) : Coded w (noEa i) := by
  rintro f ⟨⟩
  exact ⟨fun _ _ _ => henc, fun _ _ _ => hwf, fun _ _ _ _ h => nomatch h⟩

theorem onEa_eq_some_iff {w : Word} {cat : Category} {sz : Size} {build : Ea → Instr} {f : OpForm} :
    onEa w cat sz build = some f ↔
      ∃ m, decodeMode (w.extractLsb' 3 3) (regField w 0) = some m ∧ cat.allows sz m = true ∧
        f = { size := sz, hasImm := false, ea := some (m, regField w 0), build := fun _ ea => build ea } := by
  unfold onEa
  cases decodeMode (w.extractLsb' 3 3) (regField w 0) with
  | none => exact ⟨fun h => (nomatch h), fun ⟨_, h, _⟩ => (nomatch h)⟩
  | some m =>
    dsimp only
    split
    next hallows =>
      constructor
      · rintro ⟨⟩
        exact ⟨m, rfl, hallows, rfl⟩
      · rintro ⟨_, ⟨⟩, -, rfl⟩
        rfl
    next hallows => exact ⟨fun h => (nomatch h), fun ⟨_, rfl, h, _⟩ => absurd h hallows⟩

theorem immOnEa_eq_some_iff {w : Word} {sz : Size} {build : Long → Ea → Instr} {f : OpForm} :
    immOnEa w sz build = some f ↔
      ∃ m, decodeMode (w.extractLsb' 3 3) (regField w 0) = some m ∧ Category.dataAlterable.allows sz m = true ∧
        f = { size := sz, hasImm := true, ea := some (m, regField w 0), build := build } := by
  have hmap : immOnEa w sz build =
      (onEa w .dataAlterable sz (build 0)).map fun f => { f with hasImm := true, build := build } := by
    unfold immOnEa
    cases onEa w .dataAlterable sz (build 0) <;> rfl
  rw [hmap, Option.map_eq_some_iff]
  constructor
  · rintro ⟨g, hg, rfl⟩
    obtain ⟨m, hm, hallows, rfl⟩ := onEa_eq_some_iff.1 hg
    exact ⟨m, hm, hallows, rfl⟩
  · rintro ⟨m, hm, hallows, rfl⟩
    exact ⟨_, onEa_eq_some_iff.2 ⟨m, hm, hallows, rfl⟩, rfl⟩

/-- An instruction with these columns of the opcode table is well formed exactly when its operands are allowed. -/
theorem wf_iff_of_info {i : Instr} {sz : Size} {hasImm : Bool} {quick : Option Nat} {cat : Category} {ea : Ea}
    (hinfo : i.info = { size := sz, hasImm := hasImm, quick := quick, ea := some (cat, ea) }) :
    i.wf = true ↔
      cat.allows sz ea.mode = true ∧ ea.immFits sz = true ∧ ∀ q, quick = some q → 1 ≤ q ∧ q ≤ 8 := by
  cases quick <;> simp [Instr.wf, hinfo, OperandInfo.eaOk, OperandInfo.quickOk, and_assoc]

theorem exists_imm_of_mode {ea : Ea} (h : ea.mode = .imm) : ∃ v, ea = .imm v := by
  cases ea with
  | imm v => exact ⟨v, rfl⟩
  | _ => cases h

section
variable {line : BitVec 4} {x : BitVec 3} {d : Bool} {ss : BitVec 2} {low : BitVec 6} {cat : Category} {sz : Size}

/-- An `<ea>` that fits has the word's low field as its own. -/
theorem field_eq_low {f : OpForm} {v : Long} {ea : Ea} {m : Mode} (hfits : f.Fits v ea)
    (hea : f.ea = some (m, regField (opFields line x d ss low) 0))
    (hm : decodeMode ((opFields line x d ss low).extractLsb' 3 3) (regField (opFields line x d ss low) 0) = some m) :
    ea.field = low := by
  rw [regField0_opFields, extractLsb'_opFields_of_low (by decide), decodeMode_eq_some_iff] at hm
  obtain ⟨hfield, -⟩ := hfits.field _ _ hea
  rw [hfield, regField0_opFields, hm]

theorem coded_onEa {build : Ea → Instr} {quick : Option Nat}
    (henc : ∀ ea, encode (build ea) = opFields line x d ss ea.field :: ea.extWords sz)
    (hinfo : ∀ ea, (build ea).info = { size := sz, quick := quick, ea := some (cat, ea) })
    (hquick : ∀ q, quick = some q → 1 ≤ q ∧ q ≤ 8) :
    Coded (opFields line x d ss low) (onEa (opFields line x d ss low) cat sz build) := by
  intro f hf
  obtain ⟨m, hm, hallows, rfl⟩ := onEa_eq_some_iff.1 hf
  refine ⟨fun v ea hfits => ?_, fun v ea hfits => ?_, fun v ea hfits hfree hbyte => ⟨rfl, fun r hr => ?_⟩⟩
  · rw [henc, field_eq_low hfits rfl hm]
    rfl
  · have hmode : ea.mode = m := hfits.mode _ rfl
    obtain ⟨-, himm⟩ := hfits.field _ _ rfl
    exact (wf_iff_of_info (hinfo ea)).2 ⟨hmode ▸ hallows, himm, hquick⟩
  · rw [Instr.ByteImmFree, hinfo] at hfree
    cases hr
    obtain ⟨v', rfl⟩ := exists_imm_of_mode (hfits.mode _ rfl)
    exact (hfree hbyte).2 cat v' rfl

theorem coded_onEa_RM {build : Ea → Instr}
    (henc : ∀ ea, encode (build ea) = opRM line x.toFin (BitVec.ofBool d ++ ss) ea :: ea.extWords sz)
    (hinfo : ∀ ea, (build ea).info = { size := sz, ea := some (cat, ea) }) :
    Coded (opFields line x d ss low) (onEa (opFields line x d ss low) cat sz build) :=
  coded_onEa (fun ea => (henc ea).trans (congrArg (· :: _) (opRM_eq_opFields _ _ _ _ _))) hinfo nofun

theorem coded_immOnEa {build : Long → Ea → Instr}
    (henc : ∀ v ea, encode (build v ea) = opFields line x d ss ea.field :: (immWords sz v ++ ea.extWords sz))
    (hinfo : ∀ v ea, (build v ea).info = { size := sz, hasImm := true, ea := some (.dataAlterable, ea) }) :
    Coded (opFields line x d ss low) (immOnEa (opFields line x d ss low) sz build) := by
  intro f hf
  obtain ⟨m, hm, hallows, rfl⟩ := immOnEa_eq_some_iff.1 hf
  refine ⟨fun v ea hfits => ?_, fun v ea hfits => ?_, fun v ea hfits hfree hbyte => ?_⟩
  · rw [henc, field_eq_low hfits rfl hm]
    rfl
  · have hmode : ea.mode = m := hfits.mode _ rfl
    obtain ⟨-, himm⟩ := hfits.field _ _ rfl
    exact (wf_iff_of_info (hinfo v ea)).2 ⟨hmode ▸ hallows, himm, nofun⟩
  · rw [Instr.ByteImmFree, hinfo] at hfree
    exact nomatch (hfree hbyte).1

theorem coded_XR {i : Instr} {ttt : BitVec 3} (hlow : low = ttt ++ low.extractLsb' 0 3) (hwf : i.wf = true)
    (henc : encode i = [opXR line x.toFin ss ttt (low.extractLsb' 0 3).toFin]) :
    Coded (opFields line x true ss low) (noEa i) := by
  refine coded_noEa (henc.trans ?_) hwf
  rw [opXR_eq_opFields]
  exact congrArg (fun low => [opFields line x true ss low]) hlow.symm

end

/-! ### Every operation word -/

/-- The immediate's words hold only the bits that the instruction keeps. -/
theorem immWords_setWidth_byte (v : Long) : immWords .byte ((v.setWidth 8).setWidth 32) = immWords .byte v := by
  simp [immWords]

theorem immWords_setWidth_word (v : Long) : immWords .word ((v.setWidth 16).setWidth 32) = immWords .word v := by
  simp [immWords]

theorem coded_decodeSized (line : BitVec 4) (x : BitVec 3) (d : Bool) (sz : Size) (low : BitVec 6) :
    Coded (opFields line x d (sizeCode sz) low) (decodeSized (opFields line x d (sizeCode sz) low) sz) := by
  refine .ite (fun h => ?negx) fun _ => .ite (fun h => ?clr) fun _ => .ite (fun h => ?neg) fun _ =>
    .ite (fun h => ?tst) fun _ => .ite (fun h => ?subi) fun _ => .ite (fun h => ?addi) fun _ =>
    .ite (fun h => ?cmpi) fun _ =>
    .ite (fun h => .ite_bit8 (fun hd => ?subq) fun hd => ?addq) fun _ =>
    .ite (fun h => .ite_bit8 (fun hd => .ite (fun hx => ?subx) fun _ => ?subDnEa) fun hd => ?subEaDn) fun _ =>
    .ite (fun h => .ite_bit8 (fun hd => .ite (fun hx => ?addx) fun _ => ?addDnEa) fun hd => ?addEaDn) fun _ =>
    .ite (fun h => .ite_bit8 (fun hd => .ite (fun hx => ?cmpm) fun _ => .none) fun hd => ?cmp) fun _ => .none
  case negx | clr | neg | tst =>
    obtain ⟨rfl, rfl, rfl⟩ := page_of_mask h
    exact coded_onEa (quick := none) (fun ea => by cases sz <;> rfl) (fun ea => by cases sz <;> rfl) nofun
  case subi | addi | cmpi =>
    obtain ⟨rfl, rfl, rfl⟩ := page_of_mask h
    refine coded_immOnEa (fun v ea => ?_) (fun v ea => by cases sz <;> rfl)
    cases sz with
    | byte => rw [← immWords_setWidth_byte]; rfl
    | word => rw [← immWords_setWidth_word]; rfl
    | long => rfl
  case subq | addq =>
    obtain rfl := line_of_mask h
    obtain ⟨q, hrange, rfl⟩ := exists_quick x
    rw [decodeQuick_ofNat hrange]
    subst hd
    exact coded_onEa (quick := some q) (fun ea => by cases sz <;> rfl) (fun ea => by cases sz <;> rfl)
      fun _ h => Option.some.inj h ▸ hrange
  case subDnEa | addDnEa | subEaDn | addEaDn | cmp =>
    obtain rfl := line_of_mask h
    rw [regField9_opFields]
    subst hd
    exact coded_onEa_RM (fun ea => by cases sz <;> rfl) (fun ea => by cases sz <;> rfl)
  case subx | addx =>
    obtain rfl := line_of_mask h
    rw [extractLsb'_opFields_of_low (by decide)] at hx
    subst hd
    rw [regField9_opFields, regField0_opFields, bit3_opFields]
    refine coded_XR (low_of_extended hx) ?_ ?_
    · cases low.getLsbD 3 <;> cases sz <;> rfl
    · cases low.getLsbD 3 <;> cases sz <;> rfl
  case cmpm =>
    obtain rfl := line_of_mask h
    rw [extractLsb'_opFields_of_low (by decide)] at hx
    subst hd
    rw [regField9_opFields, regField0_opFields]
    exact coded_XR (hx ▸ (low_eq_append low).symm) (by cases sz <;> rfl) (by cases sz <;> rfl)

theorem coded_decodeUnsized (line : BitVec 4) (x : BitVec 3) (d : Bool) (low : BitVec 6) :
    Coded (opFields line x d 3#2 low) (decodeUnsized (opFields line x d 3#2 low)) := by
  refine .ite (fun h => ?div) fun _ => .ite (fun h => ?mul) fun _ => .ite (fun h => ?suba) fun _ =>
    .ite (fun h => ?adda) fun _ => .ite (fun h => ?cmpa) fun _ => .none
  all_goals
    obtain rfl := line_of_mask h
    simp only [bit8_opFields, regField9_opFields]
    exact coded_onEa_RM (fun ea => by cases d <;> rfl) (fun ea => by cases d <;> rfl)

theorem coded_ext {ss : BitVec 2} {low : BitVec 6} (hss : ss &&& 2#2 = 2#2) (hlow : low &&& 0x38#6 = 0#6) :
    Coded (opFields 4#4 4#3 false ss low) (noEa (Instr.ext (ss.getLsbD 0) (low.extractLsb' 0 3).toFin)) := by
  have hsize : (if ss.getLsbD 0 then 3#2 else 2#2) = ss := by revert ss; decide
  have hreg : 0#3 ++ low.extractLsb' 0 3 = low := by revert low; decide
  refine coded_noEa ?_ (by cases ss.getLsbD 0 <;> rfl)
  rw [encode_ext, hsize]
  exact congrArg (fun low => [opFields 4#4 4#3 false ss low]) hreg

theorem coded_decodeOp (w : Word) : Coded w (decodeOp w) := by
  obtain ⟨line, x, d, ss, low, rfl⟩ := exists_opFields w
  refine .ite (fun h => ?ext) fun _ => .ite (fun h => ?tas) fun _ => ?rest
  case ext =>
    obtain ⟨rfl, rfl, rfl, hss, hlow⟩ := ext_of_mask h
    rw [bit6_opFields, regField0_opFields]
    exact coded_ext hss hlow
  case tas =>
    obtain ⟨rfl, rfl, rfl, rfl⟩ := tas_of_mask h
    exact coded_onEa (quick := none) (fun _ => rfl) (fun _ => rfl) nofun
  case rest =>
    split
    next sz hsz =>
      rw [decodeSize_eq_some_iff, size_opFields] at hsz
      subst hsz
      exact coded_decodeSized line x d sz low
    next hsz =>
      rw [decodeSize_eq_none_iff, size_opFields] at hsz
      subst hsz
      exact coded_decodeUnsized line x d low

/-! ### Decoding reads what encoding writes, and nothing else -/

/-- The parts of what was decoded: the operation word, its form, and operands that fit it. -/
theorem decode_eq_instr {ws rest : List Word} {i : Instr} (h : decode ws = .instr i rest) :
    ∃ w ws' f v ea, ws = w :: ws' ∧ decodeOp w = some f ∧ f.Fits v ea ∧ i = f.build v ea ∧
      ws'.length = f.extCount + rest.length ∧ (f.ByteImmFree → ws' = f.immPart v ++ (f.eaPart ea ++ rest)) := by
  cases ws with
  | nil => cases h
  | cons w ws' =>
    obtain ⟨f, hop, hfin⟩ := decode_cons_eq_instr h
    obtain ⟨v, ea, hfits, hi, hwords⟩ := f.fits_of_finish hfin
    exact ⟨w, ws', f, v, ea, rfl, hop, hfits, hi, length_of_finish hfin, hwords⟩

/-- Settles O5: the operands fit the form that the operation word selects, and the words it asks for are the
instruction's length. -/
theorem decodedIsWellFormed : Obligations.DecodedIsWellFormed := by
  intro ws rest i h
  obtain ⟨w, ws', f, v, ea, rfl, hop, hfits, rfl, hlen, -⟩ := decode_eq_instr h
  refine ⟨(coded_decodeOp w f hop).wf v ea hfits, ?_⟩
  rw [lengthFits_decodeOp w f hop v ea hfits.mode, List.length_cons, hlen]
  omega

/-- Settles O4: every form is coded by the operation word that selects it, and its operands by their words. -/
theorem encodeOfDecode : Obligations.EncodeOfDecode := by
  intro ws rest i h hfree
  obtain ⟨w, ws', f, v, ea, rfl, hop, hfits, rfl, -, hwords⟩ := decode_eq_instr h
  have hcoded := coded_decodeOp w f hop
  rw [hcoded.encode v ea hfits, hwords (hcoded.free v ea hfits hfree), List.cons_append, List.append_assoc]

/-! ### Every well-formed instruction is decoded from an operation word (rules R86, R96) -/

/-- An operation word selects a form that builds the instruction from operands that fit. -/
def Instr.Selected (i : Instr) : Prop := ∃ w f v ea, decodeOp w = some f ∧ f.Fits v ea ∧ f.build v ea = i

/-- A selected instruction is decoded from its encoding: the form is coded by the word, its operands are read back. -/
theorem Instr.Selected.decode_encode {i : Instr} (h : i.Selected) (rest : List Word) :
    decode (encode i ++ rest) = .instr i rest := by
  obtain ⟨w, f, v, ea, hop, hfits, rfl⟩ := h
  rw [(coded_decodeOp w f hop).encode v ea hfits, List.cons_append, List.append_assoc, decode, hop]
  exact hfits.finish rest

section
variable {line : BitVec 4} {x : BitVec 3} {d : Bool} {ss : BitVec 2}
variable {i : Instr} {cat : Category} {sz : Size} {ea : Ea}

theorem decodeMode_opFields_field : decodeMode ((opFields line x d ss ea.field).extractLsb' 3 3)
    (regField (opFields line x d ss ea.field) 0) = some ea.mode := by
  rw [regField0_opFields, extractLsb'_opFields_of_low (by decide), decodeMode_eq_some_iff]
  exact ea.field_eq_mode_field.symm

/-- An operand whose field stands in the operation word fits the form that the word selects. -/
theorem fits_of_field {f : OpForm} {v : Long}
    (hea : f.ea = some (ea.mode, regField (opFields line x d ss ea.field) 0))
    (hfits : ea.immFits f.size = true) (himm : f.hasImm = true → v.toNat < 2 ^ f.size.bits)
    (hno : f.hasImm = false → v = 0) : f.Fits v ea where
  imm := himm
  no_imm := hno
  mode p hp := by cases hea.symm.trans hp; rfl
  field m r hp := by
    cases hea.symm.trans hp
    rw [regField0_opFields]
    exact ⟨ea.field_eq_mode_field, hfits⟩
  no_ea hp := nomatch hea.symm.trans hp

theorem selected_noEa {w : Word} (hop : decodeOp w = noEa i) : i.Selected :=
  ⟨w, _, 0, .dn 0, hop, ⟨nofun, fun _ => rfl, nofun, nofun, fun _ => rfl⟩, rfl⟩

/-- As `selected_noEa`, for words that select the instruction in every size. -/
theorem selected_noEa_sized {w : Size → Word} {build : Size → Instr}
    (hop : ∀ sz, decodeOp (w sz) = noEa (build sz)) (hbuild : build i.info.size = i) : i.Selected :=
  selected_noEa ((hop i.info.size).trans (congrArg noEa hbuild))

/-- Operation words of these fields are decoded as an `<ea>` of the category, on which the instruction is built. -/
def DecodesOnEa (line : BitVec 4) (x : BitVec 3) (d : Bool) (ss : BitVec 2) (cat : Category) (sz : Size)
    (build : Ea → Instr) : Prop :=
  ∀ ea : Ea, cat.allows sz ea.mode = true →
    decodeOp (opFields line x d ss ea.field) = onEa (opFields line x d ss ea.field) cat sz build

/-- The same of operation words of format IM. -/
def DecodesImmOnEa (x : BitVec 3) (sz : Size) (build : Long → Ea → Instr) : Prop :=
  ∀ ea : Ea, decodeOp (opFields 0#4 x false (sizeCode sz) ea.field) =
    immOnEa (opFields 0#4 x false (sizeCode sz) ea.field) sz build

theorem DecodesOnEa.selected {quick : Option Nat} {build : Ea → Instr} (hop : DecodesOnEa line x d ss cat sz build)
    (hwf : i.wf = true) (hinfo : i.info = { size := sz, quick := quick, ea := some (cat, ea) })
    (hbuild : build ea = i) : i.Selected := by
  obtain ⟨hallows, himm, -⟩ := (wf_iff_of_info hinfo).1 hwf
  exact ⟨_, _, 0, ea,
    (hop ea hallows).trans (onEa_eq_some_iff.2 ⟨ea.mode, decodeMode_opFields_field, hallows, rfl⟩),
    fits_of_field rfl himm nofun fun _ => rfl, hbuild⟩

theorem DecodesImmOnEa.selected {v : Long} {build : Long → Ea → Instr} (hop : DecodesImmOnEa x sz build)
    (hwf : i.wf = true) (hinfo : i.info = { size := sz, hasImm := true, ea := some (.dataAlterable, ea) })
    (hv : v.toNat < 2 ^ sz.bits) (hbuild : build v ea = i) : i.Selected := by
  obtain ⟨hallows, himm, -⟩ := (wf_iff_of_info hinfo).1 hwf
  exact ⟨_, _, v, ea,
    (hop ea).trans (immOnEa_eq_some_iff.2 ⟨ea.mode, decodeMode_opFields_field, hallows, rfl⟩),
    fits_of_field rfl himm (fun _ => hv) nofun, hbuild⟩

end

/-! ### The decoder's cases by the fields -/

section
variable {line : BitVec 4} {x : BitVec 3} {d : Bool} {ss : BitVec 2} {low : BitVec 6} {sz : Size}
variable (src dst : Reg)

@[simp] theorem decodeOp_sized (h : ¬ (line = 4#4 ∧ x = 4#3)) :
    decodeOp (opFields line x d (sizeCode sz) low) = decodeSized (opFields line x d (sizeCode sz) low) sz := by
  have hext : ¬ opFields line x d (sizeCode sz) low &&& 0xFFB8#16 = 0x4880#16 := fun hmask => by
    obtain ⟨hline, hx, -, -, -⟩ := ext_of_mask hmask
    exact h ⟨hline, hx⟩
  have htas : ¬ opFields line x d (sizeCode sz) low &&& 0xFFC0#16 = 0x4AC0#16 := fun hmask => by
    obtain ⟨-, -, -, hss⟩ := tas_of_mask hmask
    cases sz <;> exact absurd hss (by decide)
  rw [decodeOp, if_neg hext, if_neg htas, decodeSize_eq_some_iff.2 size_opFields]

@[simp] theorem decodeOp_unsized (h : line ≠ 4#4) :
    decodeOp (opFields line x d 3#2 low) = decodeUnsized (opFields line x d 3#2 low) := by
  have hext : ¬ opFields line x d 3#2 low &&& 0xFFB8#16 = 0x4880#16 := fun hmask => h (ext_of_mask hmask).1
  have htas : ¬ opFields line x d 3#2 low &&& 0xFFC0#16 = 0x4AC0#16 := fun hmask => h (tas_of_mask hmask).1
  rw [decodeOp, if_neg hext, if_neg htas, decodeSize_eq_none_iff.2 size_opFields]

/-- Bits 5..4 of the field are not zero for an operand in memory, which tells it from ADDX and SUBX. -/
theorem not_extended_of_allows {ea : Ea} (h : Category.alterableMemory.allows sz ea.mode = true) :
    ea.field.extractLsb' 4 2 ≠ 0#2 := by
  rw [ea.field_eq_mode_field]
  generalize (ea.field.extractLsb' 0 3).toFin = r
  revert r
  cases hmode : ea.mode with
  | dn | an => cases sz <;> rw [hmode] at h <;> exact absurd h (by decide)
  | _ => decide

theorem decodesOnEa_negx : DecodesOnEa 4#4 0#3 false (sizeCode sz) .dataAlterable sz (Instr.negx sz) :=
  fun _ _ => by simp [decodeSized]

theorem decodesOnEa_clr : DecodesOnEa 4#4 1#3 false (sizeCode sz) .dataAlterable sz (Instr.clr sz) :=
  fun _ _ => by simp [decodeSized]

theorem decodesOnEa_neg : DecodesOnEa 4#4 2#3 false (sizeCode sz) .dataAlterable sz (Instr.neg sz) :=
  fun _ _ => by simp [decodeSized]

theorem decodesOnEa_tst : DecodesOnEa 4#4 5#3 false (sizeCode sz) .dataAlterable sz (Instr.tst sz) :=
  fun _ _ => by simp [decodeSized]

theorem decodesImmOnEa_subi : DecodesImmOnEa 2#3 sz (Instr.subi sz) :=
  fun _ => by simp [decodeSized]

theorem decodesImmOnEa_addi : DecodesImmOnEa 3#3 sz (Instr.addi sz) :=
  fun _ => by simp [decodeSized]

theorem decodesImmOnEa_cmpi : DecodesImmOnEa 6#3 sz (Instr.cmpi sz) :=
  fun _ => by simp [decodeSized]

theorem decodesOnEa_addEaDn :
    DecodesOnEa 0xD#4 x false (sizeCode sz) .all sz (fun ea => Instr.addEaDn sz ea x.toFin) :=
  fun _ _ => by simp [decodeSized]

theorem decodesOnEa_subEaDn :
    DecodesOnEa 0x9#4 x false (sizeCode sz) .all sz (fun ea => Instr.subEaDn sz ea x.toFin) :=
  fun _ _ => by simp [decodeSized]

theorem decodesOnEa_cmp : DecodesOnEa 0xB#4 x false (sizeCode sz) .all sz (fun ea => Instr.cmp sz ea x.toFin) :=
  fun _ _ => by simp [decodeSized]

theorem decodesOnEa_addDnEa : DecodesOnEa 0xD#4 x true (sizeCode sz) .alterableMemory sz (Instr.addDnEa sz x.toFin) :=
  fun _ h => by simp [decodeSized, not_extended_of_allows h]

theorem decodesOnEa_subDnEa : DecodesOnEa 0x9#4 x true (sizeCode sz) .alterableMemory sz (Instr.subDnEa sz x.toFin) :=
  fun _ h => by simp [decodeSized, not_extended_of_allows h]

theorem decodesOnEa_addq {q : Nat} (h : 1 ≤ q ∧ q ≤ 8) :
    DecodesOnEa 5#4 (BitVec.ofNat 3 q) false (sizeCode sz) .alterable sz (Instr.addq sz q) :=
  fun _ _ => by simp [decodeSized, decodeQuick_ofNat h]

theorem decodesOnEa_subq {q : Nat} (h : 1 ≤ q ∧ q ≤ 8) :
    DecodesOnEa 5#4 (BitVec.ofNat 3 q) true (sizeCode sz) .alterable sz (Instr.subq sz q) :=
  fun _ _ => by simp [decodeSized, decodeQuick_ofNat h]

theorem decodesOnEa_adda :
    DecodesOnEa 0xD#4 x d 3#2 .all (if d then .long else .word) (fun ea => Instr.adda d ea x.toFin) :=
  fun _ _ => by simp [decodeUnsized]

theorem decodesOnEa_suba :
    DecodesOnEa 0x9#4 x d 3#2 .all (if d then .long else .word) (fun ea => Instr.suba d ea x.toFin) :=
  fun _ _ => by simp [decodeUnsized]

theorem decodesOnEa_cmpa :
    DecodesOnEa 0xB#4 x d 3#2 .all (if d then .long else .word) (fun ea => Instr.cmpa d ea x.toFin) :=
  fun _ _ => by simp [decodeUnsized]

theorem decodesOnEa_divs : DecodesOnEa 0x8#4 x true 3#2 .data .word (Instr.divs · x.toFin) :=
  fun _ _ => by simp [decodeUnsized]

theorem decodesOnEa_divu : DecodesOnEa 0x8#4 x false 3#2 .data .word (Instr.divu · x.toFin) :=
  fun _ _ => by simp [decodeUnsized]

theorem decodesOnEa_muls : DecodesOnEa 0xC#4 x true 3#2 .data .word (Instr.muls · x.toFin) :=
  fun _ _ => by simp [decodeUnsized]

theorem decodesOnEa_mulu : DecodesOnEa 0xC#4 x false 3#2 .data .word (Instr.mulu · x.toFin) :=
  fun _ _ => by simp [decodeUnsized]

theorem decodesOnEa_tas : DecodesOnEa 4#4 5#3 false 3#2 .dataAlterable .byte .tas :=
  fun _ _ => by simp [decodeOp]

@[simp] theorem regField0_append_regBits (ttt : BitVec 3) (y : Reg) :
    regField (opFields line x d ss (ttt ++ regBits y)) 0 = y :=
  (regField0_opFields ..).trans (congrArg BitVec.toFin BitVec.extractLsb'_append_eq_right)

@[simp] theorem mode_append_regBits (ttt : BitVec 3) (y : Reg) :
    BitVec.extractLsb' (n := 6) 3 3 (ttt ++ regBits y) = ttt :=
  BitVec.extractLsb'_append_eq_left

/-- Bits 5..4 are zero and bit 3 tells the two forms of ADDX and SUBX apart (rule R88). -/
theorem extended_reg (y : Reg) :
    BitVec.extractLsb' (n := 6) 4 2 (0#3 ++ regBits y) = 0#2 ∧ (0#3 ++ regBits y : BitVec 6)[3] = false := by
  revert y
  decide

theorem extended_mem (y : Reg) :
    BitVec.extractLsb' (n := 6) 4 2 (1#3 ++ regBits y) = 0#2 ∧ (1#3 ++ regBits y : BitVec 6)[3] = true := by
  revert y
  decide

theorem decodeOp_addxReg (sz : Size) :
    decodeOp (opFields 0xD#4 (regBits dst) true (sizeCode sz) (0#3 ++ regBits src)) =
      noEa (Instr.addxReg sz src dst) := by
  simp [decodeSized, extended_reg]

theorem decodeOp_addxMem (sz : Size) :
    decodeOp (opFields 0xD#4 (regBits dst) true (sizeCode sz) (1#3 ++ regBits src)) =
      noEa (Instr.addxMem sz src dst) := by
  simp [decodeSized, extended_mem]

theorem decodeOp_subxReg (sz : Size) :
    decodeOp (opFields 0x9#4 (regBits dst) true (sizeCode sz) (0#3 ++ regBits src)) =
      noEa (Instr.subxReg sz src dst) := by
  simp [decodeSized, extended_reg]

theorem decodeOp_subxMem (sz : Size) :
    decodeOp (opFields 0x9#4 (regBits dst) true (sizeCode sz) (1#3 ++ regBits src)) =
      noEa (Instr.subxMem sz src dst) := by
  simp [decodeSized, extended_mem]

theorem decodeOp_cmpm (sz : Size) :
    decodeOp (opFields 0xB#4 (regBits dst) true (sizeCode sz) (1#3 ++ regBits src)) =
      noEa (Instr.cmpm sz src dst) := by
  simp [decodeSized]

theorem decodeOp_ext (long : Bool) :
    decodeOp (opFields 4#4 4#3 false (if long then 3#2 else 2#2) (0#3 ++ regBits dst)) =
      noEa (Instr.ext long dst) := by
  have hlow : (0#3 ++ regBits dst : BitVec 6) &&& 0x38#6 = 0#6 := by revert dst; decide
  have hmask : opFields 4#4 4#3 false (if long then 3#2 else 2#2) (0#3 ++ regBits dst) &&& 0xFFB8#16 = 0x4880#16 :=
    opFields_and_eq_iff.2 ⟨rfl, rfl, rfl, by cases long <;> rfl, hlow⟩
  rw [decodeOp, if_pos hmask, regField0_append_regBits, bit6_opFields]
  cases long <;> rfl

end

/-! ### Every instruction -/

/-- A well-formed instruction's operation word is that of its form in the opcode table. -/
theorem selected_of_wf {i : Instr} (h : i.wf = true) : i.Selected := by
  cases i with
  | negB | negW | negL => exact decodesOnEa_neg.selected h rfl rfl
  | negxB | negxW | negxL => exact decodesOnEa_negx.selected h rfl rfl
  | clrB | clrW | clrL => exact decodesOnEa_clr.selected h rfl rfl
  | tstB | tstW | tstL => exact decodesOnEa_tst.selected h rfl rfl
  | addEaDnB _ r | addEaDnW _ r | addEaDnL _ r => exact decodesOnEa_addEaDn.selected (x := regBits r) h rfl rfl
  | addDnEaB r | addDnEaW r | addDnEaL r => exact decodesOnEa_addDnEa.selected (x := regBits r) h rfl rfl
  | subEaDnB _ r | subEaDnW _ r | subEaDnL _ r => exact decodesOnEa_subEaDn.selected (x := regBits r) h rfl rfl
  | subDnEaB r | subDnEaW r | subDnEaL r => exact decodesOnEa_subDnEa.selected (x := regBits r) h rfl rfl
  | cmpB _ r | cmpW _ r | cmpL _ r => exact decodesOnEa_cmp.selected (x := regBits r) h rfl rfl
  | addaW _ r => exact decodesOnEa_adda.selected (d := false) (x := regBits r) h rfl rfl
  | addaL _ r => exact decodesOnEa_adda.selected (d := true) (x := regBits r) h rfl rfl
  | subaW _ r => exact decodesOnEa_suba.selected (d := false) (x := regBits r) h rfl rfl
  | subaL _ r => exact decodesOnEa_suba.selected (d := true) (x := regBits r) h rfl rfl
  | cmpaW _ r => exact decodesOnEa_cmpa.selected (d := false) (x := regBits r) h rfl rfl
  | cmpaL _ r => exact decodesOnEa_cmpa.selected (d := true) (x := regBits r) h rfl rfl
  | divs _ r => exact decodesOnEa_divs.selected (x := regBits r) h rfl rfl
  | divu _ r => exact decodesOnEa_divu.selected (x := regBits r) h rfl rfl
  | muls _ r => exact decodesOnEa_muls.selected (x := regBits r) h rfl rfl
  | mulu _ r => exact decodesOnEa_mulu.selected (x := regBits r) h rfl rfl
  | tas => exact decodesOnEa_tas.selected h rfl rfl
  | addqB | addqW | addqL =>
    obtain ⟨-, -, hq⟩ := (wf_iff_of_info rfl).1 h
    exact (decodesOnEa_addq (hq _ rfl)).selected h rfl rfl
  | subqB | subqW | subqL =>
    obtain ⟨-, -, hq⟩ := (wf_iff_of_info rfl).1 h
    exact (decodesOnEa_subq (hq _ rfl)).selected h rfl rfl
  | addxRegB | addxRegW | addxRegL => exact selected_noEa_sized (decodeOp_addxReg _ _) rfl
  | addxMemB | addxMemW | addxMemL => exact selected_noEa_sized (decodeOp_addxMem _ _) rfl
  | subxRegB | subxRegW | subxRegL => exact selected_noEa_sized (decodeOp_subxReg _ _) rfl
  | subxMemB | subxMemW | subxMemL => exact selected_noEa_sized (decodeOp_subxMem _ _) rfl
  | cmpmB | cmpmW | cmpmL => exact selected_noEa_sized (decodeOp_cmpm _ _) rfl
  | extW => exact selected_noEa (decodeOp_ext _ false)
  | extL => exact selected_noEa (decodeOp_ext _ true)
  | addiB v | addiW v | addiL v =>
    exact decodesImmOnEa_addi.selected h rfl (toNat_setWidth_lt v (by decide)) (by simp [Instr.addi])
  | subiB v | subiW v | subiL v =>
    exact decodesImmOnEa_subi.selected h rfl (toNat_setWidth_lt v (by decide)) (by simp [Instr.subi])
  | cmpiB v | cmpiW v | cmpiL v =>
    exact decodesImmOnEa_cmpi.selected h rfl (toNat_setWidth_lt v (by decide)) (by simp [Instr.cmpi])

/-- Settles O3: the operation word selects the instruction's form, which is coded by it, and the operands are read
back from their words. -/
theorem decodeOfEncode : Obligations.DecodeOfEncode :=
  fun _ rest h => (selected_of_wf h).decode_encode rest

end Sys2Proof

/-! ## Lengths (spec/30_encoding.md rule R81) and words written out (rules R86, R90, R91) -/

namespace Sys2Proof
open Machine

@[simp] theorem length_bytesOfWords (ws : List Word) : (bytesOfWords ws).length = 2 * ws.length := by
  induction ws with
  | nil => rfl
  | cons w ws ih => simp only [bytesOfWords, List.length_cons, ih]; omega

theorem length_immWords (sz : Size) (v : Long) : 2 * (immWords sz v).length = immBytes sz := by cases sz <;> rfl

theorem length_extWords (sz : Size) (ea : Ea) : 2 * (ea.extWords sz).length = ea.extBytes sz := by
  cases ea with
  | imm v => exact length_immWords sz v
  | _ => rfl

theorem length_encodeBytes_ea {i : Instr} {w : Word} {sz : Size} {quick : Option Nat} {cat : Category} {ea : Ea}
    (henc : encode i = w :: ea.extWords sz) (hinfo : i.info = { size := sz, quick := quick, ea := some (cat, ea) }) :
    (encodeBytes i).length = i.length := by
  simp only [encodeBytes, length_bytesOfWords, henc, List.length_cons, Instr.length, hinfo, ← length_extWords]
  exact Nat.add_comm _ _

theorem length_encodeBytes_imm {i : Instr} {w : Word} {sz : Size} {v : Long} {cat : Category} {ea : Ea}
    (henc : encode i = w :: immWords sz v ++ ea.extWords sz)
    (hinfo : i.info = { size := sz, hasImm := true, ea := some (cat, ea) }) :
    (encodeBytes i).length = i.length := by
  simp only [encodeBytes, length_bytesOfWords, henc, List.cons_append, List.length_cons, List.length_append,
    Instr.length, hinfo, ← length_extWords, ← length_immWords sz v, if_true]
  omega

/-- Settles O6: an operation word, then the words of the operands that the instruction has. -/
theorem encodedLength : Obligations.EncodedLength := by
  intro i
  cases i with
  | addxRegB | addxRegW | addxRegL | addxMemB | addxMemW | addxMemL | subxRegB | subxRegW | subxRegL | subxMemB
  | subxMemW | subxMemL | cmpmB | cmpmW | cmpmL | extW | extL => rfl
  | addiB | addiW | addiL | subiB | subiW | subiL | cmpiB | cmpiW | cmpiL => exact length_encodeBytes_imm rfl rfl
  | _ => exact length_encodeBytes_ea rfl rfl

/-- Settles O2 by running the decoder on the nine lists of words. -/
theorem wordsDecode : Obligations.WordsDecode := by
  unfold Obligations.WordsDecode
  decide

end Sys2Proof

/-! ## A loaded instruction is the one that runs (spec/20_memory.md rule R41, spec/30_encoding.md rule R80) -/

namespace Sys2Proof.Machine

/-! ### Bytes in memory -/

theorem toNat_add_ofNat {addr : Long} {j : Nat} (h : addr.toNat + j < 2 ^ 32) :
    (addr + BitVec.ofNat 32 j).toNat = addr.toNat + j := by
  rw [BitVec.toNat_add, BitVec.toNat_ofNat]
  omega

theorem read_placeBytes_below {m : Memory} {addr : Long} {bs : List Byte} {a : Nat}
    (hfit : addr.toNat + bs.length < 2 ^ 32) (ha : a < addr.toNat) :
    Memory.read (placeBytes m addr bs) a = Memory.read m a := by
  induction bs generalizing m addr with
  | nil => rfl
  | cons b bs ih =>
    rw [List.length_cons] at hfit
    have hnext : (addr + 1).toNat = addr.toNat + 1 := toNat_add_ofNat (j := 1) (by omega)
    rw [placeBytes, ih (by omega) (by omega), read_write, if_neg (by omega)]

/-- The bytes that were placed are read back in their order. -/
theorem read_placeBytes {m : Memory} {addr : Long} {bs : List Byte} (hfit : addr.toNat + bs.length < 2 ^ 32) {j : Nat}
    {b : Byte} (hj : bs[j]? = some b) : Memory.read (placeBytes m addr bs) (addr.toNat + j) = b := by
  induction bs generalizing m addr j with
  | nil => cases hj
  | cons b' bs ih =>
    rw [List.length_cons] at hfit
    have hnext : (addr + 1).toNat = addr.toNat + 1 := toNat_add_ofNat (j := 1) (by omega)
    cases j with
    | zero =>
      cases hj
      rw [placeBytes, read_placeBytes_below (by omega) (by omega), Nat.add_zero, read_write, if_pos rfl]
    | succ j =>
      rw [placeBytes, ← ih (m := Memory.write m addr.toNat b') (addr := addr + 1) (by omega) hj, hnext,
        Nat.add_assoc, Nat.add_comm 1]

/-- The two bytes of a word, the high one first (rule R41). -/
theorem getElem?_bytesOfWords {ws : List Word} {k : Nat} (hk : k < ws.length) :
    (bytesOfWords ws)[2 * k]? = some (ws[k].extractLsb' 8 8) ∧
      (bytesOfWords ws)[2 * k + 1]? = some (ws[k].extractLsb' 0 8) := by
  induction ws generalizing k with
  | nil => exact absurd hk (Nat.not_lt_zero k)
  | cons w ws ih =>
    cases k with
    | zero => exact ⟨rfl, rfl⟩
    | succ k => exact ih (Nat.lt_of_succ_lt_succ hk)

theorem bytes_append (w : Word) : (w.extractLsb' 8 8 ++ w.extractLsb' 0 8 : Word) = w :=
  (BitVec.extractLsb'_append_extractLsb'_eq_extractLsb' rfl).trans BitVec.extractLsb'_eq_self

/-! ### The loaded program -/

section
variable {s : State} {bs : List Byte}

theorem byteAt_loadProgram (hfit : s.pc.toNat + bs.length < 2 ^ 32) {j : Nat} {b : Byte} (hj : bs[j]? = some b) :
    (loadProgram s bs).byteAt (s.pc + BitVec.ofNat 32 j) = b := by
  obtain ⟨hlt, -⟩ := List.getElem?_eq_some_iff.1 hj
  rw [State.byteAt, toNat_add_ofNat (by omega)]
  exact read_placeBytes hfit hj

/-- The words of the program are at the addresses where they are fetched. -/
theorem wordAt_loadProgram {ws : List Word} (hfit : s.pc.toNat + (bytesOfWords ws).length < 2 ^ 32) {k : Nat}
    (hk : k < ws.length) : wordAt (loadProgram s (bytesOfWords ws)) k = ws[k] := by
  obtain ⟨hhigh, hlow⟩ := getElem?_bytesOfWords hk
  have haddr : fetchAddr (loadProgram s (bytesOfWords ws)) k = s.pc + BitVec.ofNat 32 (2 * k) := rfl
  have hnext : s.pc + BitVec.ofNat 32 (2 * k) + 1 = s.pc + BitVec.ofNat 32 (2 * k + 1) := by
    rw [BitVec.ofNat_add, ← BitVec.add_assoc]
    rfl
  rw [wordAt, valueAt_word, haddr, hnext, byteAt_loadProgram hfit hhigh, byteAt_loadProgram hfit hlow]
  exact bytes_append _

theorem inText_loadProgram (hfit : s.pc.toNat + bs.length < 2 ^ 32) {j : Nat} (hj : j < bs.length) :
    (loadProgram s bs).layout.inText (s.pc + BitVec.ofNat 32 j) = true := by
  rw [Layout.inText, toNat_add_ofNat (by omega)]
  simp [loadProgram, hj]

theorem allBytes_eq_true_iff (p : Long → Bool) (addr : Long) (k : Nat) :
    allBytes p addr k = true ↔ ∀ j < k, p (addr + BitVec.ofNat 32 j) = true := by
  rw [← Bool.not_eq_false, allBytes_eq_false_iff]
  simp

theorem admits_loadProgram (hfit : s.pc.toNat + bs.length < 2 ^ 32) {j : Nat} (hj : j < bs.length) :
    (loadProgram s bs).layout.admits (s.pc + BitVec.ofNat 32 j) = true := by
  by_cases hmap : allBytes s.layout.admits s.pc bs.length = true
  · have hadmits := (allBytes_eq_true_iff _ _ _).1 hmap j hj
    simpa only [Layout.admits, loadProgram, hmap, if_true] using hadmits
  · simp only [Layout.admits, loadProgram, hmap, toNat_add_ofNat (addr := s.pc) (j := j) (by omega)]
    simp [hj]

/-- A predicate that holds of the program's bytes holds of the two bytes of each of its words. -/
theorem allBytes_word {p : Long → Bool} {pc : Long} {n k : Nat} (hk : 2 * k + 1 < n)
    (h : ∀ j < n, p (pc + BitVec.ofNat 32 j) = true) : allBytes p (pc + BitVec.ofNat 32 (2 * k)) 2 = true := by
  rw [allBytes_eq_true_iff]
  intro j hj
  rw [BitVec.add_assoc, ← BitVec.ofNat_add]
  exact h _ (by omega)

end

/-- Settles O54: the loaded words are fetchable, and decoding what was encoded gives the instruction back. -/
theorem loadedInstructionRuns : Obligations.LoadedInstructionRuns := by
  intro s i hwf heven hfit
  have hdec : decode (encode i) = .instr i [] := by simpa using decodeOfEncode i [] hwf
  rw [← encodedLength i] at hfit
  cases henc : encode i with
  | nil => rw [henc] at hdec; cases hdec
  | cons w ws =>
    rw [henc] at hdec
    rw [encodeBytes, henc] at hfit ⊢
    have hlen : (bytesOfWords (w :: ws)).length = 2 * ws.length + 2 := length_bytesOfWords _
    refine stepRunsDecoded _ i w ws hdec ?_ heven fun k hk => ⟨?_, ?_, ?_⟩
    · exact (Nat.lt_add_of_pos_right (by omega)).ne
    · exact allBytes_word (by omega) fun j => inText_loadProgram hfit
    · exact allBytes_word (by omega) fun j => admits_loadProgram hfit
    · rw [List.getElem?_eq_getElem (Nat.lt_succ_of_le hk)]
      exact congrArg some (wordAt_loadProgram hfit (Nat.lt_succ_of_le hk))

end Sys2Proof.Machine

/-! ## The assembler level (spec/30_encoding.md rules R98, R110 to R112) -/

namespace Sys2Proof.Machine

/-! ### Whatever is assembled -/

theorem assemble_of_emit {m : Mnemonic} {sz : Size} {operands : List Ea} {i : Instr}
    (hsz : m.sizes.contains sz = true) (h : emit m sz operands = some i) :
    assemble m (some sz) operands = if i.wf then some i else none := by
  simp only [assemble, Option.getD_some, hsz, h, if_true]

theorem assemble_of_emit_none {m : Mnemonic} {sz : Size} {operands : List Ea} (h : emit m sz operands = none) :
    assemble m (some sz) operands = none := by
  simp only [assemble, Option.getD_some, h, ite_self]

theorem emit_of_assemble {m : Mnemonic} {suffix : Option Size} {operands : List Ea} {i : Instr}
    (h : assemble m suffix operands = some i) :
    m.sizes.contains (suffix.getD m.defaultSize) = true ∧ emit m (suffix.getD m.defaultSize) operands = some i ∧
      i.wf = true := by
  unfold assemble at h
  dsimp only at h
  split at h
  next hsz =>
    split at h
    next j hj =>
      split at h
      next hwf => cases h; exact ⟨hsz, hj, hwf⟩
      next => cases h
    next => cases h
  next => cases h

theorem addressForm_eq_some {sz : Size} {make : Bool → Instr} {i : Instr} (h : addressForm sz make = some i) :
    ∃ long : Bool, sz = (if long then .long else .word) ∧ i = make long := by
  cases sz with
  | byte => cases h
  | word => cases h; exact ⟨false, rfl, rfl⟩
  | long => cases h; exact ⟨true, rfl, rfl⟩

theorem immediateForm_eq_some {sz : Size} {v : Long} {i j : Instr} (h : immediateForm sz v i = some j) : i = j := by
  unfold immediateForm at h
  split at h
  next => exact Option.some.inj h
  next => cases h

/-- The mnemonics that a written one can be assembled as (rule R111). -/
def writtenAs (m k : Mnemonic) : Bool :=
  k == m || (m == .add && [Mnemonic.adda, .addi].contains k) || (m == .sub && [Mnemonic.suba, .subi].contains k) ||
    (m == .cmp && [Mnemonic.cmpa, .cmpi, .cmpm].contains k)

/-- What is emitted has the size that is written, and the mnemonic that is written or one that it stands for.  The
alternatives of `emit` are the address forms, the immediate forms, those of one size, and those of every size. -/
theorem size_and_mnemonic_of_emit {m : Mnemonic} {sz : Size} {operands : List Ea} {i : Instr}
    (hsz : m.sizes.contains sz = true) (h : emit m sz operands = some i) :
    i.info.size = sz ∧ writtenAs m (mnemonicOf i) = true := by
  unfold emit at h
  split at h
  case h_2 | h_6 | h_10 | h_13 | h_14 | h_15 | h_30 =>
    obtain ⟨long, rfl, rfl⟩ := addressForm_eq_some h
    cases long <;> exact ⟨rfl, rfl⟩
  case h_3 | h_7 | h_11 | h_16 | h_17 | h_18 =>
    obtain rfl := immediateForm_eq_some h
    cases sz <;> exact ⟨rfl, rfl⟩
  case h_26 | h_27 | h_28 | h_29 | h_35 =>
    obtain rfl := List.mem_singleton.1 (List.contains_iff_mem.1 hsz)
    cases h
    exact ⟨rfl, rfl⟩
  case h_36 => cases h
  all_goals
    cases h
    cases sz <;> exact ⟨rfl, rfl⟩

/-- Settles O59: `assemble` accepts the sizes of the mnemonic, of the divides and multiplies Word alone. -/
theorem defaultSize : Obligations.DefaultSize := by
  intro m operands
  refine ⟨by cases m <;> rfl, fun sz i h => ?_⟩
  obtain ⟨hsz, hemit, hwf⟩ := emit_of_assemble h
  obtain ⟨hsize, -⟩ := size_and_mnemonic_of_emit hsz hemit
  refine ⟨hwf, hsize, fun hm => ?_⟩
  have hsizes : m.sizes = [.word] := by
    simp only [List.mem_cons, List.not_mem_nil, or_false] at hm
    rcases hm with rfl | rfl | rfl | rfl <;> rfl
  rw [hsizes] at hsz
  exact List.mem_singleton.1 (List.contains_iff_mem.1 hsz)

/-! ### ADD, SUB and CMP -/

theorem generic_cases {m : Mnemonic} (hm : m ∈ [Mnemonic.add, .sub, .cmp]) :
    m = .add ∨ m = .sub ∨ m = .cmp := by
  simpa using hm

theorem contains_sizes_of_generic {m : Mnemonic} (hm : m ∈ [Mnemonic.add, .sub, .cmp]) (sz : Size) :
    m.sizes.contains sz = true := by
  obtain rfl | rfl | rfl := generic_cases hm <;> cases sz <;> rfl

section
variable {src dst : Ea} (hdn : ∀ r, dst ≠ .dn r) (han : ∀ r, dst ≠ .an r)
include hdn han

theorem emit_immediate (sz : Size) (v : Long) :
    emit .add sz [.imm v, dst] = immediateForm sz v (Instr.addi sz v dst) ∧
      emit .sub sz [.imm v, dst] = immediateForm sz v (Instr.subi sz v dst) ∧
      emit .cmp sz [.imm v, dst] = immediateForm sz v (Instr.cmpi sz v dst) := by
  cases dst with
  | dn r => exact absurd rfl (hdn r)
  | an r => exact absurd rfl (han r)
  | _ => exact ⟨rfl, rfl, rfl⟩

theorem emit_from_dn (sz : Size) (q : Reg) :
    emit .add sz [.dn q, dst] = some (Instr.addDnEa sz q dst) ∧
      emit .sub sz [.dn q, dst] = some (Instr.subDnEa sz q dst) := by
  cases dst with
  | dn r => exact absurd rfl (hdn r)
  | an r => exact absurd rfl (han r)
  | _ => exact ⟨rfl, rfl⟩

/-- Operands that none of the alternatives for ADD, SUB and CMP admits, in the order of `emit`: to Dn, to An, an
immediate, from Dn (ADD and SUB), two postincrements (CMP). -/
theorem emit_otherwise {m : Mnemonic} (hm : m ∈ [Mnemonic.add, .sub, .cmp]) (sz : Size)
    (himm : ∀ v, src ≠ .imm v) (hsrc : ∀ q, src = .dn q → m = .cmp)
    (hpost : m = .cmp → ∀ y x, src = .postInc y → dst ≠ .postInc x) :
    emit m sz [src, dst] = none := by
  unfold emit
  split
  case h_1 heq | h_5 heq | h_9 heq => cases heq; exact absurd rfl (hdn _)
  case h_2 heq | h_6 heq | h_10 heq => cases heq; exact absurd rfl (han _)
  case h_3 heq | h_7 heq | h_11 heq => cases heq; exact absurd rfl (himm _)
  case h_4 heq | h_8 heq => cases heq; exact nomatch hsrc _ rfl
  case h_12 heq => cases heq; exact absurd rfl (hpost rfl _ _ rfl)
  case h_36 => rfl
  all_goals exact absurd hm (by decide)

end

theorem emit_eq_none_of_length {m : Mnemonic} (hm : m ∈ [Mnemonic.add, .sub, .cmp]) (sz : Size) {operands : List Ea}
    (hlen : operands.length ≠ 2) : emit m sz operands = none := by
  unfold emit
  split
  case h_1 | h_2 | h_3 | h_4 | h_5 | h_6 | h_7 | h_8 | h_9 | h_10 | h_11 | h_12 => exact absurd rfl hlen
  case h_36 => rfl
  all_goals exact absurd hm (by decide)

/-- Settles O58, clause by clause from what `emit` answers, and the last one from the size and mnemonic of whatever it
emits. -/
theorem genericMnemonics : Obligations.GenericMnemonics := by
  dsimp only [Obligations.GenericMnemonics]
  have hadds := contains_sizes_of_generic (m := .add) (by decide)
  have hsubs := contains_sizes_of_generic (m := .sub) (by decide)
  have hcmps := contains_sizes_of_generic (m := .cmp) (by decide)
  refine ⟨fun long src r => ?address, fun sz v dst hv hdn han => ?immediate, fun m hm src r => ?byte,
    fun m hm sz v dst hv hdn han => ?large, fun sz src r => ?toDn, fun sz q dst hdn han => ?fromDn,
    fun sz q r => ?dnDn, fun sz y x => ?cmpm, fun m hm sz src dst hdn han himm hsrc hpost => ?otherwise,
    fun m hm sz operands hlen => ?length, fun m suffix operands i h => ?mnemonic⟩
  case address => cases long <;> exact ⟨rfl, rfl, rfl⟩
  case immediate =>
    obtain ⟨hadd, hsub, hcmp⟩ := emit_immediate hdn han sz v
    rw [immediateForm, if_pos hv] at hadd hsub hcmp
    exact ⟨assemble_of_emit (hadds sz) hadd, assemble_of_emit (hsubs sz) hsub, assemble_of_emit (hcmps sz) hcmp⟩
  case byte => obtain rfl | rfl | rfl := generic_cases hm <;> rfl
  case large =>
    obtain ⟨hadd, hsub, hcmp⟩ := emit_immediate hdn han sz v
    rw [immediateForm, if_neg (Nat.not_lt.2 hv)] at hadd hsub hcmp
    obtain rfl | rfl | rfl := generic_cases hm
    · exact assemble_of_emit_none hadd
    · exact assemble_of_emit_none hsub
    · exact assemble_of_emit_none hcmp
  case toDn => cases sz <;> exact ⟨rfl, rfl, rfl⟩
  case fromDn =>
    obtain ⟨hadd, hsub⟩ := emit_from_dn hdn han sz q
    exact ⟨assemble_of_emit (hadds sz) hadd, assemble_of_emit (hsubs sz) hsub⟩
  case dnDn => cases sz <;> rfl
  case cmpm => cases sz <;> rfl
  case otherwise => exact assemble_of_emit_none (emit_otherwise hdn han hm sz himm hsrc hpost)
  case length => exact assemble_of_emit_none (emit_eq_none_of_length hm sz hlen)
  case mnemonic =>
    obtain ⟨hsz, hemit, -⟩ := emit_of_assemble h
    obtain ⟨-, hwritten⟩ := size_and_mnemonic_of_emit hsz hemit
    simpa [writtenAs, or_assoc] using hwritten

end Sys2Proof.Machine

/-! ## Arithmetic in two parts (spec/00_scope.md rules R9, R10, spec/40_add.md rule R128) -/

namespace Sys2Proof.Machine

/-! ### Numbers in two parts: a high integer and a low word of `n` bits -/

section
variable {m n : Nat}

/-- The low part never decides how a number compares with a multiple of `2 ^ n`. -/
theorem mul_add_toNat_lt_mul_iff (hi k : Int) (lo : BitVec n) : hi * 2 ^ n + lo.toNat < k * 2 ^ n ↔ hi < k := by
  have hpow : (0 : Int) < 2 ^ n := by positivity
  have hlo : (lo.toNat : Int) < 2 ^ n := by exact_mod_cast lo.isLt
  constructor
  · intro h
    exact lt_of_mul_lt_mul_right (by omega) hpow.le
  · intro h
    have hnext : (hi + 1) * 2 ^ n ≤ k * 2 ^ n := mul_le_mul_of_nonneg_right h hpow.le
    rw [add_mul, one_mul] at hnext
    omega

theorem cast_toNat_append (hi : BitVec m) (lo : BitVec n) :
    ((hi ++ lo).toNat : Int) = hi.toNat * 2 ^ n + lo.toNat := by
  rw [toNat_append_eq_mul_add]
  norm_cast

theorem ofInt_mul_add_toNat (hi : Int) (lo : BitVec n) :
    BitVec.ofInt (m + n) (hi * 2 ^ n + lo.toNat) = BitVec.ofInt m hi ++ lo := by
  have hpow : (0 : Int) < 2 ^ (m + n) := by positivity
  have hdivMod : hi % 2 ^ m + 2 ^ m * (hi / 2 ^ m) = hi := Int.emod_add_mul_ediv hi _
  have hnonneg : 0 ≤ hi % 2 ^ m := Int.emod_nonneg hi (by positivity)
  have hlt : hi % 2 ^ m * 2 ^ n + lo.toNat < 2 ^ m * 2 ^ n :=
    (mul_add_toNat_lt_mul_iff _ _ lo).2 (Int.emod_lt_of_pos hi (by positivity))
  have hmod : (hi * 2 ^ n + lo.toNat) % 2 ^ (m + n) = hi % 2 ^ m * 2 ^ n + lo.toNat :=
    ((Int.ediv_emod_unique (q := hi / 2 ^ m) hpow).2
      ⟨by linear_combination 2 ^ n * hdivMod, by positivity, by rwa [pow_add]⟩).2
  apply BitVec.eq_of_toNat_eq
  rw [← Int.natCast_inj, cast_toNat_append, BitVec.toNat_ofInt, BitVec.toNat_ofInt]
  push_cast
  rw [hmod, Int.toNat_of_nonneg (by positivity), Int.toNat_of_nonneg hnonneg]

theorem outsideSigned_mul_add_toNat (hm : 0 < m) (hi : Int) (lo : BitVec n) :
    outsideSigned (m + n) (hi * 2 ^ n + lo.toNat) = outsideSigned m hi := by
  have hhalf : (2 : Int) ^ (m + n - 1) = 2 ^ (m - 1) * 2 ^ n := by rw [← pow_add, Nat.sub_add_comm hm]
  have hlow := mul_add_toNat_lt_mul_iff hi (-(2 ^ (m - 1))) lo
  have hhigh := mul_add_toNat_lt_mul_iff hi (2 ^ (m - 1)) lo
  simp only [outsideSigned, hhalf, ← neg_mul, hlow, ← not_lt, hhigh]

theorem toInt_append_eq_mul_add (hm : 0 < m) (hi : BitVec m) (lo : BitVec n) :
    (hi ++ lo).toInt = hi.toInt * 2 ^ n + lo.toNat := by
  rw [BitVec.toInt_append, if_neg (by simpa using hm.ne'), mul_comm]

/-! ### The two primitives on the low part: carry and borrow count whole ranges -/

theorem addN_carry_mul_add_value (d s : BitVec n) (xin : Bool) :
    (addN d s xin).carry.toNat * 2 ^ n + (addN d s xin).value.toNat = d.toNat + s.toNat + xin.toNat := by
  have hcarry : (addN d s xin).carry = decide (2 ^ n ≤ d.toNat + s.toNat + xin.toNat) := rfl
  have hlt := (addN d s xin).value.isLt
  rcases addN_toNat_wraps_at_most_once d s xin with h | h
  · rw [hcarry, decide_eq_false (by omega), Bool.toNat_false]
    omega
  · rw [hcarry, decide_eq_true (by omega), Bool.toNat_true]
    omega

theorem toNat_subN (d s : BitVec n) (xin : Bool) :
    ((subN d s xin).value.toNat : Int) = ((d.toNat : Int) - s.toNat - xin.toNat) % 2 ^ n := by
  rw [subN, BitVec.toNat_ofInt, Nat.cast_pow, Nat.cast_ofNat,
    Int.toNat_of_nonneg (Int.emod_nonneg _ (by positivity))]

theorem subN_value_sub_borrow_mul (d s : BitVec n) (xin : Bool) :
    ((subN d s xin).value.toNat : Int) - (subN d s xin).carry.toNat * 2 ^ n = d.toNat - s.toNat - xin.toNat := by
  have hborrow : (subN d s xin).carry = decide (d.toNat < s.toNat + xin.toNat) := rfl
  have hfull : ((2 ^ n : Nat) : Int) = 2 ^ n := Nat.cast_pow 2 n
  have hd := d.isLt
  have hs := s.isLt
  have hx := Bool.toNat_le xin
  rw [toNat_subN]
  by_cases h : d.toNat < s.toNat + xin.toNat
  · rw [hborrow, decide_eq_true h, Bool.toNat_true, ← Int.add_emod_right, Int.emod_eq_of_lt (by omega) (by omega)]
    omega
  · rw [hborrow, decide_eq_false h, Bool.toNat_false, Int.emod_eq_of_lt (by omega) (by omega)]
    omega

/-! ### The two primitives on both parts -/

/-- An addition in two parts, the low part's carry added in the high part. -/
theorem addN_append (hm : 0 < m) (dh sh : BitVec m) (dl sl : BitVec n) (xin : Bool) :
    let low := addN dl sl xin
    let high := addN dh sh low.carry
    let whole := addN (dh ++ dl) (sh ++ sl) xin
    whole.value = high.value ++ low.value ∧ whole.carry = high.carry ∧ whole.overflow = high.overflow := by
  intro low high whole
  have hlow : (low.carry.toNat * 2 ^ n + low.value.toNat : Int) = dl.toNat + sl.toNat + xin.toNat :=
    mod_cast addN_carry_mul_add_value dl sl xin
  have hunsigned : ((dh ++ dl).toNat + (sh ++ sl).toNat + xin.toNat : Int) =
      ((dh.toNat + sh.toNat + low.carry.toNat : Nat) : Int) * 2 ^ n + low.value.toNat := by
    rw [cast_toNat_append, cast_toNat_append]
    push_cast
    linear_combination -hlow
  have hsigned : (dh ++ dl).toInt + (sh ++ sl).toInt + xin.toNat =
      (dh.toInt + sh.toInt + low.carry.toNat) * 2 ^ n + low.value.toNat := by
    rw [toInt_append_eq_mul_add hm, toInt_append_eq_mul_add hm]
    linear_combination -hlow
  refine ⟨?_, ?_, ?_⟩
  · calc whole.value
        = BitVec.ofInt (m + n) ((dh ++ dl).toNat + (sh ++ sl).toNat + xin.toNat) := by
          rw [← Nat.cast_add, ← Nat.cast_add, BitVec.ofInt_natCast]; rfl
      _ = high.value ++ low.value := by rw [hunsigned, ofInt_mul_add_toNat, BitVec.ofInt_natCast]; rfl
  · have hlt := mul_add_toNat_lt_mul_iff ((dh.toNat + sh.toNat + low.carry.toNat : Nat) : Int) (2 ^ m) low.value
    rw [← hunsigned, ← pow_add] at hlt
    refine decide_eq_decide.2 (not_lt.symm.trans (Iff.trans (not_congr ?_) not_lt))
    exact_mod_cast hlt
  · exact (congrArg (outsideSigned (m + n)) hsigned).trans (outsideSigned_mul_add_toNat hm _ _)

/-- A subtraction in two parts, the low part's borrow taken from the high part. -/
theorem subN_append (hm : 0 < m) (dh sh : BitVec m) (dl sl : BitVec n) (xin : Bool) :
    let low := subN dl sl xin
    let high := subN dh sh low.carry
    let whole := subN (dh ++ dl) (sh ++ sl) xin
    whole.value = high.value ++ low.value ∧ whole.carry = high.carry ∧ whole.overflow = high.overflow := by
  intro low high whole
  have hlow := subN_value_sub_borrow_mul dl sl xin
  have hunsigned : ((dh ++ dl).toNat - (sh ++ sl).toNat - xin.toNat : Int) =
      ((dh.toNat : Int) - sh.toNat - low.carry.toNat) * 2 ^ n + low.value.toNat := by
    rw [cast_toNat_append, cast_toNat_append]
    linear_combination -hlow
  have hsigned : (dh ++ dl).toInt - (sh ++ sl).toInt - xin.toNat =
      (dh.toInt - sh.toInt - low.carry.toNat) * 2 ^ n + low.value.toNat := by
    rw [toInt_append_eq_mul_add hm, toInt_append_eq_mul_add hm]
    linear_combination -hlow
  refine ⟨?_, ?_, ?_⟩
  · exact (congrArg (BitVec.ofInt (m + n)) hunsigned).trans (ofInt_mul_add_toNat _ _)
  · have hlt := mul_add_toNat_lt_mul_iff ((dh.toNat : Int) - sh.toNat - low.carry.toNat) 0 low.value
    rw [← hunsigned, zero_mul] at hlt
    refine decide_eq_decide.2 ?_
    omega
  · exact (congrArg (outsideSigned (m + n)) hsigned).trans (outsideSigned_mul_add_toNat hm _ _)

end

/-- Settles O10: both primitives in two parts, at the width of the operand size and with no carry into the low part. -/
theorem multiWordArithmetic : Obligations.MultiWordArithmetic := fun sz dh dl sh sl =>
  ⟨addN_append (bits_pos sz) dh sh dl sl false, subN_append (bits_pos sz) dh sh dl sl false⟩

end Sys2Proof.Machine

/-! ## How an instruction that writes a result completes and stops (spec/20_memory.md rules R62 to R64, R70) -/

namespace Sys2Proof.Machine

/-! ### The completed state -/

theorem StoredAt.of_same_start {sz : Size} {loc : Loc} {v : BitVec sz.bits} {s s1 t : State} (hd : s1.d = s.d)
    (hmem : s1.mem = s.mem) (h : StoredAt sz loc v s1 t) : StoredAt sz loc v s t := by
  cases loc with
  | dreg r => simpa only [StoredAt, WrittenDn, SameMem, State.dreg, State.byteAt, hd, hmem] using h
  | mem addr => simpa only [StoredAt, SameMemOutside, SameD, State.dreg, State.byteAt, hd, hmem] using h
  | _ => exact h

/-- `t` completes an instruction started in `s` that has stored `v`: the operands' modes have stepped the address
registers to those of `s1`, and `f` are the new flags. -/
structure ResultStored (sz : Size) (loc : Loc) (v : BitVec sz.bits) (f : Flags) (s s1 t : State) : Prop where
  stored : StoredAt sz loc v s t
  areg   : SameA s1 t
  flags  : t.flags = f
  draws  : t.draws = s.draws

/-- The end of every shape that stores a result: the store, then flags and pc. -/
theorem resultStored_putLoc {sz : Size} {loc : Loc} {s s1 : State} (hd : s1.d = s.d) (hmem : s1.mem = s.mem)
    (hdraws : s1.draws = s.draws) (hw : writableLoc loc = true) (v : BitVec sz.bits) (f : Flags) (len : Nat) :
    ResultStored sz loc v f s s1 (((putLoc sz loc v s1).setFlags f).advance len) where
  stored := by
    have h := (storedAt_putLoc sz loc v s1 hw).of_same_start hd hmem
    cases loc <;> exact h
  areg := areg_putLoc sz loc v s1
  flags := rfl
  draws := (draws_putLoc sz loc v s1).trans hdraws

/-- `t` completes an instruction started in `s` that has written `x` to all of Ar and no flag: the operands' modes have
stepped the other address registers to those of `s1`. -/
structure AnWritten (r : Reg) (x : Long) (s s1 t : State) : Prop where
  written : t.areg r = x
  areg    : ∀ q, q ≠ r → t.areg q = s1.areg q
  stored  : NothingStored s t
  flags   : t.flags = s.flags
  draws   : t.draws = s.draws

/-- The end of every shape that writes an address register: the write, then pc. -/
theorem anWritten_setAreg {s s1 : State} (hd : s1.d = s.d) (hmem : s1.mem = s.mem) (hflags : s1.flags = s.flags)
    (hdraws : s1.draws = s.draws) (r : Reg) (x : Long) (len : Nat) :
    AnWritten r x s s1 ((s1.setAreg r x).advance len) where
  written := by simp
  areg q hq := by simp [hq]
  stored := ⟨fun q => congrArg (·[q]) hd, fun a => congrArg (Memory.read · a.toNat) hmem⟩
  flags := hflags
  draws := hdraws

theorem onlyEaStep_of_sameA {sz : Size} {ea : Ea} {s t : State} (h : SameA (resolveEa sz ea s).2 t) :
    OnlyEaStep sz ea s t := fun q => (h q).trans (areg_resolveEa sz ea s q)

theorem finished_of_exec {i : Instr} {s t : State} (h : exec i s = .next t) (hdraws : t.draws = s.draws) :
    Finished i s t :=
  ⟨⟨(completed_exec h).layout, hdraws⟩, (completed_exec h).pc⟩

/-! ### The flags of an addition -/

theorem addOp_value {n : Nat} (d v : BitVec n) : (addOp d v).value = d + v := by
  simp [addOp, addN_value]

theorem addNVC_arith {n : Nat} (hn : 0 < n) (d v : BitVec n) (xin : Bool) (f : Flags) :
    AddNVC d v xin (f.arith (addN d v xin)) := by
  rw [AddNVC, ← addN_value]
  exact ⟨rfl, addN_overflow_eq_msb hn d v xin, rfl⟩

/-- ADDX sets N, V and C as ADD does. -/
theorem addNVC_extended {n : Nat} (hn : 0 < n) (d v : BitVec n) (xin : Bool) (f : Flags) :
    AddNVC d v xin (f.extended (addN d v xin)) := addNVC_arith hn d v xin f

theorem zeroZ_arith {n : Nat} (out : Alu n) (f : Flags) : ZeroZ out.value (f.arith out) := rfl

theorem stickyZ_extended {n : Nat} (out : Alu n) (f : Flags) : StickyZ out.value f (f.extended out) := by
  have hz : flagZ out.value = decide (out.value = 0#n) := rfl
  rw [StickyZ, ← hz, Flags.extended]
  cases flagZ out.value <;> simp

/-! ### Shapes that store a result -/

section
variable {sz : Size} {src dst : Ea} {r : Reg} {s : State}

theorem sourceToDn_next (op : BitVec sz.bits → BitVec sz.bits → Alu sz.bits)
    (h : accessStop .read sz (resolveEa sz src s).1 (resolveEa sz src s).2 = none) :
    let p := resolveEa sz src s
    let out := op (lowPart sz (s.dreg r)) (locValue sz p.1 p.2)
    ∃ t, sourceToDn sz op src r s = .next t ∧
      ResultStored sz (.dreg r) out.value (s.flags.arith out) s p.2 t := by
  refine ⟨_, (sourceToDn_eq sz op src r s).trans ?_, resultStored_putLoc (d_resolveEa sz src s)
    (mem_resolveEa sz src s) (draws_resolveEa sz src s) rfl _ _ (2 + src.extBytes sz)⟩
  simp only [h]
  rfl

theorem operandStops_sourceToDn {i : Instr} {op : BitVec sz.bits → BitVec sz.bits → Alu sz.bits}
    (hexec : exec i s = sourceToDn sz op src r s) : OperandStops .read i sz src s := fun f hf => by
  simp only [hexec, sourceToDn_eq, hf, orStop_some]

theorem modifyEa_next_stored (op : BitVec sz.bits → Alu sz.bits) (flags : Flags → Alu sz.bits → Flags) (len : Nat)
    (hw : writableLoc (resolveEa sz dst s).1 = true)
    (ha : accessStop .read sz (resolveEa sz dst s).1 (resolveEa sz dst s).2 = none)
    (ht : textStop sz (resolveEa sz dst s).1 (resolveEa sz dst s).2 = none) :
    let p := resolveEa sz dst s
    let out := op (locValue sz p.1 p.2)
    ∃ t, modifyEa sz op flags dst len s = .next t ∧ ResultStored sz p.1 out.value (flags s.flags out) s p.2 t := by
  refine ⟨_, (modifyEa_eq sz op flags dst len s hw).trans ?_, resultStored_putLoc (d_resolveEa sz dst s)
    (mem_resolveEa sz dst s) (draws_resolveEa sz dst s) hw _ _ len⟩
  simp only [ha, ht]

theorem storeStops_modifyEa {i : Instr} {op : BitVec sz.bits → Alu sz.bits} {flags : Flags → Alu sz.bits → Flags}
    {len : Nat} (hw : writableLoc (resolveEa sz dst s).1 = true)
    (hexec : exec i s = modifyEa sz op flags dst len s) : StoreStops .read i sz dst s := by
  rw [modifyEa_eq sz op flags dst len s hw] at hexec
  refine ⟨fun f hf => ?_, fun e ha ht => ?_⟩
  · simp only [hexec, hf]
  · simp only [hexec, ha, ht]

theorem extendedDn_next (op : BitVec sz.bits → BitVec sz.bits → Bool → Alu sz.bits) (r' r : Reg) :
    let out := op (lowPart sz (s.dreg r)) (lowPart sz (s.dreg r')) s.flags.x
    ∃ t, extendedDn sz op r' r s = .next t ∧
      ResultStored sz (.dreg r) out.value (s.flags.extended out) s s t :=
  ⟨_, rfl, resultStored_putLoc (loc := .dreg r) rfl rfl rfl rfl _ _ 2⟩

theorem extendedMem_next_stored (op : BitVec sz.bits → BitVec sz.bits → Bool → Alu sz.bits) (r' r : Reg) :
    let p := resolveEa sz (.preDec r') s
    let q := resolveEa sz (.preDec r) p.2
    let out := op (locValue sz q.1 q.2) (locValue sz p.1 p.2) s.flags.x
    accessStop .read sz p.1 p.2 = none → accessStop .read sz q.1 q.2 = none → textStop sz q.1 q.2 = none →
      ∃ t, extendedMem sz op r' r s = .next t ∧
        ResultStored sz q.1 out.value (s.flags.extended out) s q.2 t := by
  intro p q out hsrc hdst htext
  refine ⟨_, (extendedMem_eq sz op r' r s).trans ?_,
    resultStored_putLoc (s := s) (s1 := q.2) (loc := q.1) rfl rfl rfl rfl out.value (s.flags.extended out) 2⟩
  simp only [p, q] at hsrc hdst htext
  simp only [hsrc, hdst, htext]
  rfl

theorem pairStops_extendedMem {i : Instr} {op : BitVec sz.bits → BitVec sz.bits → Bool → Alu sz.bits} {r' r : Reg}
    (hexec : exec i s = extendedMem sz op r' r s) : PairStops i sz (.preDec r') (.preDec r) s := by
  rw [extendedMem_eq] at hexec
  refine ⟨fun f hf => ?_, fun f hsrc hf => ?_⟩
  · simp only [hexec, hf]
  · simp only [hexec, hsrc, hf]

theorem extendedMem_text {op : BitVec sz.bits → BitVec sz.bits → Bool → Alu sz.bits} {r' r : Reg} {e : Refusal} :
    let p := resolveEa sz (.preDec r') s
    let q := resolveEa sz (.preDec r) p.2
    accessStop .read sz p.1 p.2 = none → accessStop .read sz q.1 q.2 = none → textStop sz q.1 q.2 = some e →
      extendedMem sz op r' r s = .refused e := by
  intro p q hsrc hdst htext
  simp only [p, q] at hsrc hdst htext
  simp only [extendedMem_eq, hsrc, hdst, htext]

/-! ### Shapes that write an address register -/

theorem quickToAn_next (op : Long → Long → Long) (n : Nat) (r : Reg) (s : State) :
    ∃ t, quickToAn op n r s = .next t ∧ AnWritten r (op (s.areg r) (BitVec.ofNat 32 n)) s s t :=
  ⟨_, rfl, anWritten_setAreg rfl rfl rfl rfl r _ 2⟩

theorem overlaps_iff : overlaps src r = true ↔ src = .postInc r ∨ src = .preDec r := by
  cases src <;> simp [overlaps]

theorem sourceToAn_overlap (op : Long → Long → Long) (h : overlaps src r = true) :
    sourceToAn sz op src r s = .refused (.overlapUnspecified s) := by
  rw [sourceToAn_eq]
  exact if_pos h

/-- Without the overlap of rule R64 the source leaves Ar alone, so that the operation takes the old one. -/
theorem sourceToAn_apart (op : Long → Long → Long) (h : ¬ overlaps src r = true) :
    let p := resolveEa sz src s
    sourceToAn sz op src r s = orStop (accessStop .read sz p.1 p.2)
      ((p.2.setAreg r (op (s.areg r) (signExtend32 (locValue sz p.1 p.2)))).advance (2 + src.extBytes sz)) := by
  have hareg : (resolveEa sz src s).2.areg r = s.areg r := by
    rw [areg_resolveEa]
    exact not_imp_comm.1 eaSteps_of_eaAreg_ne (mt overlaps_iff.2 h)
  rw [sourceToAn_eq]
  exact (if_neg h).trans (by rw [hareg])

theorem sourceToAn_next (op : Long → Long → Long) (h : ¬ overlaps src r = true)
    (ha : accessStop .read sz (resolveEa sz src s).1 (resolveEa sz src s).2 = none) :
    let p := resolveEa sz src s
    ∃ t, sourceToAn sz op src r s = .next t ∧
      AnWritten r (op (s.areg r) (signExtend32 (locValue sz p.1 p.2))) s p.2 t :=
  ⟨_, (sourceToAn_apart op h).trans (by rw [ha, orStop_none]),
    anWritten_setAreg (d_resolveEa sz src s) (mem_resolveEa sz src s) (flags_resolveEa sz src s)
      (draws_resolveEa sz src s) r _ (2 + src.extBytes sz)⟩

end

/-! ## The Add family (spec/40_add.md rules R120 to R129) -/

theorem writableLoc_of_wf {i : Instr} {sz : Size} {hasImm : Bool} {cat : Category} {ea : Ea}
    (hinfo : i.info = { size := sz, hasImm := hasImm, ea := some (cat, ea) })
    (hcat : cat = .dataAlterable ∨ cat = .alterableMemory) (hwf : i.wf = true) (s : State) :
    writableLoc (resolveEa sz ea s).1 = true := by
  obtain ⟨hallows, -, -⟩ := (wf_iff_of_info hinfo).1 hwf
  exact writableLoc_resolveEa sz ea s cat hcat hallows

/-- The destination of ADDQ and SUBQ, where the address register is a case of its own. -/
theorem writableLoc_of_alterable {sz : Size} {ea : Ea} (h : Category.alterable.allows sz ea.mode = true)
    (hne : ∀ r, ea ≠ .an r) (s : State) : writableLoc (resolveEa sz ea s).1 = true := by
  cases ea with
  | an r => exact absurd rfl (hne r)
  | pcDisp | pcIndex | imm => simp [Category.allows, Category.modes, Ea.mode] at h
  | _ => rfl

section
variable {i : Instr} {sz : Size} {loc : Loc} {d v : BitVec sz.bits} {s s1 t : State}

/-- ADD, ADDI and ADDQ have stored the sum. -/
theorem sum_stored {ea : Ea} (ht : exec i s = .next t)
    (h : ResultStored sz loc (addOp d v).value (s.flags.arith (addOp d v)) s (resolveEa sz ea s).2 t) :
    StoredAt sz loc (d + v) s t ∧ OnlyEaStep sz ea s t ∧ AddNVC d v false t.flags ∧ ZeroZ (d + v) t.flags ∧
      t.flags.x = t.flags.c ∧ Finished i s t := by
  obtain ⟨hstored, hareg, hflags, hdraws⟩ := h
  refine ⟨addOp_value d v ▸ hstored, onlyEaStep_of_sameA hareg, ?_, ?_, ?_, finished_of_exec ht hdraws⟩
  · rw [hflags]
    exact addNVC_arith (bits_pos sz) d v false _
  · rw [hflags, ← addOp_value]
    exact zeroZ_arith _ _
  · rw [hflags]
    rfl

/-- ADDX has stored the sum with X. -/
theorem extended_sum_stored (ht : exec i s = .next t)
    (h : ResultStored sz loc (addN d v s.flags.x).value (s.flags.extended (addN d v s.flags.x)) s s1 t) :
    let r := d + v + BitVec.ofNat sz.bits s.flags.x.toNat
    StoredAt sz loc r s t ∧ SameA s1 t ∧ AddNVC d v s.flags.x t.flags ∧ StickyZ r s.flags t.flags ∧
      t.flags.x = t.flags.c ∧ Finished i s t := by
  intro r
  obtain ⟨hstored, hareg, hflags, hdraws⟩ := h
  have hvalue : (addN d v s.flags.x).value = r := addN_value d v s.flags.x
  refine ⟨hvalue ▸ hstored, hareg, ?_, ?_, ?_, finished_of_exec ht hdraws⟩
  · rw [hflags]
    exact addNVC_extended (bits_pos sz) d v s.flags.x s.flags
  · rw [hflags, ← hvalue]
    exact stickyZ_extended _ _
  · rw [hflags]
    rfl

/-- An instruction that adds to one operand and stores the sum there, or stops. -/
theorem addition_completes_or_stops {dst : Ea} {len : Nat} (hw : writableLoc (resolveEa sz dst s).1 = true)
    (hexec : exec i s = modifyEa sz (fun d => addOp d v) Flags.arith dst len s) :
    let p := resolveEa sz dst s
    let d := locValue sz p.1 p.2
    (accessStop .read sz p.1 p.2 = none → textStop sz p.1 p.2 = none →
      ∃ t, exec i s = .next t ∧ StoredAt sz p.1 (d + v) s t ∧ OnlyEaStep sz dst s t ∧
        AddNVC d v false t.flags ∧ ZeroZ (d + v) t.flags ∧ t.flags.x = t.flags.c ∧ Finished i s t) ∧
    StoreStops .read i sz dst s := by
  refine ⟨fun ha htext => ?_, storeStops_modifyEa hw hexec⟩
  obtain ⟨t, ht, hstored⟩ := modifyEa_next_stored (fun d => addOp d v) Flags.arith len hw ha htext
  exact ⟨t, hexec.trans ht, sum_stored (hexec.trans ht) hstored⟩

end

/-- Settles O14: `sourceToDn` answers by its equation, and its store to Dn is one to a location. -/
theorem addToDataRegister : Obligations.AddToDataRegister := by
  intro sz src dst s i p d v _hwf
  have hexec : exec i s = sourceToDn sz addOp src dst s := exec_addEaDn sz src dst s
  refine ⟨fun ha => ?_, operandStops_sourceToDn hexec⟩
  obtain ⟨t, ht, hresult⟩ := sourceToDn_next addOp ha
  obtain ⟨⟨hwritten, hmem⟩, hrest⟩ := sum_stored (hexec.trans ht) hresult
  exact ⟨t, hexec.trans ht, hwritten, hmem, hrest⟩

/-- Settles O15: ADD `Dn,<ea>` adds to one operand, which alterable memory lets it store to. -/
theorem addToMemory : Obligations.AddToMemory := by
  intro sz src dst s i p d v hwf
  have hinfo : i.info = { size := sz, ea := some (.alterableMemory, dst) } := by cases sz <;> rfl
  exact addition_completes_or_stops (writableLoc_of_wf hinfo (.inr rfl) hwf s) (exec_addDnEa sz src dst s)

/-- Settles O16: by whether the source steps An itself; if it does not, An is the old one when the sum is taken. -/
theorem addToAddressRegister : Obligations.AddToAddressRegister := by
  intro long src dst s sz i p v overlap _hwf
  have hexec : exec i s = sourceToAn sz (fun a v => a + v) src dst s := exec_adda long src dst s
  refine ⟨fun hne ha => ?_, fun hne f hf => ?_, fun hov => ?_⟩
  · obtain ⟨t, ht, hdst, hareg, hstored, hflags, hdraws⟩ :=
      sourceToAn_next (fun a v => a + v) (mt overlaps_iff.1 hne) ha
    exact ⟨t, hexec.trans ht, hdst, fun q hq => (hareg q hq).trans (areg_resolveEa sz src s q), hstored, hflags,
      finished_of_exec (hexec.trans ht) hdraws⟩
  · rw [hexec, sourceToAn_apart _ (mt overlaps_iff.1 hne), hf, orStop_some]
  · rw [hexec, sourceToAn_overlap _ (overlaps_iff.2 hov)]

/-- Settles O17: ADDI adds to one operand, which is data alterable. -/
theorem addImmediate : Obligations.AddImmediate := by
  intro sz imm dst s i p d v hwf
  have hinfo : i.info = { size := sz, hasImm := true, ea := some (.dataAlterable, dst) } := by cases sz <;> rfl
  exact addition_completes_or_stops (writableLoc_of_wf hinfo (.inl rfl) hwf s) (exec_addi sz imm dst s)

/-- Settles O18: an address register by `quickToAn`, every other destination as ADDI. -/
theorem addQuick : Obligations.AddQuick := by
  intro sz q dst s i p d v hwf
  have hexec : exec i s = quick sz (fun a q => a + q) addOp q dst s := exec_addq sz q dst s
  refine ⟨fun r hr => ?onAn, fun hne => ?onData⟩
  case onAn =>
    obtain ⟨t, ht, hdst, hareg, hstored, hflags, hdraws⟩ := quickToAn_next (fun a q => a + q) q r s
    have hnext : exec i s = .next t := by rw [hexec, hr]; exact ht
    exact ⟨t, hnext, hdst, hareg, hstored, hflags, finished_of_exec hnext hdraws⟩
  case onData =>
    have hinfo : i.info = { size := sz, quick := some q, ea := some (.alterable, dst) } := by cases sz <;> rfl
    obtain ⟨hallows, -, -⟩ := (wf_iff_of_info hinfo).1 hwf
    exact addition_completes_or_stops (writableLoc_of_alterable hallows hne s) (hexec.trans (quick_eq_modifyEa hne s))

/-- Settles O19: no operand of `Dy,Dx` can stop. -/
theorem addExtendedRegisters : Obligations.AddExtendedRegisters := by
  intro sz src dst s i d v r
  have hexec : exec i s = extendedDn sz addN src dst s := exec_addxReg sz src dst s
  obtain ⟨t, ht, hresult⟩ := extendedDn_next addN src dst
  obtain ⟨⟨hwritten, hmem⟩, hrest⟩ := extended_sum_stored (hexec.trans ht) hresult
  exact ⟨t, hexec.trans ht, hwritten, hmem, hrest⟩

/-- Settles O20: the stops in the order of `extendedMem_eq`, and the sum when none of them is met. -/
theorem addExtendedMemory : Obligations.AddExtendedMemory := by
  intro sz src dst s i p q v d r
  have hexec : exec i s = extendedMem sz addN src dst s := exec_addxMem sz src dst s
  refine ⟨fun hsrc hdst htext => ?_, pairStops_extendedMem hexec, fun e hsrc hdst htext => ?_⟩
  · obtain ⟨t, ht, hresult⟩ := extendedMem_next_stored addN src dst hsrc hdst htext
    obtain ⟨hstored, hareg, hflags⟩ := extended_sum_stored (hexec.trans ht) hresult
    exact ⟨t, hexec.trans ht, hstored, onlyEaStep_of_sameA hareg, hflags⟩
  · exact hexec.trans (extendedMem_text hsrc hdst htext)

end Sys2Proof.Machine

/-! ## Clear (spec/41_clear.md rule R140) -/

namespace Sys2Proof.Machine

section
variable {sz : Size} {dst : Ea} {s : State}

/-- The store is the only access: only its own checks stand between CLR and completion. -/
theorem clear_next_stored (hw : writableLoc (resolveEa sz dst s).1 = true)
    (ha : accessStop .write sz (resolveEa sz dst s).1 (resolveEa sz dst s).2 = none)
    (ht : textStop sz (resolveEa sz dst s).1 (resolveEa sz dst s).2 = none) :
    let p := resolveEa sz dst s
    ∃ t, clear sz dst s = .next t ∧ ResultStored sz p.1 0 s.flags.clear s p.2 t := by
  refine ⟨_, (clear_eq sz dst s hw).trans ?_, resultStored_putLoc (d_resolveEa sz dst s)
    (mem_resolveEa sz dst s) (draws_resolveEa sz dst s) hw _ _ (2 + dst.extBytes sz)⟩
  simp only [ha, ht]

theorem storeStops_clear {i : Instr} (hw : writableLoc (resolveEa sz dst s).1 = true)
    (hexec : exec i s = clear sz dst s) : StoreStops .write i sz dst s := by
  rw [clear_eq sz dst s hw] at hexec
  refine ⟨fun f hf => ?_, fun e ha ht => ?_⟩
  · simp only [hexec, hf]
  · simp only [hexec, ha, ht]

end

/-- Settles O21: a well-formed CLR has a data alterable operand, so that `clear` stores zero there or meets one of the
store's stops. -/
theorem clearOperand : Obligations.ClearOperand := by
  intro sz dst s i p hwf
  have hexec : exec i s = clear sz dst s := exec_clr sz dst s
  have hinfo : i.info = { size := sz, ea := some (.dataAlterable, dst) } := by cases sz <;> rfl
  have hw : writableLoc p.1 = true := writableLoc_of_wf hinfo (.inl rfl) hwf s
  refine ⟨fun ha htext => ?_, storeStops_clear hw hexec⟩
  obtain ⟨t, ht, hstored, hareg, hflags, hdraws⟩ := clear_next_stored hw ha htext
  exact ⟨t, hexec.trans ht, hstored, onlyEaStep_of_sameA hareg, hflags, finished_of_exec (hexec.trans ht) hdraws⟩

end Sys2Proof.Machine

/-! ## The Compare family (spec/42_compare.md rules R145 to R151, spec/00_scope.md rule R10) -/

namespace Sys2Proof.Machine

/-! ### Subtraction at every width -/

/-- The first form of Vout in rule R10. -/
theorem subN_overflow_iff {n : Nat} (d s : BitVec n) (xin : Bool) :
    (subN d s xin).overflow = true ↔
      d.toInt - s.toInt - xin.toNat < -(2 ^ (n - 1)) ∨ 2 ^ (n - 1) - 1 < d.toInt - s.toInt - xin.toNat :=
  outsideSigned_iff n _

/-- Operands and borrow in are too small for the difference to wrap more than once. -/
theorem subN_toNat_wraps_at_most_once {n : Nat} (d s : BitVec n) (xin : Bool) :
    ((subN d s xin).value.toNat : Int) = d.toNat - s.toNat - xin.toNat ∨
      ((subN d s xin).value.toNat : Int) - 2 ^ n = d.toNat - s.toNat - xin.toNat := by
  have hvalue := subN_value_sub_borrow_mul d s xin
  cases hc : (subN d s xin).carry with
  | false => exact .inl (by simpa [hc] using hvalue)
  | true => exact .inr (by simpa [hc] using hvalue)

/-- The second form of Vout in rule R10: the operands have different signs and the result has not the minuend's. -/
theorem subN_overflow_eq_msb {n : Nat} (hn : 0 < n) (d s : BitVec n) (xin : Bool) :
    (subN d s xin).overflow = (d.msb != s.msb && (subN d s xin).value.msb != d.msb) := by
  have hhalf : ((2 ^ (n - 1) : Nat) : Int) = 2 ^ (n - 1) := Nat.cast_pow 2 (n - 1)
  have hfull : ((2 ^ n : Nat) : Int) = 2 ^ n := Nat.cast_pow 2 n
  have hpow : 2 ^ (n - 1) * 2 = 2 ^ n := Nat.two_pow_pred_mul_two hn
  have hdiff := subN_toNat_wraps_at_most_once d s xin
  have hx := Bool.toNat_le xin
  have hr := (subN d s xin).value.isLt
  rw [Bool.eq_iff_iff, subN_overflow_iff, BitVec.msb_eq_decide (subN d s xin).value]
  -- By the operands' signs: each negative one takes a whole range off its unsigned number.
  rcases toInt_of_half_range d with ⟨hd, hdn, hdi⟩ | ⟨hd, hdn, hdi⟩ <;>
    rcases toInt_of_half_range s with ⟨hs, hsn, hsi⟩ | ⟨hs, hsn, hsi⟩ <;>
    simp [hd, hs, hdi, hsi] <;> omega

/-- N xor V is the sign of the difference as an integer: an overflow turns the sign bit round. -/
theorem subN_msb_bne_overflow {n : Nat} (hn : 0 < n) (d s : BitVec n) (xin : Bool) :
    ((subN d s xin).value.msb != (subN d s xin).overflow) = decide (d.toInt - s.toInt - xin.toNat < 0) := by
  have hfull : ((2 ^ n : Nat) : Int) = 2 ^ n := Nat.cast_pow 2 n
  have hpow : 2 ^ (n - 1) * 2 = 2 ^ n := Nat.two_pow_pred_mul_two hn
  have hdiff := subN_toNat_wraps_at_most_once d s xin
  have hx := Bool.toNat_le xin
  have hr := (subN d s xin).value.isLt
  rw [subN_overflow_eq_msb hn, Bool.eq_iff_iff, decide_eq_true_iff, BitVec.msb_eq_decide (subN d s xin).value]
  rcases toInt_of_half_range d with ⟨hd, hdn, hdi⟩ | ⟨hd, hdn, hdi⟩ <;>
    rcases toInt_of_half_range s with ⟨hs, hsn, hsi⟩ | ⟨hs, hsn, hsi⟩ <;>
    simp [hd, hs, hdi, hsi] <;> omega

theorem subN_value_no_borrow {n : Nat} (d v : BitVec n) : (subN d v false).value = d - v := by
  simp [subN_value]

/-! ### The flags of a comparison -/

section
variable {n : Nat} (d v : BitVec n) (f : Flags)

theorem subNVC_compare (hn : 0 < n) (xin : Bool) : SubNVC d v xin (f.compare (subN d v xin)) := by
  rw [SubNVC, ← subN_value]
  exact ⟨rfl, subN_overflow_eq_msb hn d v xin, rfl⟩

theorem zeroZ_compare : ZeroZ (d - v) (f.compare (subN d v false)) := by
  rw [← subN_value_no_borrow]
  rfl

theorem z_compare_eq_decide_eq : (f.compare (subN d v false)).z = decide (d = v) :=
  (zeroZ_compare d v f).trans (decide_eq_decide.2 sub_eq_zero)

theorem c_compare_eq_decide_lt : (f.compare (subN d v false)).c = decide (d.toNat < v.toNat) := rfl

theorem n_bne_v_compare (hn : 0 < n) :
    ((f.compare (subN d v false)).n != (f.compare (subN d v false)).v) = decide (d.toInt < v.toInt) := by
  refine (subN_msb_bne_overflow hn d v false).trans (decide_eq_decide.2 ?_)
  rw [Bool.toNat_false, Nat.cast_zero, sub_zero, sub_neg]

end

/-! ### How a comparison completes and stops -/

/-- The instruction completes a comparison of `d` with `v`, the mode of `ea` being the last to step a register, from
the state `s1`. -/
def CompletesCompare {n : Nat} (i : Instr) (sz : Size) (ea : Ea) (d v : BitVec n) (s s1 : State) : Prop :=
  ∃ t, exec i s = .next t ∧ NothingStored s t ∧ OnlyEaStep sz ea s1 t ∧ SubNVC d v false t.flags ∧
    ZeroZ (d - v) t.flags ∧ t.flags.x = s.flags.x ∧ Finished i s t

section
variable {n : Nat} {i : Instr} {sz : Size} {ea : Ea} {d v : BitVec n} {s s1 : State} {len : Nat}

/-- The end of every comparison: only flags and pc are written. -/
theorem completesCompare_of_exec (hn : 0 < n) (hd : s1.d = s.d) (hmem : s1.mem = s.mem) (hdraws : s1.draws = s.draws)
    (hexec : exec i s =
      .next (((resolveEa sz ea s1).2.setFlags (s.flags.compare (subN d v false))).advance len)) :
    CompletesCompare i sz ea d v s s1 := by
  have hdata : (resolveEa sz ea s1).2.d = s.d := (d_resolveEa sz ea s1).trans hd
  have hbytes : (resolveEa sz ea s1).2.mem = s.mem := (mem_resolveEa sz ea s1).trans hmem
  exact ⟨_, hexec, ⟨fun q => congrArg (·[q]) hdata, fun a => congrArg (Memory.read · a.toNat) hbytes⟩,
    onlyEaStep_of_sameA fun _ => rfl, subNVC_compare d v s.flags hn false, zeroZ_compare d v s.flags, rfl,
    finished_of_exec hexec ((draws_resolveEa sz ea s1).trans hdraws)⟩

/-- A comparison with one operand to access, or its stop. -/
theorem compare_completes_or_stops (hn : 0 < n)
    (hexec : exec i s = orStop (accessStop .read sz (resolveEa sz ea s).1 (resolveEa sz ea s).2)
      (((resolveEa sz ea s).2.setFlags (s.flags.compare (subN d v false))).advance len)) :
    (accessStop .read sz (resolveEa sz ea s).1 (resolveEa sz ea s).2 = none → CompletesCompare i sz ea d v s s) ∧
      OperandStops .read i sz ea s := by
  refine ⟨fun ha => ?_, fun f hf => ?_⟩
  · rw [ha, orStop_none] at hexec
    exact completesCompare_of_exec hn rfl rfl rfl hexec
  · simp only [hexec, hf, orStop_some]

end

theorem compareAn_overlap {sz : Size} {src : Ea} {dst : Reg} {s : State} (h : overlaps src dst = true) :
    compareAn sz src dst s = .refused (.overlapUnspecified s) := by
  rw [compareAn_eq]
  exact if_pos h

/-- Without the overlap of rule R64 the source leaves An alone, so that the old one is compared. -/
theorem compareAn_apart {sz : Size} {src : Ea} {dst : Reg} {s : State} (h : ¬ overlaps src dst = true) :
    let p := resolveEa sz src s
    compareAn sz src dst s = orStop (accessStop .read sz p.1 p.2)
      ((p.2.setFlags (s.flags.compare (subN (s.areg dst) (signExtend32 (locValue sz p.1 p.2)) false))).advance
        (2 + src.extBytes sz)) := by
  have hareg : (resolveEa sz src s).2.areg dst = s.areg dst := by
    rw [areg_resolveEa]
    exact not_imp_comm.1 eaSteps_of_eaAreg_ne (mt overlaps_iff.2 h)
  rw [compareAn_eq]
  exact (if_neg h).trans (by rw [hareg])

end Sys2Proof.Machine

/-! ### The obligations, outside the namespace of the model, where Timing.lean has a `compareImmediate` -/

namespace Sys2Proof
open Machine

/-- Settles O22: CMP accesses its source alone. -/
theorem compareDataRegister : Obligations.CompareDataRegister := by
  intro sz src dst s i p d v _hwf
  exact compare_completes_or_stops (bits_pos sz) ((exec_cmp sz src dst s).trans (compareDn_eq sz src dst s))

/-- Settles O23: by whether the source steps An itself; if it does not, the old An is compared at the full width. -/
theorem compareAddressRegister : Obligations.CompareAddressRegister := by
  intro long src dst s sz i p d v overlap _hwf
  have hexec : exec i s = compareAn sz src dst s := exec_cmpa long src dst s
  have hapart (hne : ¬ overlap) :=
    compare_completes_or_stops (by decide) (hexec.trans (compareAn_apart (mt overlaps_iff.1 hne)))
  exact ⟨fun hne => (hapart hne).1, fun hne => (hapart hne).2,
    fun hov => hexec.trans (compareAn_overlap (overlaps_iff.2 hov))⟩

/-- Settles O24: CMPI accesses its destination alone, to read it, so that no check of a store is made. -/
theorem compareImmediate : Obligations.CompareImmediate := by
  intro sz imm dst s i p d v _hwf
  exact compare_completes_or_stops (bits_pos sz)
    ((exec_cmpi sz imm dst s).trans (compareImm_eq sz (lowPart sz imm) dst s))

/-- Settles O25: the stops in the order of `compareMem_eq`, and the comparison when none of them is met. -/
theorem compareMemory : Obligations.CompareMemory := by
  intro sz src dst s i p q v d
  have hexec : exec i s = compareMem sz src dst s := exec_cmpm sz src dst s
  rw [compareMem_eq] at hexec
  refine ⟨fun hsrc hdst => ?completes, fun f hf => ?source, fun f hsrc hf => ?destination⟩
  case completes =>
    simp only [p, q] at hsrc hdst
    simp only [hsrc, hdst, orStop_none] at hexec
    exact completesCompare_of_exec (s1 := p.2) (bits_pos sz) rfl rfl rfl hexec
  case source => simp only [hexec, hf]
  case destination => simp only [hexec, hsrc, hf, orStop_some]

/-- Settles O26: a CMP that completes ends with the flags of its comparison, and these tell the order. -/
theorem compareOrders : Obligations.CompareOrders := by
  intro sz src dst s t p d v ht
  have hexec := (exec_cmp sz src dst s).trans (compareDn_eq sz src dst s)
  obtain ⟨-, rfl⟩ := orStop_eq_next.1 (hexec.symm.trans ht)
  exact ⟨z_compare_eq_decide_eq d v s.flags, c_compare_eq_decide_lt d v s.flags,
    n_bne_v_compare d v s.flags (bits_pos sz)⟩

end Sys2Proof

/-! ## The Divide family (spec/43_divide.md rules R160 to R163, spec/60_exceptions.md rule R230) -/

namespace Sys2Proof.Machine

/-! ### The numbers of a division -/

section
variable (n : Long) (v : Word)

/-- The signed remainder is the truncating one (rule R162). -/
theorem remS_eq_tmod : remS n v = n.toInt.tmod v.toInt := by
  rw [Int.tmod_def, Int.mul_comm]
  rfl

theorem quotS_mul_add_remS : quotS n v * v.toInt + remS n v = n.toInt := by
  rw [remS]
  omega

theorem natAbs_remS_lt {v : Word} (hv : v ≠ 0#16) : (remS n v).natAbs < v.toInt.natAbs := by
  have hne : v.toInt ≠ 0 := (BitVec.toInt_ne (y := 0#16)).2 hv
  rw [remS_eq_tmod, Int.natAbs_tmod]
  exact Nat.mod_lt _ (Int.natAbs_pos.2 hne)

theorem remS_nonneg {n : Long} (hn : 0 ≤ n.toInt) : 0 ≤ remS n v := by
  rw [remS_eq_tmod]
  exact Int.tmod_nonneg _ hn

theorem remS_nonpos {n : Long} (hn : n.toInt ≤ 0) : remS n v ≤ 0 := by
  have hneg : 0 ≤ (-n.toInt).tmod v.toInt := Int.tmod_nonneg _ (Int.neg_nonneg.2 hn)
  rw [Int.neg_tmod] at hneg
  rw [remS_eq_tmod]
  exact Int.neg_nonneg.1 hneg

theorem toInt_ofInt_word {i : Int} (hlo : -32768 ≤ i) (hhi : i ≤ 32767) : (BitVec.ofInt 16 i).toInt = i :=
  BitVec.toInt_ofInt_eq_self (by decide) hlo (Int.lt_add_one_of_le hhi)

/-- A remainder always fits its half of Dn: it is smaller than the divisor. -/
theorem toInt_ofInt_remS {v : Word} (hv : v ≠ 0#16) : (BitVec.ofInt 16 (remS n v)).toInt = remS n v := by
  have hlt := natAbs_remS_lt n hv
  have hlow : -32768 ≤ v.toInt := BitVec.le_toInt v
  have hhigh : v.toInt < 32768 := BitVec.toInt_lt
  exact toInt_ofInt_word (by omega) (by omega)

theorem remU_eq_mod : remU n v = n.toNat % v.toNat := Nat.mod_eq_sub_div_mul.symm

theorem toNat_pos_of_ne_zero {v : Word} (hv : v ≠ 0#16) : 0 < v.toNat :=
  Nat.pos_of_ne_zero ((BitVec.toNat_ne_iff_ne (y := 0#16)).2 hv)

theorem toNat_ofNat_word {k : Nat} (h : k ≤ 65535) : (BitVec.ofNat 16 k).toNat = k :=
  Nat.mod_eq_of_lt (Nat.lt_succ_of_le h)

/-- The corner case of rule R161: the quotient needs a seventeenth bit exactly if the upper word of the dividend is at
least the divisor. -/
theorem quotU_overflow_iff_le_upper {v : Word} (hv : v ≠ 0#16) :
    65535 < quotU n v ↔ v.toNat ≤ (n.extractLsb' 16 16).toNat := by
  have hupper : (n.extractLsb' 16 16).toNat = n.toNat / 65536 := by
    rw [BitVec.extractLsb'_toNat, Nat.shiftRight_eq_div_pow, Nat.mod_eq_of_lt]
    have := n.isLt
    omega
  calc 65535 < quotU n v
      ↔ 65536 * v.toNat ≤ n.toNat := Nat.le_div_iff_mul_le (toNat_pos_of_ne_zero hv)
    _ ↔ v.toNat ≤ n.toNat / 65536 := by rw [Nat.le_div_iff_mul_le (by decide), Nat.mul_comm]
    _ ↔ v.toNat ≤ (n.extractLsb' 16 16).toNat := by rw [hupper]

end

/-! ### The flags of a quotient -/

theorem test_signed_quotient (f : Flags) {q : Int} (hlo : -32768 ≤ q) (hhi : q ≤ 32767) :
    f.test (BitVec.ofInt 16 q) = { n := decide (q < 0), z := decide (q = 0), v := false, c := false, x := f.x } := by
  have hq := toInt_ofInt_word hlo hhi
  have hn : flagN (BitVec.ofInt 16 q) = decide (q < 0) := by rw [flagN, BitVec.msb_eq_toInt, hq]
  have hzero : BitVec.ofInt 16 q = 0#16 ↔ q = 0 := by rw [← BitVec.toInt_inj, hq, BitVec.toInt_zero]
  have hz : flagZ (BitVec.ofInt 16 q) = decide (q = 0) := decide_eq_decide.2 hzero
  rw [Flags.test, hn, hz]

theorem test_unsigned_quotient (f : Flags) {q : Nat} (hq : q ≤ 65535) :
    f.test (BitVec.ofNat 16 q) =
      { n := decide (2 ^ 15 ≤ q), z := decide (q = 0), v := false, c := false, x := f.x } := by
  have hq := toNat_ofNat_word hq
  have hn : flagN (BitVec.ofNat 16 q) = decide (2 ^ 15 ≤ q) := by rw [flagN, BitVec.msb_eq_decide, hq]
  have hzero : BitVec.ofNat 16 q = 0#16 ↔ q = 0 := by rw [← BitVec.toNat_inj, hq, BitVec.toNat_zero]
  have hz : flagZ (BitVec.ofNat 16 q) = decide (q = 0) := decide_eq_decide.2 hzero
  rw [Flags.test, hn, hz]

/-! ### The completed state -/

/-- `t` completes an instruction on `src` started in `s` that has replaced all of Dr by `x`; `f` are the new flags. -/
structure DnReplaced (src : Ea) (r : Reg) (x : Long) (f : Flags) (s t : State) : Prop where
  written : t.dreg r = x
  others  : ∀ k, k ≠ r → t.dreg k = s.dreg k
  mem     : SameMem s t
  areg    : OnlyEaStep .word src s t
  flags   : t.flags = f
  draws   : t.draws = s.draws

/-- `t` comes after a divide on `src` started in `s` that overflowed: the operands are kept, N and Z are free. -/
structure OperandsKept (src : Ea) (s t : State) : Prop where
  stored : NothingStored s t
  areg   : OnlyEaStep .word src s t
  v      : t.flags.v = true
  c      : t.flags.c = false

section
variable {src : Ea} {r : Reg} {s : State} {v : Word} {len : Nat}

theorem nothingStored_resolveEa (sz : Size) (ea : Ea) (s : State) : NothingStored s (resolveEa sz ea s).2 :=
  ⟨dreg_resolveEa sz ea s, fun a => congrArg (Memory.read · a.toNat) (mem_resolveEa sz ea s)⟩

/-- The end of every instruction that replaces all of Dr. -/
theorem dnReplaced_finishDn {n : Nat} (src : Ea) (r : Reg) (x : Long) (tested : BitVec n) (len : Nat) (s : State) :
    DnReplaced src r x (s.flags.test tested) s (finishDn r x tested len (resolveEa .word src s).2) where
  written := by simp [finishDn]
  others k hk := by simp [finishDn, hk]
  mem := (nothingStored_resolveEa .word src s).2
  areg := areg_resolveEa .word src s
  flags := by simp [finishDn]
  draws := draws_resolveEa .word src s

theorem operandsKept_divideOverflow (signed : Bool) (dividend : Long) (divisor : Word) (len : Nat) (s : State) :
    OperandsKept src s ((divideOverflow signed dividend divisor (resolveEa .word src s).2).advance len) where
  stored := nothingStored_resolveEa .word src s
  areg := areg_resolveEa .word src s
  v := rfl
  c := rfl

theorem divideSigned_keeps_operands (h : outsideSigned 16 (quotS (s.dreg r) v) = true) :
    OperandsKept src s (divideSigned v r len (resolveEa .word src s).2) := by
  rw [divideSigned_overflow (by rwa [dreg_resolveEa])]
  exact operandsKept_divideOverflow _ _ _ _ _

theorem divideSigned_replaces (hlo : -32768 ≤ quotS (s.dreg r) v) (hhi : quotS (s.dreg r) v ≤ 32767) :
    let q := quotS (s.dreg r) v
    DnReplaced src r (BitVec.ofInt 16 (remS (s.dreg r) v) ++ BitVec.ofInt 16 q)
      { n := decide (q < 0), z := decide (q = 0), v := false, c := false, x := s.flags.x } s
      (divideSigned v r len (resolveEa .word src s).2) := by
  intro q
  have hfits : ¬ outsideSigned 16 q = true := by rw [outsideSigned_iff]; omega
  rw [divideSigned_fits (by rwa [dreg_resolveEa]), dreg_resolveEa, ← test_signed_quotient s.flags (q := q) hlo hhi]
  exact dnReplaced_finishDn src r _ _ len s

theorem divideUnsigned_keeps_operands (h : 65535 < quotU (s.dreg r) v) :
    OperandsKept src s (divideUnsigned v r len (resolveEa .word src s).2) := by
  rw [divideUnsigned_overflow (by rwa [dreg_resolveEa])]
  exact operandsKept_divideOverflow _ _ _ _ _

theorem divideUnsigned_replaces (h : quotU (s.dreg r) v ≤ 65535) :
    let q := quotU (s.dreg r) v
    DnReplaced src r (BitVec.ofNat 16 ((s.dreg r).toNat % v.toNat) ++ BitVec.ofNat 16 q)
      { n := decide (2 ^ 15 ≤ q), z := decide (q = 0), v := false, c := false, x := s.flags.x } s
      (divideUnsigned v r len (resolveEa .word src s).2) := by
  intro q
  have hfits : ¬ 65535 < q := Nat.not_lt.2 h
  rw [divideUnsigned_fits (by rwa [dreg_resolveEa]), dreg_resolveEa, remU_eq_mod,
    ← test_unsigned_quotient s.flags (q := q) h]
  exact dnReplaced_finishDn src r _ _ len s

end

/-! ### How a divide completes and stops -/

section
variable {how : Word → Reg → Nat → State → State} {src : Ea} {r : Reg} {s t : State} {i : Instr}

theorem divide_eq_next_iff :
    let p := resolveEa .word src s
    divide how src r s = .next t ↔ accessStop .read .word p.1 p.2 = none ∧ locValue .word p.1 p.2 ≠ (0#16 : Word) ∧
      how (locValue .word p.1 p.2) r (2 + src.extBytes .word) p.2 = t := by
  intro p
  rw [divide_eq]
  dsimp only
  split
  next f hf => simp [p, hf]
  next ha =>
    split
    next hv => simp [p, ha, hv]
    next hv => simp [p, ha, hv]

theorem operandStops_divide (hexec : exec i s = divide how src r s) : OperandStops .read i .word src s := by
  intro f hf
  simp only [hexec, divide_eq, hf]

/-- The instruction on `src` ends in the zero-divide trap with nothing stored (rule R230). -/
def TrapsOnZero (i : Instr) (src : Ea) (s : State) : Prop :=
  ∃ t, exec i s = .fault (.zeroDivide t) ∧ NothingStored s t ∧ OnlyEaStep .word src s t ∧
    t.flags.x = s.flags.x ∧ t.layout = s.layout ∧ t.pc = s.pc

theorem trapsOnZero_divide (hexec : exec i s = divide how src r s)
    (ha : accessStop .read .word (resolveEa .word src s).1 (resolveEa .word src s).2 = none)
    (hv : locValue .word (resolveEa .word src s).1 (resolveEa .word src s).2 = (0#16 : Word)) :
    TrapsOnZero i src s := by
  rw [divide_eq] at hexec
  simp only [ha, hv, if_true] at hexec
  exact ⟨_, hexec, nothingStored_resolveEa .word src s, areg_resolveEa .word src s,
    (x_trapState _).trans (congrArg Flags.x (flags_resolveEa .word src s)), layout_resolveEa .word src s,
    pc_resolveEa .word src s⟩

/-- The instruction on `src` completes with the operands kept, V set and C cleared (rules R160, R161, R163). -/
def CompletesOverflow (i : Instr) (src : Ea) (s : State) : Prop :=
  ∃ t, exec i s = .next t ∧ NothingStored s t ∧ OnlyEaStep .word src s t ∧ t.flags.v = true ∧ t.flags.c = false ∧
    t.flags.x = s.flags.x ∧ t.layout = s.layout ∧ t.pc = s.pc + BitVec.ofNat 32 i.length

theorem completesOverflow_of_exec (hx : writesExtend i = false) (ht : exec i s = .next t)
    (h : OperandsKept src s t) : CompletesOverflow i src s := by
  have hdone := completed_exec ht
  have hkeep : t.flags.x = s.flags.x := by simpa [hx] using hdone.x
  exact ⟨t, ht, h.stored, h.areg, h.v, h.c, hkeep, hdone.layout, hdone.pc⟩

/-- The instruction on `src` completes with `x` in Dr and the flags `f`. -/
def CompletesDn (i : Instr) (src : Ea) (r : Reg) (x : Long) (f : Flags) (s : State) : Prop :=
  ∃ t, exec i s = .next t ∧ t.dreg r = x ∧ (∀ k, k ≠ r → t.dreg k = s.dreg k) ∧ SameMem s t ∧
    OnlyEaStep .word src s t ∧ t.flags = f ∧ Finished i s t

theorem completesDn_of_exec {x : Long} {f : Flags} (ht : exec i s = .next t) (h : DnReplaced src r x f s t) :
    CompletesDn i src r x f s :=
  ⟨t, ht, h.written, h.others, h.mem, h.areg, h.flags, finished_of_exec ht h.draws⟩

theorem exec_divs (src : Ea) (dst : Reg) (s : State) :
    exec (.divs src dst) s = divide divideSigned src dst s := rfl

theorem exec_divu (src : Ea) (dst : Reg) (s : State) :
    exec (.divu src dst) s = divide divideUnsigned src dst s := rfl

end

/-! ### What a completed divide leaves (rule R162) -/

section
variable (src : Ea) (r : Reg) (s : State) {v : Word} (len : Nat)

/-- What V, Dn and the rest hold after DIVS with a divisor that is not zero. -/
theorem divideSigned_meaning (hv : v ≠ 0#16) :
    let t := divideSigned v r len (resolveEa .word src s).2
    let n := s.dreg r
    let q := ((t.dreg r).extractLsb' 0 16).toInt
    let rem := ((t.dreg r).extractLsb' 16 16).toInt
    (t.flags.v = true ↔ quotS n v < -32768 ∨ 32767 < quotS n v) ∧ (t.flags.v = true → NothingStored s t) ∧
      (t.flags.v = false → n.toInt = q * v.toInt + rem ∧ rem.natAbs < v.toInt.natAbs ∧
        (0 ≤ n.toInt → 0 ≤ rem) ∧ (n.toInt ≤ 0 → rem ≤ 0)) := by
  intro t n q rem
  by_cases hout : quotS n v < -32768 ∨ 32767 < quotS n v
  · have hkept : OperandsKept src s t := divideSigned_keeps_operands ((outsideSigned_iff 16 _).2 hout)
    exact ⟨iff_of_true hkept.v hout, fun _ => hkept.stored,
      fun hclear => absurd hkept.v (Bool.eq_false_iff.1 hclear)⟩
  · have hlo : -32768 ≤ quotS n v := by omega
    have hhi : quotS n v ≤ 32767 := by omega
    obtain ⟨hwritten, -, -, -, hflags, -⟩ : DnReplaced src r _ _ s t := divideSigned_replaces hlo hhi
    have hset : ¬ t.flags.v = true := by simp [hflags]
    have hq : q = quotS n v := by
      simp only [q, hwritten, BitVec.extractLsb'_append_eq_right]
      exact toInt_ofInt_word hlo hhi
    have hrem : rem = remS n v := by
      simp only [rem, hwritten, BitVec.extractLsb'_append_eq_left]
      exact toInt_ofInt_remS n hv
    refine ⟨iff_of_false hset hout, fun h => absurd h hset, fun _ => ?_⟩
    rw [hq, hrem]
    exact ⟨(quotS_mul_add_remS n v).symm, natAbs_remS_lt n hv, remS_nonneg v, remS_nonpos v⟩

/-- What V, Dn and the rest hold after DIVU with a divisor that is not zero. -/
theorem divideUnsigned_meaning (hv : v ≠ 0#16) :
    let t := divideUnsigned v r len (resolveEa .word src s).2
    let n := s.dreg r
    let q := ((t.dreg r).extractLsb' 0 16).toNat
    let rem := ((t.dreg r).extractLsb' 16 16).toNat
    (t.flags.v = true ↔ 65535 < quotU n v) ∧ (t.flags.v = true → NothingStored s t) ∧
      (t.flags.v = false → n.toNat = q * v.toNat + rem ∧ rem < v.toNat) := by
  intro t n q rem
  by_cases hover : 65535 < quotU n v
  · have hkept : OperandsKept src s t := divideUnsigned_keeps_operands hover
    exact ⟨iff_of_true hkept.v hover, fun _ => hkept.stored,
      fun hclear => absurd hkept.v (Bool.eq_false_iff.1 hclear)⟩
  · have hfits : quotU n v ≤ 65535 := Nat.le_of_not_lt hover
    obtain ⟨hwritten, -, -, -, hflags, -⟩ : DnReplaced src r _ _ s t := divideUnsigned_replaces hfits
    have hset : ¬ t.flags.v = true := by simp [hflags]
    have hq : q = quotU n v := by
      simp only [q, hwritten, BitVec.extractLsb'_append_eq_right]
      exact toNat_ofNat_word hfits
    have hmod : n.toNat % v.toNat < v.toNat := Nat.mod_lt _ (toNat_pos_of_ne_zero hv)
    have hrem : rem = n.toNat % v.toNat := by
      simp only [rem, hwritten, BitVec.extractLsb'_append_eq_left]
      exact Nat.mod_eq_of_lt (hmod.trans v.isLt)
    refine ⟨iff_of_false hset hover, fun h => absurd h hset, fun _ => ?_⟩
    rw [hq, hrem]
    exact ⟨(Nat.div_add_mod' _ _).symm, hmod⟩

end

end Sys2Proof.Machine

/-! ### The obligations, outside the namespace of the model, where Divide.lean has a `divideSigned` -/

namespace Sys2Proof
open Machine

/-- Settles O27: the source's stop, the trap and the divide in the order of `divide_eq`, the divide by whether the
truncated quotient is in the signed 16-bit range. -/
theorem divideSigned : Obligations.DivideSigned := by
  intro src dst s i p v q rem _hwf
  have hexec : exec i s = divide Machine.divideSigned src dst s := exec_divs src dst s
  have hnext (ha : accessStop .read .word p.1 p.2 = none) (hv : v ≠ 0#16) :=
    hexec.trans (divide_eq_next_iff.2 ⟨ha, hv, rfl⟩)
  refine ⟨fun ha hv hlo hhi => ?fits, fun ha hv hout => ?overflow, trapsOnZero_divide hexec, operandStops_divide hexec⟩
  case fits => exact completesDn_of_exec (hnext ha hv) (divideSigned_replaces hlo hhi)
  case overflow =>
    exact completesOverflow_of_exec rfl (hnext ha hv) (divideSigned_keeps_operands ((outsideSigned_iff 16 q).2 hout))

/-- Settles O28: as DIVS, the divide by whether the quotient has at most sixteen bits. -/
theorem divideUnsigned : Obligations.DivideUnsigned := by
  intro src dst s i p v q rem _hwf
  have hexec : exec i s = divide Machine.divideUnsigned src dst s := exec_divu src dst s
  have hnext (ha : accessStop .read .word p.1 p.2 = none) (hv : v ≠ 0#16) :=
    hexec.trans (divide_eq_next_iff.2 ⟨ha, hv, rfl⟩)
  refine ⟨fun ha hv hfits => ?fits, fun ha hv hover => ?overflow, trapsOnZero_divide hexec, operandStops_divide hexec⟩
  case fits => exact completesDn_of_exec (hnext ha hv) (divideUnsigned_replaces hfits)
  case overflow => exact completesOverflow_of_exec rfl (hnext ha hv) (divideUnsigned_keeps_operands hover)

/-- Settles O29: a divide that completes had a divisor that is not zero, and V, quotient and remainder are those of
`divideSigned_meaning` and `divideUnsigned_meaning`. -/
theorem divideMeaning : Obligations.DivideMeaning := by
  refine ⟨?signed, ?unsigned⟩
  case signed =>
    intro src dst s t p n v q rem ht
    obtain ⟨-, hv, rfl⟩ := divide_eq_next_iff.1 ((exec_divs src dst s).symm.trans ht)
    exact divideSigned_meaning src dst s _ hv
  case unsigned =>
    intro src dst s t p n v q rem ht
    obtain ⟨-, hv, rfl⟩ := divide_eq_next_iff.1 ((exec_divu src dst s).symm.trans ht)
    obtain ⟨hover, hkept, hfits⟩ := divideUnsigned_meaning src dst s (2 + src.extBytes .word) hv
    exact ⟨hover, hover.trans (quotU_overflow_iff_le_upper _ hv), hkept, hfits⟩

end Sys2Proof

/-! ## Sign extend (spec/44_sign_extend.md rule R170) -/

namespace Sys2Proof.Machine

theorem testFlags_test {n : Nat} (f : Flags) (r : BitVec n) : TestFlags r f (f.test r) := ⟨rfl, rfl, rfl, rfl, rfl⟩

/-- The low part in the words of rule R170: bits n-1..0. -/
theorem lowPart_eq_extractLsb' (sz : Size) (x : Long) : lowPart sz x = x.extractLsb' 0 sz.bits :=
  BitVec.setWidth_eq_extractLsb' (bits_le sz)

/-- A Long result replaces all of a register. -/
theorem mergeLow_long (old v : Long) : mergeLow .long old v = v :=
  (BitVec.setWidth_eq (mergeLow .long old v)).symm.trans (lowPart_mergeLow .long old v)

/-! ### Both sizes store their result in Dn as one to a location -/

/-- The instruction completes with `r` in the low part of Dn, the other operands kept and the flags of `r`. -/
def CompletesTest (i : Instr) (sz : Size) (dst : Reg) (r : BitVec sz.bits) (s : State) : Prop :=
  ∃ t, exec i s = .next t ∧ WrittenDn sz dst r s t ∧ SameMem s t ∧ SameA s t ∧ TestFlags r s.flags t.flags ∧
    Finished i s t

theorem completesTest_of_exec {i : Instr} {sz : Size} {dst : Reg} {r : BitVec sz.bits} {s : State} {len : Nat}
    (hexec : exec i s = .next (((putLoc sz (.dreg dst) r s).setFlags (s.flags.test r)).advance len)) :
    CompletesTest i sz dst r s := by
  obtain ⟨⟨hwritten, hmem⟩, hareg, hflags, hdraws⟩ :=
    resultStored_putLoc (loc := .dreg dst) (s := s) (s1 := s) rfl rfl rfl rfl r (s.flags.test r) len
  exact ⟨_, hexec, hwritten, hmem, hareg, hflags ▸ testFlags_test s.flags r, finished_of_exec hexec hdraws⟩

theorem exec_extW (dst : Reg) (s : State) :
    let r : Word := ((s.dreg dst).extractLsb' 0 8).signExtend 16
    exec (.extW dst) s = .next (((putLoc .word (.dreg dst) r s).setFlags (s.flags.test r)).advance 2) := by
  intro r
  have hr : (lowPart .byte (s.dreg dst)).signExtend 16 = r :=
    congrArg (BitVec.signExtend 16) (lowPart_eq_extractLsb' .byte (s.dreg dst))
  rw [← hr]
  rfl

/-- EXT.L replaces the whole register, which is what a store of a Long does. -/
theorem exec_extL (dst : Reg) (s : State) :
    let r : Long := ((s.dreg dst).extractLsb' 0 16).signExtend 32
    exec (.extL dst) s = .next (((putLoc .long (.dreg dst) r s).setFlags (s.flags.test r)).advance 2) := by
  intro r
  have hr : signExtend32 (lowPart .word (s.dreg dst)) = r :=
    congrArg (BitVec.signExtend 32) (lowPart_eq_extractLsb' .word (s.dreg dst))
  have hput : putLoc .long (.dreg dst) r s = s.setDreg dst r :=
    congrArg (s.setDreg dst) (mergeLow_long (s.dreg dst) r)
  rw [hput, ← hr]
  rfl

/-- Settles O31: neither size can stop, and each stores its result in Dn at its own width. -/
theorem signExtend : Obligations.SignExtend := fun dst s =>
  ⟨completesTest_of_exec (exec_extW dst s), completesTest_of_exec (exec_extL dst s)⟩

end Sys2Proof.Machine

/-! ## The Multiply family (spec/45_multiply.md rules R175, R176) -/

namespace Sys2Proof.Machine

/-! ### Thirty-two bits hold every product of two Words -/

theorem toInt_productS (d v : Word) : (productS d v).toInt = d.toInt * v.toInt := by
  have hlo : -2 ^ 30 ≤ d.toInt * v.toInt := BitVec.le_toInt_mul_toInt
  have hhi : d.toInt * v.toInt ≤ 2 ^ 30 := BitVec.toInt_mul_toInt_le
  exact BitVec.toInt_ofInt_eq_self (by decide) (by omega) (by omega)

theorem toNat_productU (d v : Word) : (productU d v).toNat = d.toNat * v.toNat :=
  Nat.mod_eq_of_lt BitVec.toNat_mul_toNat_lt

/-! ### How a multiply completes and stops -/

/-- The instruction on `src` completes with a result that `isProduct` accepts in all of Dr and the flags of that result. -/
def CompletesProduct (i : Instr) (src : Ea) (r : Reg) (isProduct : Long → Prop) (s : State) : Prop :=
  ∃ t, exec i s = .next t ∧ isProduct (t.dreg r) ∧ (∀ k, k ≠ r → t.dreg k = s.dreg k) ∧ SameMem s t ∧
    OnlyEaStep .word src s t ∧ TestFlags (t.dreg r) s.flags t.flags ∧ Finished i s t

section
variable {i : Instr} {src : Ea} {r : Reg} {s : State}

theorem CompletesDn.completesProduct {isProduct : Long → Prop} {x : Long} (hx : isProduct x)
    (h : CompletesDn i src r x (s.flags.test x) s) : CompletesProduct i src r isProduct s := by
  obtain ⟨t, ht, rfl, hothers, hmem, hareg, hflags, hfinished⟩ := h
  exact ⟨t, ht, hx, hothers, hmem, hareg, hflags ▸ testFlags_test s.flags _, hfinished⟩

/-- A multiply has one operand to access: it stores the product and tests it, or meets that access's stop. -/
theorem multiply_completes_or_stops {product : Word → Word → Long} {isProduct : Long → Prop}
    (hexec : exec i s = multiply product src r s)
    (hproduct : isProduct (product (lowPart .word (s.dreg r))
      (locValue .word (resolveEa .word src s).1 (resolveEa .word src s).2))) :
    (accessStop .read .word (resolveEa .word src s).1 (resolveEa .word src s).2 = none →
      CompletesProduct i src r isProduct s) ∧ OperandStops .read i .word src s := by
  rw [multiply_eq] at hexec
  refine ⟨fun ha => ?completes, fun f hf => ?stops⟩
  case completes =>
    simp only [ha, orStop_none] at hexec
    exact (completesDn_of_exec hexec (dnReplaced_finishDn src r _ _ _ s)).completesProduct hproduct
  case stops => simp only [hexec, hf, orStop_some]

theorem exec_muls (src : Ea) (dst : Reg) (s : State) : exec (.muls src dst) s = multiply productS src dst s := rfl

theorem exec_mulu (src : Ea) (dst : Reg) (s : State) : exec (.mulu src dst) s = multiply productU src dst s := rfl

end

/-- Settles O32: a multiply stores its product, which at 32 bits does not overflow as a signed number. -/
theorem multiplySigned : Obligations.MultiplySigned := by
  intro src dst s i p d v _hwf
  exact multiply_completes_or_stops (isProduct := fun x => x.toInt = d.toInt * v.toInt) (exec_muls src dst s)
    (toInt_productS d v)

/-- Settles O33: as MULS, with the product of unsigned numbers. -/
theorem multiplyUnsigned : Obligations.MultiplyUnsigned := by
  intro src dst s i p d v _hwf
  exact multiply_completes_or_stops (isProduct := fun x => x.toNat = d.toNat * v.toNat) (exec_mulu src dst s)
    (toNat_productU d v)

end Sys2Proof.Machine

/-! ## The Negate family (spec/46_negate.md rules R185, R186) -/

namespace Sys2Proof.Machine

/-! ### The flags of a difference that is stored -/

section
variable {n : Nat} (hn : 0 < n) (d v : BitVec n) (f : Flags) (xin : Bool)
include hn

/-- SUB and NEG set N, V and C as a comparison does. -/
theorem subNVC_arith : SubNVC d v xin (f.arith (subN d v xin)) := subNVC_compare d v f hn xin

/-- SUBX and NEGX set N, V and C as a comparison does. -/
theorem subNVC_extended : SubNVC d v xin (f.extended (subN d v xin)) := subNVC_compare d v f hn xin

end

section
variable {n : Nat} {d : BitVec n} {f : Flags} {xin : Bool}

/-- Anything but zero borrows when it is taken from zero. -/
theorem SubNVC.c_of_zero_minus (h : SubNVC 0 d xin f) : f.c = (xin || decide (d ≠ 0)) := by
  obtain ⟨-, -, hc⟩ := h
  have hpos : 0 < d.toNat ↔ d ≠ 0#n := by
    rw [Nat.pos_iff_ne_zero, ne_eq, ne_eq, ← BitVec.toNat_inj, BitVec.toNat_zero]
  cases xin with
  | false => simpa [hpos] using hc
  | true => simpa using hc

/-- The most negative value is the only negative one whose negation is negative too. -/
theorem SubNVC.v_of_zero_minus (hn : 0 < n) (h : SubNVC 0 d false f) : f.v = decide (d.toNat = 2 ^ (n - 1)) := by
  obtain ⟨-, hv, -⟩ := h
  have hmin : d.toNat = 2 ^ (n - 1) ↔ d = BitVec.intMin n := by
    rw [← BitVec.toNat_inj, BitVec.toNat_intMin_of_pos hn]
  have hboth : f.v = (d.msb && (-d).msb) := by simpa using hv
  simp only [hboth, hmin]
  by_cases h : d = BitVec.intMin n
  · simp [h, BitVec.msb_intMin, hn]
  · cases hd : d.msb with
    | false => simp [h]
    | true =>
      have hne : d ≠ 0#n := by
        rintro rfl
        simp at hd
      simp [h, hd, hne]

end

/-! ### Storing a difference -/

section
variable {i : Instr} {sz : Size} {loc : Loc} {d v : BitVec sz.bits} {s s1 t : State}

/-- The instruction has stored a difference without borrow in. -/
theorem difference_stored {ea : Ea} (ht : exec i s = .next t)
    (h : ResultStored sz loc (subN d v false).value (s.flags.arith (subN d v false)) s (resolveEa sz ea s).2 t) :
    StoredAt sz loc (d - v) s t ∧ OnlyEaStep sz ea s t ∧ SubNVC d v false t.flags ∧ ZeroZ (d - v) t.flags ∧
      t.flags.x = t.flags.c ∧ Finished i s t := by
  obtain ⟨hstored, hareg, hflags, hdraws⟩ := h
  refine ⟨subN_value_no_borrow d v ▸ hstored, onlyEaStep_of_sameA hareg, ?_, ?_, ?_, finished_of_exec ht hdraws⟩
  · rw [hflags]
    exact subNVC_arith (bits_pos sz) d v s.flags false
  · rw [hflags, ← subN_value_no_borrow]
    exact zeroZ_arith _ _
  · rw [hflags]
    rfl

/-- The instruction has stored a difference with X as the borrow in. -/
theorem extended_difference_stored (ht : exec i s = .next t)
    (h : ResultStored sz loc (subN d v s.flags.x).value (s.flags.extended (subN d v s.flags.x)) s s1 t) :
    let r := d - v - BitVec.ofNat sz.bits s.flags.x.toNat
    StoredAt sz loc r s t ∧ SameA s1 t ∧ SubNVC d v s.flags.x t.flags ∧ StickyZ r s.flags t.flags ∧
      t.flags.x = t.flags.c ∧ Finished i s t := by
  intro r
  obtain ⟨hstored, hareg, hflags, hdraws⟩ := h
  have hvalue : (subN d v s.flags.x).value = r := subN_value d v s.flags.x
  refine ⟨hvalue ▸ hstored, hareg, ?_, ?_, ?_, finished_of_exec ht hdraws⟩
  · rw [hflags]
    exact subNVC_extended (bits_pos sz) d v s.flags s.flags.x
  · rw [hflags, ← hvalue]
    exact stickyZ_extended _ _
  · rw [hflags]
    rfl

end

/-- Settles O34: NEG stores the difference from zero; `SubNVC` tells when zero minus a number borrows and overflows. -/
theorem negateOperand : Obligations.NegateOperand := by
  intro sz dst s i p d hwf
  have hexec : exec i s = negate sz dst s := exec_neg sz dst s
  have hinfo : i.info = { size := sz, ea := some (.dataAlterable, dst) } := by cases sz <;> rfl
  have hw : writableLoc p.1 = true := writableLoc_of_wf hinfo (.inl rfl) hwf s
  refine ⟨fun ha htext => ?_, storeStops_modifyEa hw hexec⟩
  obtain ⟨t, ht, hresult⟩ := modifyEa_next_stored (fun d => subN 0 d false) Flags.arith _ hw ha htext
  have hnext : exec i s = .next t := hexec.trans ht
  obtain ⟨hstored, hareg, hnvc, hz, hx, hfinished⟩ := difference_stored hnext hresult
  rw [zero_sub] at hstored hz
  have hc : t.flags.c = decide (d ≠ 0) := hnvc.c_of_zero_minus
  exact ⟨t, hnext, hstored, hareg, hnvc, hz, hx, hc, hnvc.v_of_zero_minus (bits_pos sz), hfinished⟩

/-- Settles O35: NEGX stores the difference from zero with X as the borrow in. -/
theorem negateExtended : Obligations.NegateExtended := by
  intro sz dst s i p d r hwf
  have hexec : exec i s = negateX sz dst s := exec_negx sz dst s
  have hinfo : i.info = { size := sz, ea := some (.dataAlterable, dst) } := by cases sz <;> rfl
  have hw : writableLoc p.1 = true := writableLoc_of_wf hinfo (.inl rfl) hwf s
  refine ⟨fun ha htext => ?_, storeStops_modifyEa hw hexec⟩
  obtain ⟨t, ht, hresult⟩ := modifyEa_next_stored (fun d => subN 0 d s.flags.x) Flags.extended _ hw ha htext
  have hnext : exec i s = .next t := hexec.trans ht
  obtain ⟨hstored, hareg, hnvc, hz, hx, hfinished⟩ := extended_difference_stored hnext hresult
  exact ⟨t, hnext, hstored, onlyEaStep_of_sameA hareg, hnvc, hz, hx, hnvc.c_of_zero_minus, hfinished⟩

end Sys2Proof.Machine

/-! ## The Subtract family (spec/47_subtract.md rules R195 to R204, spec/00_scope.md rule R10) -/

namespace Sys2Proof.Machine

/-- Settles O8: value and borrow are the model's own, both forms of the overflow are `subN_overflow_iff` and
`subN_overflow_eq_msb` at the width of the operand size. -/
theorem subtractionPrimitive : Obligations.SubtractionPrimitive := by
  intro sz d s xin
  refine ⟨toNat_subN d s xin, decide_eq_decide.2 ?borrow, ?overflow, subN_overflow_eq_msb (bits_pos sz) d s xin⟩
  case borrow => omega
  case overflow => exact Bool.eq_iff_iff.2 ((subN_overflow_iff d s xin).trans decide_eq_true_iff.symm)

/-! ### How a subtraction completes and stops -/

section
variable {i : Instr} {sz : Size} {s : State}

/-- An instruction that subtracts from one operand and stores the difference there, or stops. -/
theorem subtraction_completes_or_stops {dst : Ea} {v : BitVec sz.bits} {len : Nat}
    (hw : writableLoc (resolveEa sz dst s).1 = true)
    (hexec : exec i s = modifyEa sz (fun d => subOp d v) Flags.arith dst len s) :
    let p := resolveEa sz dst s
    let d := locValue sz p.1 p.2
    (accessStop .read sz p.1 p.2 = none → textStop sz p.1 p.2 = none →
      ∃ t, exec i s = .next t ∧ StoredAt sz p.1 (d - v) s t ∧ OnlyEaStep sz dst s t ∧
        SubNVC d v false t.flags ∧ ZeroZ (d - v) t.flags ∧ t.flags.x = t.flags.c ∧ Finished i s t) ∧
    StoreStops .read i sz dst s := by
  refine ⟨fun ha htext => ?_, storeStops_modifyEa hw hexec⟩
  obtain ⟨t, ht, hresult⟩ := modifyEa_next_stored (fun d => subOp d v) Flags.arith len hw ha htext
  exact ⟨t, hexec.trans ht, difference_stored (hexec.trans ht) hresult⟩

/-- An instruction that combines An with its source and sets no flag: by whether the source steps An itself. -/
theorem sourceToAn_completes_or_stops {op : Long → Long → Long} {src : Ea} {r : Reg}
    (hexec : exec i s = sourceToAn sz op src r s) :
    let p := resolveEa sz src s
    let v := (locValue sz p.1 p.2).signExtend 32
    let overlap := src = .postInc r ∨ src = .preDec r
    (¬ overlap → accessStop .read sz p.1 p.2 = none →
      ∃ t, exec i s = .next t ∧ t.areg r = op (s.areg r) v ∧ (∀ q, q ≠ r → t.areg q = eaAreg sz src s q) ∧
        NothingStored s t ∧ t.flags = s.flags ∧ Finished i s t) ∧
    (¬ overlap → OperandStops .read i sz src s) ∧
    (overlap → exec i s = .refused (.overlapUnspecified s)) := by
  refine ⟨fun hne ha => ?completes, fun hne f hf => ?operand, fun hov => ?overlap⟩
  case completes =>
    obtain ⟨t, ht, hdst, hareg, hstored, hflags, hdraws⟩ := sourceToAn_next op (mt overlaps_iff.1 hne) ha
    exact ⟨t, hexec.trans ht, hdst, fun q hq => (hareg q hq).trans (areg_resolveEa sz src s q), hstored, hflags,
      finished_of_exec (hexec.trans ht) hdraws⟩
  case operand => rw [hexec, sourceToAn_apart _ (mt overlaps_iff.1 hne), hf, orStop_some]
  case overlap => rw [hexec, sourceToAn_overlap _ (overlaps_iff.2 hov)]

end

/-- Settles O36: `sourceToDn` answers by its equation, and its store to Dn is one to a location. -/
theorem subtractFromDataRegister : Obligations.SubtractFromDataRegister := by
  intro sz src dst s i p d v _hwf
  have hexec : exec i s = sourceToDn sz subOp src dst s := exec_subEaDn sz src dst s
  refine ⟨fun ha => ?_, operandStops_sourceToDn hexec⟩
  obtain ⟨t, ht, hresult⟩ := sourceToDn_next subOp ha
  obtain ⟨⟨hwritten, hmem⟩, hrest⟩ := difference_stored (hexec.trans ht) hresult
  exact ⟨t, hexec.trans ht, hwritten, hmem, hrest⟩

/-- Settles O37: SUB `Dn,<ea>` subtracts from one operand, which alterable memory lets it store to. -/
theorem subtractFromMemory : Obligations.SubtractFromMemory := by
  intro sz src dst s i p d v hwf
  have hinfo : i.info = { size := sz, ea := some (.alterableMemory, dst) } := by cases sz <;> rfl
  exact subtraction_completes_or_stops (writableLoc_of_wf hinfo (.inr rfl) hwf s) (exec_subDnEa sz src dst s)

/-- Settles O38: SUBA takes its source from An. -/
theorem subtractFromAddressRegister : Obligations.SubtractFromAddressRegister := by
  intro long src dst s sz i p v overlap _hwf
  exact sourceToAn_completes_or_stops (exec_suba long src dst s)

/-- Settles O39: SUBI subtracts from one operand, which is data alterable. -/
theorem subtractImmediate : Obligations.SubtractImmediate := by
  intro sz imm dst s i p d v hwf
  have hinfo : i.info = { size := sz, hasImm := true, ea := some (.dataAlterable, dst) } := by cases sz <;> rfl
  exact subtraction_completes_or_stops (writableLoc_of_wf hinfo (.inl rfl) hwf s) (exec_subi sz imm dst s)

/-- Settles O40: an address register by `quickToAn`, every other destination as SUBI. -/
theorem subtractQuick : Obligations.SubtractQuick := by
  intro sz q dst s i p d v hwf
  have hexec : exec i s = quick sz (fun a q => a - q) subOp q dst s := exec_subq sz q dst s
  refine ⟨fun r hr => ?onAn, fun hne => ?onData⟩
  case onAn =>
    obtain ⟨t, ht, hdst, hareg, hstored, hflags, hdraws⟩ := quickToAn_next (fun a q => a - q) q r s
    have hnext : exec i s = .next t := by rw [hexec, hr]; exact ht
    exact ⟨t, hnext, hdst, hareg, hstored, hflags, finished_of_exec hnext hdraws⟩
  case onData =>
    have hinfo : i.info = { size := sz, quick := some q, ea := some (.alterable, dst) } := by cases sz <;> rfl
    obtain ⟨hallows, -, -⟩ := (wf_iff_of_info hinfo).1 hwf
    exact subtraction_completes_or_stops (writableLoc_of_alterable hallows hne s)
      (hexec.trans (quick_eq_modifyEa hne s))

/-- Settles O41: no operand of `Dy,Dx` can stop. -/
theorem subtractExtendedRegisters : Obligations.SubtractExtendedRegisters := by
  intro sz src dst s i d v r
  have hexec : exec i s = extendedDn sz subN src dst s := exec_subxReg sz src dst s
  obtain ⟨t, ht, hresult⟩ := extendedDn_next subN src dst
  obtain ⟨⟨hwritten, hmem⟩, hrest⟩ := extended_difference_stored (hexec.trans ht) hresult
  exact ⟨t, hexec.trans ht, hwritten, hmem, hrest⟩

/-- Settles O42: the stops in the order of `extendedMem_eq`, and the difference when none of them is met. -/
theorem subtractExtendedMemory : Obligations.SubtractExtendedMemory := by
  intro sz src dst s i p q v d r
  have hexec : exec i s = extendedMem sz subN src dst s := exec_subxMem sz src dst s
  refine ⟨fun hsrc hdst htext => ?completes, pairStops_extendedMem hexec, fun e hsrc hdst htext => ?text⟩
  case completes =>
    obtain ⟨t, ht, hresult⟩ := extendedMem_next_stored subN src dst hsrc hdst htext
    obtain ⟨hstored, hareg, hflags⟩ := extended_difference_stored (hexec.trans ht) hresult
    exact ⟨t, hexec.trans ht, hstored, onlyEaStep_of_sameA hareg, hflags⟩
  case text => exact hexec.trans (extendedMem_text hsrc hdst htext)

end Sys2Proof.Machine

/-! ## The Testing family (spec/48_test.md rules R216, R217) -/

namespace Sys2Proof.Machine

section
variable {dst : Ea} {s : State} {i : Instr}

theorem testAndSet_next_stored (hw : writableLoc (resolveEa .byte dst s).1 = true)
    (ha : accessStop .read .byte (resolveEa .byte dst s).1 (resolveEa .byte dst s).2 = none)
    (ht : textStop .byte (resolveEa .byte dst s).1 (resolveEa .byte dst s).2 = none) :
    let p := resolveEa .byte dst s
    let d : Byte := locValue .byte p.1 p.2
    ∃ t, testAndSet dst s = .next t ∧ ResultStored .byte p.1 (d ||| 0x80#8) (s.flags.test d) s p.2 t := by
  refine ⟨_, (testAndSet_eq dst s hw).trans ?_, resultStored_putLoc (d_resolveEa .byte dst s)
    (mem_resolveEa .byte dst s) (draws_resolveEa .byte dst s) hw _ _ (2 + dst.extBytes .byte)⟩
  simp only [ha, ht]

theorem storeStops_testAndSet (hw : writableLoc (resolveEa .byte dst s).1 = true)
    (hexec : exec i s = testAndSet dst s) : StoreStops .read i .byte dst s := by
  rw [testAndSet_eq dst s hw] at hexec
  refine ⟨fun f hf => ?_, fun e ha ht => ?_⟩
  · simp only [hexec, hf]
  · simp only [hexec, ha, ht]

end

/-- Settles O43: a well-formed TAS has a data alterable operand, so that it is read, tested and stored back with bit 7
set, or one of its stops is met. -/
theorem testAndSetByte : Obligations.TestAndSetByte := by
  intro dst s i p d hwf
  have hexec : exec i s = testAndSet dst s := rfl
  have hinfo : i.info = { size := .byte, ea := some (.dataAlterable, dst) } := rfl
  have hw : writableLoc p.1 = true := writableLoc_of_wf hinfo (.inl rfl) hwf s
  refine ⟨fun ha htext => ?_, storeStops_testAndSet hw hexec⟩
  obtain ⟨t, ht, hstored, hareg, hflags, hdraws⟩ := testAndSet_next_stored hw ha htext
  exact ⟨t, hexec.trans ht, hstored, onlyEaStep_of_sameA hareg, hflags ▸ testFlags_test s.flags d,
    finished_of_exec (hexec.trans ht) hdraws⟩

/-- Settles O44: TST accesses its operand alone, to read it. -/
theorem testOperand : Obligations.TestOperand := by
  intro sz dst s i p d _hwf
  have hexec : exec i s = orStop (accessStop .read sz p.1 p.2)
      ((p.2.setFlags (s.flags.test d)).advance (2 + dst.extBytes sz)) :=
    (exec_tst sz dst s).trans (testEa_eq sz dst s)
  refine ⟨fun ha => ?completes, fun f hf => ?stops⟩
  case completes =>
    rw [ha, orStop_none] at hexec
    exact ⟨_, hexec, nothingStored_resolveEa sz dst s, areg_resolveEa sz dst s, testFlags_test s.flags d,
      finished_of_exec hexec (draws_resolveEa sz dst s)⟩
  case stops => rw [hexec, hf, orStop_some]

end Sys2Proof.Machine

/-! ## Stops and their causes (spec/60_exceptions.md rules R230, R232 to R235) -/

namespace Sys2Proof.Machine

/-! ### The registers that operands step -/

/-- Every address register that the mode of `ea` steps is one that the instruction steps. -/
def StepsOperand (i : Instr) (ea : Ea) : Prop := ∀ q, eaSteps ea q → stepsRegister i q

section
variable {i : Instr} {r r' : Reg}

theorem stepsOperand_of_info {cat : Category} {ea : Ea} (hea : i.info.ea = some (cat, ea)) : StepsOperand i ea := by
  refine fun q h => .inl ⟨cat, ?_⟩
  rw [hea]
  exact h.imp (congrArg fun e => some (cat, e)) (congrArg fun e => some (cat, e))

theorem stepsRegister_of_pair
    (hi : i = Instr.addxMem i.info.size r r' ∨ i = Instr.subxMem i.info.size r r' ∨ i = Instr.cmpm i.info.size r r') :
    stepsRegister i r ∧ stepsRegister i r' :=
  ⟨.inr ⟨i.info.size, r', by tauto⟩, .inr ⟨i.info.size, r, by tauto⟩⟩

theorem stepsOperand_preDec (h : stepsRegister i r) : StepsOperand i (.preDec r) := by
  rintro q (hq | hq) <;> cases hq
  exact h

theorem stepsOperand_postInc (h : stepsRegister i r) : StepsOperand i (.postInc r) := by
  rintro q (hq | hq) <;> cases hq
  exact h

end

/-! ### Where an instruction can stop -/

/-- `t` is a state at which the instruction started in `s` can stop: its operands' modes may have stepped address
registers, nothing else is written. -/
structure Interrupted (i : Instr) (s t : State) : Prop extends Midway (stepsRegister i) s t where
  d   : t.d = s.d
  mem : t.mem = s.mem

theorem Midway.areg_eq_or {touched : Reg → Prop} {s t : State} (h : Midway touched s t) (q : Reg) :
    t.areg q = s.areg q ∨ touched q := or_iff_not_imp_left.2 (h.areg q)

section
variable {i : Instr} {s t : State}

theorem Interrupted.refl (i : Instr) (s : State) : Interrupted i s s := ⟨.refl _ s, rfl, rfl⟩

theorem Interrupted.resolveEa (h : Interrupted i s t) (sz : Size) {ea : Ea}
    (hea : StepsOperand i ea) : Interrupted i s (resolveEa sz ea t).2 where
  toMidway := h.toMidway.resolveEa sz hea
  d := (d_resolveEa sz ea t).trans h.d
  mem := (mem_resolveEa sz ea t).trans h.mem

theorem Interrupted.terminalOf (h : Interrupted i s t) : TerminalOf i s t :=
  ⟨h.d, h.mem, h.pc, h.layout, congrArg Flags.x h.flags, h.areg_eq_or⟩

theorem Interrupted.terminalOf_trapState (h : Interrupted i s t) : TerminalOf i s (trapState t) :=
  ⟨h.d, h.mem, h.pc, h.layout, (x_trapState t).trans (congrArg Flags.x h.flags), h.areg_eq_or⟩

end

/-! ### What a stop says -/

/-- The faults that an instruction of an operation size can end in, with what is true of each. -/
inductive FaultCause (i : Instr) (sz : Size) (s : State) : Fault → Prop
  | misaligned {kind : AccessKind} {addr : Long} {t : State} (ht : Interrupted i s t) (hsz : sz ≠ .byte)
      (hodd : addr.toNat % 2 = 1) : FaultCause i sz s (.addressError kind sz.bytes addr t)
  | unmapped {addr : Long} {t : State} (ht : Interrupted i s t)
      (hout : ∃ k < sz.bytes, t.layout.admits (addr + BitVec.ofNat 32 k) = false) :
      FaultCause i sz s (.accessFault addr t)
  | zeroDivide {src : Ea} {dst : Reg} {t : State} (ht : TerminalOf i s t) (hi : i = .divs src dst ∨ i = .divu src dst)
      (hzero : (locValue .word (resolveEa .word src s).1 (resolveEa .word src s).2 : Word) = 0#16)
      (hstep : OnlyEaStep .word src s t) : FaultCause i sz s (.zeroDivide t)

/-- The refusals that a well-formed instruction of an operation size can end in, with what is true of each. -/
inductive RefusalCause (i : Instr) (sz : Size) (s : State) : Refusal → Prop
  | programText {addr : Long} {t : State} (ht : Interrupted i s t)
      (hin : ∃ k < sz.bytes, t.layout.inText (addr + BitVec.ofNat 32 k) = true) :
      RefusalCause i sz s (.writeToProgramText addr t)
  | overlap {long : Bool} {src : Ea} {dst : Reg} (hov : src = .postInc dst ∨ src = .preDec dst)
      (hi : i = Instr.adda long src dst ∨ i = Instr.suba long src dst ∨ i = Instr.cmpa long src dst) :
      RefusalCause i sz s (.overlapUnspecified s)

section
variable {i : Instr} {sz : Size} {loc : Loc} {s t : State}

theorem faultCause_of_accessStop {kind : AccessKind} {f : Fault} (ht : Interrupted i s t)
    (h : accessStop kind sz loc t = some f) : FaultCause i sz s f := by
  cases loc with
  | mem addr =>
    by_cases hal : aligned sz addr = false
    · cases (accessStop_misaligned hal).symm.trans h
      obtain ⟨hsz, hodd⟩ := (aligned_eq_false_iff sz addr).1 hal
      exact .misaligned ht hsz hodd
    · by_cases hmap : allBytes t.layout.admits addr sz.bytes = false
      · cases (accessStop_unmapped hal hmap).symm.trans h
        exact .unmapped ht ((allBytes_eq_false_iff _ addr _).1 hmap)
      · cases (accessStop_mapped hal hmap).symm.trans h
  | _ => cases h

theorem refusalCause_of_textStop {r : Refusal} (ht : Interrupted i s t) (h : textStop sz loc t = some r) :
    RefusalCause i sz s r := by
  cases loc with
  | mem addr =>
    by_cases hin : anyByte t.layout.inText addr sz.bytes = true
    · cases (if_pos hin).symm.trans h
      exact .programText ht ((anyByte_eq_true_iff _ addr _).1 hin)
    · cases (if_neg hin).symm.trans h
  | _ => cases h

end

/-! ### The parts of an instruction, composed -/

/-- If the part of an instruction started in `s` stops, then for one of the causes above; that it is refused for none
but them needs a well-formed instruction. -/
structure StopsWithCause {α : Type} (i : Instr) (sz : Size) (s : State) (o : Result α) : Prop where
  fault   : ∀ f, o = .fault f → FaultCause i sz s f
  refused : ∀ r, o = .refused r → i.wf = true → RefusalCause i sz s r

section
variable {α β : Type} {i : Instr} {sz : Size} {s : State}

theorem StopsWithCause.of_next {x : α} : StopsWithCause i sz s (.next x) := ⟨nofun, nofun⟩

theorem StopsWithCause.of_fault {f : Fault} (h : FaultCause i sz s f) : StopsWithCause (α := α) i sz s (.fault f) :=
  ⟨by rintro _ ⟨⟩; exact h, nofun⟩

theorem StopsWithCause.of_refused {r : Refusal} (h : i.wf = true → RefusalCause i sz s r) :
    StopsWithCause (α := α) i sz s (.refused r) :=
  ⟨nofun, by rintro _ ⟨⟩; exact h⟩

theorem StopsWithCause.andThen {m : Result α} {k : α → Result β} (hm : StopsWithCause i sz s m)
    (hk : ∀ x, m = .next x → StopsWithCause i sz s (k x)) : StopsWithCause i sz s (andThen m k) := by
  cases m with
  | next x => exact hk x rfl
  | fault f => exact .of_fault (hm.fault f rfl)
  | refused r => exact .of_refused (hm.refused r rfl)

end

section
variable {i : Instr} {sz : Size} {src dst : Ea} {r r' : Reg} {s s1 : State}

theorem stopsWithCause_readLoc (h : Interrupted i s s1) (loc : Loc) : StopsWithCause i sz s (readLoc sz loc s1) := by
  rw [readLoc_eq]
  cases hstop : accessStop .read sz loc s1 with
  | some f => exact .of_fault (faultCause_of_accessStop h hstop)
  | none => exact .of_next

theorem stopsWithCause_writeLoc (h : Interrupted i s s1) {loc : Loc} (hw : i.wf = true → writableLoc loc = true)
    (v : BitVec sz.bits) : StopsWithCause i sz s (writeLoc sz loc v s1) := by
  by_cases hloc : writableLoc loc = true
  · rw [writeLoc_eq _ _ _ _ hloc]
    split
    next hstop => exact .of_fault (faultCause_of_accessStop h hstop)
    next =>
      split
      next htext => exact .of_refused fun _ => refusalCause_of_textStop h htext
      next => exact .of_next
  · cases loc with
    | dreg | mem => exact absurd rfl hloc
    | areg | imm => exact .of_refused fun hwf => absurd (hw hwf) hloc

theorem stopsWithCause_readEa (h : Interrupted i s s1) (hea : StepsOperand i src) :
    StopsWithCause i sz s (readEa sz src s1) :=
  (stopsWithCause_readLoc (h.resolveEa sz hea) _).andThen fun _ _ => .of_next

theorem stopsWithCause_readPair (hsrc : StepsOperand i src)
    (hdst : StepsOperand i dst) : StopsWithCause i sz s (readPair sz src dst s) :=
  (stopsWithCause_readEa (.refl i s) hsrc).andThen fun ⟨_, s1⟩ hread => by
    have hs1 : Interrupted i s s1 := readEa_next hread ▸ (Interrupted.refl i s).resolveEa sz hsrc
    exact (stopsWithCause_readLoc (hs1.resolveEa sz hdst) _).andThen fun _ _ => .of_next

theorem stopsWithCause_addressSource {long : Bool} (hea : StepsOperand i src)
    (hi : i = Instr.adda long src r ∨ i = Instr.suba long src r ∨ i = Instr.cmpa long src r) :
    StopsWithCause i sz s (addressSource sz src r s) := by
  by_cases hov : overlaps src r = true
  · rw [addressSource, if_pos hov]
    exact .of_refused fun _ => .overlap (overlaps_iff.1 hov) hi
  · rw [addressSource, if_neg hov]
    exact (stopsWithCause_readEa (.refl i s) hea).andThen fun _ _ => .of_next

/-! ### Every shape -/

theorem stopsWithCause_sourceToDn {op : BitVec sz.bits → BitVec sz.bits → Alu sz.bits}
    (hea : StepsOperand i src) : StopsWithCause i sz s (sourceToDn sz op src r s) :=
  (stopsWithCause_readEa (.refl i s) hea).andThen fun _ _ => .of_next

theorem stopsWithCause_compareDn (hea : StepsOperand i src) :
    StopsWithCause i sz s (compareDn sz src r s) :=
  (stopsWithCause_readEa (.refl i s) hea).andThen fun _ _ => .of_next

theorem stopsWithCause_compareImm {imm : BitVec sz.bits} (hea : StepsOperand i dst) :
    StopsWithCause i sz s (compareImm sz imm dst s) :=
  (stopsWithCause_readEa (.refl i s) hea).andThen fun _ _ => .of_next

theorem stopsWithCause_testEa (hea : StepsOperand i dst) :
    StopsWithCause i sz s (testEa sz dst s) :=
  (stopsWithCause_readEa (.refl i s) hea).andThen fun _ _ => .of_next

theorem stopsWithCause_multiply {product : Word → Word → Long} (hea : StepsOperand i src) :
    StopsWithCause i .word s (multiply product src r s) :=
  (stopsWithCause_readEa (.refl i s) hea).andThen fun _ _ => .of_next

theorem stopsWithCause_divide {how : Word → Reg → Nat → State → State}
    (hea : StepsOperand i src) (hi : i = .divs src r ∨ i = .divu src r) :
    StopsWithCause i .word s (divide how src r s) := by
  have hstepped := (Interrupted.refl i s).resolveEa .word hea
  rw [divide_eq]
  dsimp only
  split
  next hstop => exact .of_fault (faultCause_of_accessStop hstepped hstop)
  next =>
    split
    next hzero =>
      exact .of_fault (.zeroDivide hstepped.terminalOf_trapState hi hzero (areg_resolveEa .word src s))
    next => exact .of_next

theorem stopsWithCause_sourceToAn {op : Long → Long → Long} {long : Bool}
    (hea : StepsOperand i src)
    (hi : i = Instr.adda long src r ∨ i = Instr.suba long src r ∨ i = Instr.cmpa long src r) :
    StopsWithCause i sz s (sourceToAn sz op src r s) :=
  (stopsWithCause_addressSource hea hi).andThen fun _ _ => .of_next

theorem stopsWithCause_compareAn {long : Bool} (hea : StepsOperand i src)
    (hi : i = Instr.adda long src r ∨ i = Instr.suba long src r ∨ i = Instr.cmpa long src r) :
    StopsWithCause i sz s (compareAn sz src r s) :=
  (stopsWithCause_addressSource hea hi).andThen fun _ _ => .of_next

theorem stopsWithCause_modifyEa {op : BitVec sz.bits → Alu sz.bits} {flags : Flags → Alu sz.bits → Flags} {len : Nat}
    (hea : StepsOperand i dst) (hw : i.wf = true → writableLoc (resolveEa sz dst s).1 = true) :
    StopsWithCause i sz s (modifyEa sz op flags dst len s) := by
  have hstepped := (Interrupted.refl i s).resolveEa sz hea
  exact (stopsWithCause_readLoc hstepped _).andThen fun _ _ =>
    (stopsWithCause_writeLoc hstepped hw _).andThen fun _ _ => .of_next

theorem stopsWithCause_quick {onAn : Long → Long → Long} {op : BitVec sz.bits → BitVec sz.bits → Alu sz.bits} {n : Nat}
    (hinfo : i.info = { size := sz, quick := some n, ea := some (.alterable, dst) })
    (hea : StepsOperand i dst) : StopsWithCause i sz s (quick sz onAn op n dst s) := by
  by_cases hdst : ∃ q, dst = .an q
  · obtain ⟨q, rfl⟩ := hdst
    exact .of_next
  · have hne : ∀ q, dst ≠ .an q := fun q hq => hdst ⟨q, hq⟩
    rw [quick_eq_modifyEa hne]
    refine stopsWithCause_modifyEa hea fun hwf => ?_
    obtain ⟨hallows, -, -⟩ := (wf_iff_of_info hinfo).1 hwf
    exact writableLoc_of_alterable hallows hne s

theorem stopsWithCause_clear (hea : StepsOperand i dst)
    (hw : i.wf = true → writableLoc (resolveEa sz dst s).1 = true) : StopsWithCause i sz s (clear sz dst s) :=
  (stopsWithCause_writeLoc ((Interrupted.refl i s).resolveEa sz hea) hw _).andThen fun _ _ => .of_next

theorem stopsWithCause_testAndSet (hea : StepsOperand i dst)
    (hw : i.wf = true → writableLoc (resolveEa .byte dst s).1 = true) :
    StopsWithCause i .byte s (testAndSet dst s) := by
  have hstepped := (Interrupted.refl i s).resolveEa .byte hea
  exact (stopsWithCause_readLoc hstepped _).andThen fun _ _ =>
    (stopsWithCause_writeLoc hstepped hw _).andThen fun _ _ => .of_next

theorem stopsWithCause_compareMem (hpair : stepsRegister i r ∧ stepsRegister i r') :
    StopsWithCause i sz s (compareMem sz r r' s) :=
  (stopsWithCause_readPair (stepsOperand_postInc hpair.1) (stepsOperand_postInc hpair.2)).andThen fun _ _ => .of_next

theorem stopsWithCause_extendedMem {op : BitVec sz.bits → BitVec sz.bits → Bool → Alu sz.bits}
    (hpair : stepsRegister i r ∧ stepsRegister i r') : StopsWithCause i sz s (extendedMem sz op r r' s) := by
  have hfirst := (Interrupted.refl i s).resolveEa sz (stepsOperand_preDec hpair.1)
  have hsecond := hfirst.resolveEa sz (stepsOperand_preDec hpair.2)
  rw [extendedMem_eq]
  dsimp only
  split
  next hstop => exact .of_fault (faultCause_of_accessStop hfirst hstop)
  next =>
    split
    next hstop => exact .of_fault (faultCause_of_accessStop hsecond hstop)
    next =>
      split
      next htext => exact .of_refused fun _ => refusalCause_of_textStop hsecond htext
      next => exact .of_next

end

/-! ### Every instruction -/

/-- The inversion of `exec` for its stops, shape by shape: the statements of rules R230 to R235 are read off it. -/
theorem stopsWithCause_exec (i : Instr) (s : State) : StopsWithCause i i.info.size s (exec i s) := by
  cases i with
  | addEaDnB | addEaDnW | addEaDnL | subEaDnB | subEaDnW | subEaDnL =>
    exact stopsWithCause_sourceToDn (stepsOperand_of_info rfl)
  | addDnEaB | addDnEaW | addDnEaL | subDnEaB | subDnEaW | subDnEaL =>
    exact stopsWithCause_modifyEa (stepsOperand_of_info rfl) fun hwf => writableLoc_of_wf rfl (.inr rfl) hwf s
  | addiB | addiW | addiL | subiB | subiW | subiL | negB | negW | negL | negxB | negxW | negxL =>
    exact stopsWithCause_modifyEa (stepsOperand_of_info rfl) fun hwf => writableLoc_of_wf rfl (.inl rfl) hwf s
  | addqB | addqW | addqL | subqB | subqW | subqL => exact stopsWithCause_quick rfl (stepsOperand_of_info rfl)
  | addxRegB | addxRegW | addxRegL | subxRegB | subxRegW | subxRegL | extW | extL => exact .of_next
  | addxMemB | addxMemW | addxMemL => exact stopsWithCause_extendedMem (stepsRegister_of_pair (.inl rfl))
  | subxMemB | subxMemW | subxMemL => exact stopsWithCause_extendedMem (stepsRegister_of_pair (.inr (.inl rfl)))
  | cmpmB | cmpmW | cmpmL => exact stopsWithCause_compareMem (stepsRegister_of_pair (.inr (.inr rfl)))
  | addaW => exact stopsWithCause_sourceToAn (long := false) (stepsOperand_of_info rfl) (.inl rfl)
  | addaL => exact stopsWithCause_sourceToAn (long := true) (stepsOperand_of_info rfl) (.inl rfl)
  | subaW => exact stopsWithCause_sourceToAn (long := false) (stepsOperand_of_info rfl) (.inr (.inl rfl))
  | subaL => exact stopsWithCause_sourceToAn (long := true) (stepsOperand_of_info rfl) (.inr (.inl rfl))
  | cmpaW => exact stopsWithCause_compareAn (long := false) (stepsOperand_of_info rfl) (.inr (.inr rfl))
  | cmpaL => exact stopsWithCause_compareAn (long := true) (stepsOperand_of_info rfl) (.inr (.inr rfl))
  | cmpB | cmpW | cmpL => exact stopsWithCause_compareDn (stepsOperand_of_info rfl)
  | cmpiB | cmpiW | cmpiL => exact stopsWithCause_compareImm (stepsOperand_of_info rfl)
  | tstB | tstW | tstL => exact stopsWithCause_testEa (stepsOperand_of_info rfl)
  | clrB | clrW | clrL =>
    exact stopsWithCause_clear (stepsOperand_of_info rfl) fun hwf => writableLoc_of_wf rfl (.inl rfl) hwf s
  | tas => exact stopsWithCause_testAndSet (stepsOperand_of_info rfl) fun hwf => writableLoc_of_wf rfl (.inl rfl) hwf s
  | muls | mulu => exact stopsWithCause_multiply (stepsOperand_of_info rfl)
  | divs => exact stopsWithCause_divide (stepsOperand_of_info rfl) (.inl rfl)
  | divu => exact stopsWithCause_divide (stepsOperand_of_info rfl) (.inr rfl)

/-- Settles O51, by the cause of the stop. -/
theorem stopCauses : Obligations.StopCauses := by
  intro i s hwf
  refine ⟨fun f hf => ?fault, fun r hr => ?refused⟩
  case fault =>
    cases (stopsWithCause_exec i s).fault f hf with
    | misaligned ht hsz hodd => exact ⟨ht.terminalOf, .inr (.inl ⟨_, _, _, rfl, ht.flags, hsz, hodd⟩)⟩
    | unmapped ht hout => exact ⟨ht.terminalOf, .inr (.inr ⟨_, _, rfl, ht.flags, hout⟩)⟩
    | zeroDivide ht hi hzero hstep => exact ⟨ht, .inl ⟨_, _, _, rfl, hi, hzero, hstep⟩⟩
  case refused =>
    cases (stopsWithCause_exec i s).refused r hr hwf with
    | programText ht hin => exact .inl ⟨_, _, rfl, ht.terminalOf, ht.flags, hin⟩
    | overlap hov hi => exact .inr ⟨_, _, _, rfl, hov, hi⟩

/-! ### A step that stops (spec/60_exceptions.md rules R230, R233 to R235) -/

/-- If the fetch in state `s` stops, then in `s` itself: it writes nothing. -/
structure StopsIn {α : Type} (s : State) (o : Result α) : Prop where
  fault   : ∀ f, o = .fault f → f.state = s
  refused : ∀ r, o = .refused r → r.state = some s

section
variable {α β : Type} {s : State}

theorem StopsIn.of_next {x : α} : StopsIn s (.next x) := ⟨nofun, nofun⟩

theorem StopsIn.of_fault {f : Fault} (h : f.state = s) : StopsIn (α := α) s (.fault f) :=
  ⟨by rintro _ ⟨⟩; exact h, nofun⟩

theorem StopsIn.of_refused {r : Refusal} (h : r.state = some s) : StopsIn (α := α) s (.refused r) :=
  ⟨nofun, by rintro _ ⟨⟩; exact h⟩

theorem StopsIn.andThen {m : Result α} {k : α → Result β} (hm : StopsIn s m) (hk : ∀ x, StopsIn s (k x)) :
    StopsIn s (andThen m k) := by
  cases m with
  | next x => exact hk x
  | fault f => exact .of_fault (hm.fault f rfl)
  | refused r => exact .of_refused (hm.refused r rfl)

theorem stopsIn_fetchWord (s : State) (k : Nat) : StopsIn s (fetchWord s k) := by
  unfold fetchWord
  dsimp only
  split
  next =>
    split
    next =>
      split
      next => exact .of_next
      next => exact .of_fault rfl
    next => exact .of_refused rfl
  next => exact .of_fault rfl

theorem stopsIn_fetchWords (s : State) (k n : Nat) : StopsIn s (fetchWords s k n) := by
  induction n generalizing k with
  | zero => exact .of_next
  | succ n ih => exact (stopsIn_fetchWord s k).andThen fun _ => (ih (k + 1)).andThen fun _ => .of_next

theorem stopsIn_refuseDecode (e : DecodeError) (op : Word) (s : State) : StopsIn s (refuseDecode e op s) := by
  cases e <;> exact .of_refused rfl

theorem stopsIn_fetchInstr (s : State) : StopsIn s (fetchInstr s) :=
  (stopsIn_fetchWord s 0).andThen fun op => by
    split
    next => exact .of_refused rfl
    next f _ =>
      refine (stopsIn_fetchWords s 1 f.extCount).andThen fun ws => ?_
      split
      next => exact .of_next
      next e _ => exact stopsIn_refuseDecode e op s

/-- What is fetched was decoded, so that it is well formed. -/
theorem wf_of_fetchInstr {i : Instr} (h : fetchInstr s = .next i) : i.wf = true := by
  obtain ⟨op, f, ws, rest, -, hop, -, hfinish⟩ := fetchInstr_eq_next.1 h
  have hdecode : decode (op :: ws) = .instr i rest := by rw [decode, hop]; exact hfinish
  obtain ⟨hwf, -⟩ := decodedIsWellFormed _ _ _ hdecode
  exact hwf

theorem step_eq_fault {f : Fault} (h : step s = .fault f) :
    f.state = s ∨ ∃ i, fetchInstr s = .next i ∧ exec i s = .fault f := by
  by_cases hend : s.pc.toNat = s.layout.endAddr
  · cases (if_pos hend).symm.trans h
    exact .inl rfl
  · rw [step, if_neg hend] at h
    exact (andThen_eq_fault.1 h).imp_left ((stopsIn_fetchInstr s).fault f)

theorem step_eq_refused {r : Refusal} (h : step s = .refused r) :
    r.state = some s ∨ ∃ i, fetchInstr s = .next i ∧ exec i s = .refused r := by
  by_cases hend : s.pc.toNat = s.layout.endAddr
  · cases (if_pos hend).symm.trans h
  · rw [step, if_neg hend] at h
    exact (andThen_eq_refused.1 h).imp_left ((stopsIn_fetchInstr s).refused r)

end

/-- Settles O50: a step stops where it started, or its instruction stops for one of the causes, each of which comes with
its terminal state. -/
theorem stoppedStepKeeps : Obligations.StoppedStepKeeps := by
  intro s
  refine ⟨fun f hf => ?fault, fun r hr => ?refused⟩
  case fault =>
    rcases step_eq_fault hf with rfl | ⟨i, -, hexec⟩
    · exact ⟨rfl, rfl, rfl, rfl, rfl, .inl rfl⟩
    · cases (stopsWithCause_exec i s).fault f hexec with
      | misaligned ht | unmapped ht =>
        exact ⟨ht.d, ht.mem, ht.pc, ht.layout, congrArg Flags.x ht.flags, .inl ht.flags⟩
      | zeroDivide ht => exact ⟨ht.d, ht.mem, ht.pc, ht.layout, ht.x, .inr ⟨_, rfl⟩⟩
  case refused =>
    rcases step_eq_refused hr with hstart | ⟨i, hfetch, hexec⟩
    · exact ⟨s, hstart, rfl, rfl, rfl, rfl, rfl⟩
    · cases (stopsWithCause_exec i s).refused r hexec (wf_of_fetchInstr hfetch) with
      | programText ht => exact ⟨_, rfl, ht.d, ht.mem, ht.pc, ht.layout, ht.flags⟩
      | overlap => exact ⟨s, rfl, rfl, rfl, rfl, rfl, rfl⟩

/-! ### The zero-divide trap (rule R230) -/

section
variable {src : Ea} {r : Reg} {s : State} {v : Word} (len : Nat)

theorem divideSigned_zero_dividend (h : s.dreg r = 0#32) :
    let t := divideSigned v r len (resolveEa .word src s).2
    t.dreg r = 0#32 ∧ t.flags.v = false ∧ t.flags.z = true := by
  have hq : quotS (s.dreg r) v = 0 := by rw [quotS, h, BitVec.toInt_zero, Int.zero_tdiv]
  have hrem : remS (s.dreg r) v = 0 := by rw [remS, hq, h, BitVec.toInt_zero, Int.zero_mul, Int.sub_zero]
  have hdone := divideSigned_replaces (src := src) (r := r) (s := s) (v := v) (len := len) (by omega) (by omega)
  rw [hq, hrem] at hdone
  exact ⟨hdone.written, by rw [hdone.flags], by rw [hdone.flags]; rfl⟩

theorem divideUnsigned_zero_dividend (h : s.dreg r = 0#32) :
    let t := divideUnsigned v r len (resolveEa .word src s).2
    t.dreg r = 0#32 ∧ t.flags.v = false ∧ t.flags.z = true := by
  have hq : quotU (s.dreg r) v = 0 := by rw [quotU, h, BitVec.toNat_zero, Nat.zero_div]
  have hdone := divideUnsigned_replaces (src := src) (r := r) (s := s) (v := v) (len := len) (by omega)
  rw [hq, h, BitVec.toNat_zero, Nat.zero_mod] at hdone
  exact ⟨hdone.written, by rw [hdone.flags], by rw [hdone.flags]; rfl⟩

/-- A divide whose divisor has been read traps if it is zero and completes with zeros if only the dividend is. -/
theorem divide_traps_or_zero {i : Instr} {how : Word → Reg → Nat → State → State}
    (hexec : exec i s = divide how src r s)
    (hhow : ∀ {v : Word} (len : Nat), s.dreg r = 0#32 →
      let t := how v r len (resolveEa .word src s).2
      t.dreg r = 0#32 ∧ t.flags.v = false ∧ t.flags.z = true)
    (ha : accessStop .read .word (resolveEa .word src s).1 (resolveEa .word src s).2 = none) :
    let v : Word := locValue .word (resolveEa .word src s).1 (resolveEa .word src s).2
    (v = 0#16 → ∃ t, exec i s = .fault (.zeroDivide t) ∧ NothingStored s t ∧ OnlyEaStep .word src s t ∧
      t.pc = s.pc ∧ t.flags.x = s.flags.x) ∧
    (v ≠ 0#16 → s.dreg r = 0#32 →
      ∃ t, exec i s = .next t ∧ t.dreg r = 0#32 ∧ t.flags.v = false ∧ t.flags.z = true) := by
  intro v
  refine ⟨fun hv => ?traps, fun hv hzero => ?completes⟩
  case traps =>
    obtain ⟨t, ht, hstored, hareg, hx, -, hpc⟩ := trapsOnZero_divide hexec ha hv
    exact ⟨t, ht, hstored, hareg, hpc, hx⟩
  case completes => exact ⟨_, hexec.trans (divide_eq_next_iff.2 ⟨ha, hv, rfl⟩), hhow _ hzero⟩

end

/-- Settles O30: DIVS and DIVU by `divide_traps_or_zero`; that nothing else traps is the cause of the stop. -/
theorem zeroDivideTrap : Obligations.ZeroDivideTrap := by
  refine ⟨fun signed src dst s => ?divides, fun i s t ht => ?only⟩
  case divides =>
    cases signed with
    | true => exact divide_traps_or_zero (exec_divs src dst s) divideSigned_zero_dividend
    | false => exact divide_traps_or_zero (exec_divu src dst s) divideUnsigned_zero_dividend
  case only =>
    cases (stopsWithCause_exec i s).fault _ ht with
    | zeroDivide _ hi => exact ⟨_, _, hi⟩

end Sys2Proof.Machine

/-! ## Launch and the end of runs (spec/70_reset_and_hazards.md rules R260, R263, R264) -/

namespace Sys2Proof.Machine

/-! ### Launch states -/

section
variable {s : State}

theorem State.IsLaunch.inv (h : s.IsLaunch) : s.Inv where
  layout := h.layout
  mem := h.mem
  pc_even := h.entry ▸ h.layout.entry_even
  entry_le := Nat.le_of_eq h.entry.symm
  le_end := h.entry ▸ h.layout.entry_stop.trans h.layout.stop_end

theorem inText_iff (l : Layout) (addr : Long) :
    l.inText addr = true ↔ l.textBase ≤ addr.toNat ∧ addr.toNat < l.textEnd := by
  rw [Layout.inText, Bool.and_eq_true, decide_eq_true_eq, decide_eq_true_eq]

/-- Both ends of ProgramText are even, so that an even address inside it starts a whole Word there. -/
theorem allBytes_inText_word {l : Layout} (hl : l.Ok) {addr : Long} (heven : addr.toNat % 2 = 0)
    (h : l.inText addr = true) : allBytes l.inText addr 2 = true := by
  obtain ⟨hbase, hend⟩ := (inText_iff l addr).1 h
  have heven_end := hl.end_even
  have htop := hl.end_le
  refine (allBytes_eq_true_iff l.inText addr 2).2 fun j hj => (inText_iff l _).2 ?_
  rw [toNat_add_ofNat (by omega)]
  omega

theorem State.IsLaunch.fetchWord_zero (h : s.IsLaunch) : fetchWord s 0 = .next (s.valueAt .word s.pc) := by
  have hpc := h.inv.pc_even
  have hfetch : fetchWord s 0 = .next (s.valueAt .word (fetchAddr s 0)) :=
    fetchWord_inText h.layout hpc (by rw [fetchAddr_zero]; exact allBytes_inText_word h.layout hpc h.in_text)
  rwa [fetchAddr_zero] at hfetch

end

/-! ### Reset (log entries 1 to 5) -/

/-- At reset every address exists. -/
theorem admits_reset (addr : Long) : Layout.reset.admits addr = true := by
  have hlt := addr.isLt
  simp [Layout.admits, Layout.reset]
  omega

theorem layout_reset_ok : Layout.reset.Ok := by
  constructor
  case mapped => exact fun addr _ => admits_reset addr
  all_goals decide

theorem isLaunch_reset : State.reset.IsLaunch := ⟨layout_reset_ok, rfl, rfl, rfl⟩

/-- Settles O1: reset is a launch state, and every launch state is legal. -/
theorem resetIsLegal : Obligations.ResetIsLegal := isLaunch_reset.inv

/-- Settles O60: pc lies inside ProgramText by the definition of a launch, which makes the Word there one that can be
fetched. -/
theorem launchIsLegal : Obligations.LaunchIsLegal := by
  refine ⟨fun s h => ?_, isLaunch_reset⟩
  obtain ⟨hbase, hend⟩ := (inText_iff s.layout s.pc).1 h.in_text
  exact ⟨h.inv, hbase, hend, h.fetchWord_zero⟩

/-! ### Runs -/

section
variable {s t : State}

theorem step_raises_pc (hs : s.Inv) (h : step s = .next t) :
    s.pc.toNat + 2 ≤ t.pc.toNat ∧ t.pc.toNat ≤ s.layout.textEnd := by
  obtain ⟨-, i, hfetch, hexec⟩ := step_eq_next.1 h
  have hpc := pc_toNat_of_exec hs.layout hfetch hexec
  have hfit := fetchInstr_le_textEnd hs.layout hfetch
  obtain ⟨-, hlen, -⟩ := Laws.LengthBounds.of_info i
  omega

theorem run_succ_eq_next {k : Nat} (h : core.run (k + 1) s = .next t) :
    ∃ u, step s = .next u ∧ core.run k u = .next t := by
  simp only [Host.Core.run] at h
  split at h
  next u hu => exact ⟨u, hu, h⟩
  next => cases h
  next => cases h

/-- The measure of termination: every step uses up two bytes of what is left to TextEnd. -/
theorem run_le_textEnd {k : Nat} (hs : s.Inv) (h : core.run k s = .next t) :
    s.pc.toNat + 2 * k ≤ s.layout.textEnd := by
  induction k generalizing s with
  | zero => exact hs.le_end
  | succ k ih =>
    obtain ⟨u, hstep, hrun⟩ := run_succ_eq_next h
    obtain ⟨hpc, -⟩ := step_raises_pc hs hstep
    obtain ⟨hlayout, -⟩ := sameText_step hstep
    have hrest := ih (stepKeepsLegal s u hs hstep) hrun
    rw [hlayout] at hrest
    omega

end

/-- Settles O57: after half of what is left to TextEnd, rounded down, and one more step, a run would have passed it. -/
theorem runsAreFinite : Obligations.RunsAreFinite := by
  intro s hs
  refine ⟨fun t => step_raises_pc hs, _, Nat.le_refl _, fun t hrun => ?_⟩
  have hfit := run_le_textEnd hs hrun
  omega

end Sys2Proof.Machine
